-- ==== Sys2Proof/Word.lean ====
section
/-! DEFINITION. The widths and number type of PWFC: bytes, 16-bit words, exact rationals with their printed form. -/

namespace Sys2Proof

/-- A byte of a frame, a unit id, a function code, a bit or segment index (R10, R68 `u8`). -/
abbrev Byte := BitVec 8

/-- A controller register's content or address, a count, a CRC (R8 `WORD`, `ADDR`; R68 `u16`). -/
abbrev Word := BitVec 16

/-- The printed form of a number: an integer, or a one-decimal number (R124). No rule reads it. -/
inductive NumForm where
  | integer
  | oneDecimal
  deriving DecidableEq, Repr

/-- R10, R68 `num`: an exact rational, with the display bit that R124 allows a model to carry. -/
structure Number where
  val  : Rat
  form : NumForm
  deriving DecidableEq, Repr

end Sys2Proof
end

