-- ==== Sys2Proof/Machine/Params.lean ====
section
/-! DEFINITION. The named constants of R8, R47 and R122, each normative exactly as the source prints it (R4, U1). -/

namespace Sys2Proof.Machine

/-- R8 `FN_READ`: read holding registers. -/
def fnRead : Byte := 0x03

/-- R8 `FN_WRITE`: write single register. -/
def fnWrite : Byte := 0x06

/-- R8 `CRC_POLY`: the reflected feedback constant. -/
def crcPoly : Word := 0xA001

/-- R8 `CRC_INIT`. -/
def crcInit : Word := 0xFFFF

/-- R8 `MIN_FRAME`: the shortest buffer VALIDATE can pass. -/
def minFrame : Nat := 4

/-- R8 `FB_MAX`: the capacity of the receive buffer. -/
def fbMax : Nat := 256

/-- R8, R45 `SEG[0..3]`: the four poll-cycle range reads as (start, count). -/
def segments : List (Word × Word) :=
  [(0x0000, 0x0078), (0x0078, 0x0078), (0x00F0, 0x0078), (0x0168, 0x0007)]

/-- R8 `DB_REGS`: 0x16F registers. -/
def dbRegs : Nat := 0x16F

/-- R8 `T_SENT`: the generic sentinel threshold, strictly greater than. -/
def tSent : Rat := 65280

/-- R8 `T_SENT_FIELD`: the threshold of the field-specific corrections. -/
def tSentField : Rat := 65000

/-- R8 `SUBTRAHEND`. -/
def subtrahend : Rat := 65535

/-- R47: the register of DOC's extraction example, of which no field name is given. -/
def addrExample : Word := 0x000E

/-- R47: the water-outlet temperature. -/
def addrWaterOutlet : Word := 0x0012

/-- R47, R122: its factor, 0.10. -/
def factorWaterOutlet : Rat := 1 / 10

/-- R122: the factor of the ambient temperature. -/
def factorAmbient : Rat := 1 / 2

/-- R122: the factor of the low-pressure-conversion temperature. -/
def factorLowPressure : Rat := 1 / 10

/-- R47: the packed-flags register whose bit 0 is the unit-state bit. -/
def addrUnitState : Word := 0x003F

/-- R47: the unit-state bit, which the Heating command sets. -/
def bitUnitState : Byte := 0

/-- R47: the packed-flags register with the Powerful and Silent bits. -/
def addrPowerfulSilent : Word := 0x0040

/-- R47: the packed-flags register with the Holiday bit. -/
def addrHoliday : Word := 0x0041

/-- R47: the operation mode. -/
def addrOperationMode : Word := 0x0043

/-- R47: the operation mode that Heating writes. -/
def modeHeating : Word := 0x0001

/-- R47: the registers the spec names as packed flags. -/
def packedNamed : List Word := [addrUnitState, addrPowerfulSilent, addrHoliday]

/-- R8 `MAX_ATTEMPTS`: attempts in total per transaction. -/
def maxAttempts : Nat := 2

end Sys2Proof.Machine
end

