-- ==== Sys2Proof/Syntax.lean ====
section
/-! DEFINITION. The syntax of PWFC: one constructor per row of the opcode table, the operand forms of R68, and the
transfers in which an instruction reaches the machine (R25). -/

namespace Sys2Proof

/-- One row each of the opcode table: the 26 operations of R62 and the four frame formats of R61. -/
inductive Instr where
  /-- CRC16 d (R86). -/
  | crc16 (d : List Byte)
  /-- VALIDATE b (R88). -/
  | validate (b : List Byte)
  /-- ENCODE unit, fn, payload (R95). -/
  | encode (unit fn : Byte) (payload : List Byte)
  /-- ENC.RD unit, start, count (R96). -/
  | encRd (unit : Byte) (start count : Word)
  /-- ENC.WR unit, reg, value (R97). -/
  | encWr (unit : Byte) (reg value : Word)
  /-- ACCEPT b (R98). -/
  | accept (b : List Byte)
  /-- PARSE.RD (R99). -/
  | parseRd
  /-- PARSE.RD1 (R100). -/
  | parseRd1
  /-- PARSE.WR (R101). -/
  | parseWr
  /-- CLRREQ (R102). -/
  | clrreq
  /-- DBCLR (R116). -/
  | dbclr
  /-- LOADSEG k (R117). -/
  | loadseg (k : Byte)
  /-- XWORD a (R119). -/
  | xword (a : Word)
  /-- SCALE raw, f (R121). -/
  | scale (raw : Word) (f : Rat)
  /-- WRAP v (R125). -/
  | wrap (v : Number)
  /-- GETBIT w, i (R127). -/
  | getbit (w : Option Word) (i : Byte)
  /-- FIELD a, f (R128). -/
  | field (a : Word) (f : Rat)
  /-- WRAP65K v (R130). -/
  | wrap65k (v : Number)
  /-- AMBFIX v (R131). -/
  | ambfix (v : Number)
  /-- LPFIX v (R132). -/
  | lpfix (v : Number)
  /-- SETBIT w, i (R140). -/
  | setbit (w : Word) (i : Byte)
  /-- CLRBIT w, i (R141). -/
  | clrbit (w : Word) (i : Byte)
  /-- FMODE w40, w41 (R151). -/
  | fmode (w40 w41 : Option Word)
  /-- PUMPON speed (R152). -/
  | pumpon (speed : Number)
  /-- ANTIFRZ crank, sec, lvl1 (R153). -/
  | antifrz (crank sec lvl1 : Bool)
  /-- ERRINT f1, ..., f7 (R157). -/
  | errint (f1 f2 f3 f4 f5 f6 f7 : Word)
  /-- The frame RDREQ on the transmit-frame interface (R63): fields u, a, n, c. -/
  | rdreq (unit : Byte) (start count : Word) (crc : Word)
  /-- The frame RDRSP on the receive-frame interface (R64): fields u, the data (its length is b), c. -/
  | rdrsp (unit : Byte) (data : List Byte) (crc : Word)
  /-- The frame WRREQ on the transmit-frame interface (R65): fields u, a, v, c. -/
  | wrreq (unit : Byte) (reg value : Word) (crc : Word)
  /-- The frame WRRSP on the receive-frame interface (R66): fields u, a, v, c. -/
  | wrrsp (unit : Byte) (reg value : Word) (crc : Word)
  deriving DecidableEq, Repr

/-- R68: the operand forms. Operands travel beside the select code, one complete value per transfer (R25, R62). -/
inductive Operand where
  | u8 (v : Byte)
  | u16 (v : Word)
  | bytes (v : List Byte)
  | optword (v : Option Word)
  | num (v : Number)
  | factor (v : Rat)
  | bool (v : Bool)
  deriving DecidableEq, Repr

/-- R25: one transfer to the machine. An operation is a select code and its operands; a frame is a byte string on
the transmit-frame interface (block to link) or on the receive-frame interface (link to block). -/
inductive Transfer where
  | operation (select : Byte) (operands : List Operand)
  | transmit (frame : List Byte)
  | receive (frame : List Byte)
  deriving DecidableEq, Repr

/-- Why the decoder reads no instruction from a transfer. -/
inductive DecodeReject where
  /-- R71, R186 (a): the select code is not in R62's list. -/
  | reservedSelect (select : Byte)
  /-- R62, R68: the operands are not of the number and forms that R62 gives the select code. -/
  | operandForms (select : Byte)
  /-- R61, R69: a byte string on the transmit-frame interface that is neither request format. It is no row of the
  table; it goes on the link all the same (R25 (3), log entry 25). -/
  | notRequest (frame : List Byte)
  deriving DecidableEq, Repr

/-- The mnemonic of an instruction, as R62 and R61 spell it (R73). -/
def Instr.mnemonic : Instr → String
  | .crc16 _ => "CRC16"
  | .validate _ => "VALIDATE"
  | .encode _ _ _ => "ENCODE"
  | .encRd _ _ _ => "ENC.RD"
  | .encWr _ _ _ => "ENC.WR"
  | .accept _ => "ACCEPT"
  | .parseRd => "PARSE.RD"
  | .parseRd1 => "PARSE.RD1"
  | .parseWr => "PARSE.WR"
  | .clrreq => "CLRREQ"
  | .dbclr => "DBCLR"
  | .loadseg _ => "LOADSEG"
  | .xword _ => "XWORD"
  | .scale _ _ => "SCALE"
  | .wrap _ => "WRAP"
  | .getbit _ _ => "GETBIT"
  | .field _ _ => "FIELD"
  | .wrap65k _ => "WRAP65K"
  | .ambfix _ => "AMBFIX"
  | .lpfix _ => "LPFIX"
  | .setbit _ _ => "SETBIT"
  | .clrbit _ _ => "CLRBIT"
  | .fmode _ _ => "FMODE"
  | .pumpon _ => "PUMPON"
  | .antifrz _ _ _ => "ANTIFRZ"
  | .errint _ _ _ _ _ _ _ => "ERRINT"
  | .rdreq _ _ _ _ => "RDREQ"
  | .rdrsp _ _ _ => "RDRSP"
  | .wrreq _ _ _ _ => "WRREQ"
  | .wrrsp _ _ _ _ => "WRRSP"

end Sys2Proof
end

