-- ==== Sys2Proof/WellFormed.lean ====
section
/-! DEFINITION. Well-formed instructions: every operand inside the domain its rule states (R71, R186 (b) to (e), (i)),
and a read response's data short enough for its byte-count byte (R64). -/

namespace Sys2Proof

/-- Whether the instruction can be written in its encoding at all: only RDRSP has a limit, since its byte count is
one byte (R64). -/
def Instr.encodable : Instr → Bool
  | .rdrsp _ data _ => decide (data.length ≤ 255)
  | .crc16 _ | .validate _ | .encode _ _ _ | .encRd _ _ _ | .encWr _ _ _ | .accept _ => true
  | .parseRd | .parseRd1 | .parseWr | .clrreq | .dbclr | .loadseg _ | .xword _ => true
  | .scale _ _ | .wrap _ | .getbit _ _ | .field _ _ | .wrap65k _ | .ambfix _ | .lpfix _ => true
  | .setbit _ _ | .clrbit _ _ | .fmode _ _ | .pumpon _ | .antifrz _ _ _ => true
  | .errint _ _ _ _ _ _ _ | .rdreq _ _ _ _ | .wrreq _ _ _ _ | .wrrsp _ _ _ _ => true

/-- Whether every operand lies in the domain the spec states for it. An operation with an operand outside its domain
is decoded, and refused by its own meaning (R71). -/
def Instr.wellFormed : Instr → Bool
  | .crc16 _ | .validate _ | .encode _ _ _ | .encRd _ _ _ | .encWr _ _ _ => true
  | .accept b => decide (b.length ≤ 256)
  | .parseRd | .parseRd1 | .parseWr | .clrreq | .dbclr => true
  | .loadseg k => decide (k.toNat ≤ 3)
  | .xword a => decide (a.toNat ≤ 0x016E)
  | .scale _ f => decide (0 ≤ f)
  | .wrap _ | .getbit _ _ => true
  | .field a f => decide (a.toNat ≤ 0x016E) && decide (0 ≤ f)
  | .wrap65k _ | .ambfix _ | .lpfix _ => true
  | .setbit _ i => decide (i.toNat ≤ 15)
  | .clrbit _ i => decide (i.toNat ≤ 15)
  | .fmode _ _ | .pumpon _ | .antifrz _ _ _ | .errint _ _ _ _ _ _ _ => true
  | .rdreq _ _ _ _ => true
  | .rdrsp _ data _ => decide (data.length ≤ 255)
  | .wrreq _ _ _ _ | .wrrsp _ _ _ _ => true

end Sys2Proof
end

