-- ==== Sys2Proof/Decode.lean ====
section
/-! DEFINITION. Byte order (R35, R36, R67), the decoder of transfers, total and rejecting by name (R62, R61, R71),
and after it the encoder written from the same tables. -/

namespace Sys2Proof

open Sys2Proof.Machine (fnRead fnWrite)

/-- R10 `hi8(w)`: bits 15:8. -/
def hi8 (w : Word) : Byte := w.extractLsb' 8 8

/-- R10 `lo8(w)`: bits 7:0. -/
def lo8 (w : Word) : Byte := w.extractLsb' 0 8

/-- R10 `be16(h, l)`: `h * 256 + l`. -/
def be16 (h l : Byte) : Word := h ++ l

/-- R35: two 16-bit fields of a payload, each high byte first. -/
def payload16 (a b : Word) : List Byte := [hi8 a, lo8 a, hi8 b, lo8 b]

/-- R64: the payload of a read response, the byte count and the data. -/
def readPayload (data : List Byte) : List Byte := BitVec.ofNat 8 data.length :: data

/-- R60, R36: `[unitId][functionCode][payload][crcLo][crcHi]` for a given CRC field. -/
def frameBytes (unit fn : Byte) (payload : List Byte) (c : Word) : List Byte :=
  unit :: fn :: (payload ++ [lo8 c, hi8 c])

/-- R62: the instruction a select code and its operands name. -/
def decodeOperation (select : Byte) (operands : List Operand) : Except DecodeReject Instr :=
  let bad : Except DecodeReject Instr := .error (.operandForms select)
  match select.toNat with
  | 0x00 => match operands with | [.bytes d] => .ok (.crc16 d) | _ => bad
  | 0x01 => match operands with | [.bytes b] => .ok (.validate b) | _ => bad
  | 0x10 => match operands with | [.u8 unit, .u8 fn, .bytes p] => .ok (.encode unit fn p) | _ => bad
  | 0x11 => match operands with | [.u8 unit, .u16 start, .u16 count] => .ok (.encRd unit start count) | _ => bad
  | 0x12 => match operands with | [.u8 unit, .u16 reg, .u16 value] => .ok (.encWr unit reg value) | _ => bad
  | 0x13 => match operands with | [.bytes b] => .ok (.accept b) | _ => bad
  | 0x14 => match operands with | [] => .ok .parseRd | _ => bad
  | 0x15 => match operands with | [] => .ok .parseRd1 | _ => bad
  | 0x16 => match operands with | [] => .ok .parseWr | _ => bad
  | 0x17 => match operands with | [] => .ok .clrreq | _ => bad
  | 0x20 => match operands with | [] => .ok .dbclr | _ => bad
  | 0x21 => match operands with | [.u8 k] => .ok (.loadseg k) | _ => bad
  | 0x22 => match operands with | [.u16 a] => .ok (.xword a) | _ => bad
  | 0x23 => match operands with | [.u16 raw, .factor f] => .ok (.scale raw f) | _ => bad
  | 0x24 => match operands with | [.num v] => .ok (.wrap v) | _ => bad
  | 0x25 => match operands with | [.optword w, .u8 i] => .ok (.getbit w i) | _ => bad
  | 0x26 => match operands with | [.u16 a, .factor f] => .ok (.field a f) | _ => bad
  | 0x27 => match operands with | [.num v] => .ok (.wrap65k v) | _ => bad
  | 0x28 => match operands with | [.num v] => .ok (.ambfix v) | _ => bad
  | 0x29 => match operands with | [.num v] => .ok (.lpfix v) | _ => bad
  | 0x30 => match operands with | [.u16 w, .u8 i] => .ok (.setbit w i) | _ => bad
  | 0x31 => match operands with | [.u16 w, .u8 i] => .ok (.clrbit w i) | _ => bad
  | 0x40 => match operands with | [.optword w40, .optword w41] => .ok (.fmode w40 w41) | _ => bad
  | 0x41 => match operands with | [.num v] => .ok (.pumpon v) | _ => bad
  | 0x42 => match operands with | [.bool crank, .bool sec, .bool lvl1] => .ok (.antifrz crank sec lvl1) | _ => bad
  | 0x43 => match operands with
    | [.u16 f1, .u16 f2, .u16 f3, .u16 f4, .u16 f5, .u16 f6, .u16 f7] => .ok (.errint f1 f2 f3 f4 f5 f6 f7)
    | _ => bad
  | _ => .error (.reservedSelect select)

/-- R61, R63, R65: the request a byte string on the transmit-frame interface is. The CRC field is read low byte
first (R67). -/
def decodeTransmit (frame : List Byte) : Except DecodeReject Instr :=
  match frame with
  | [u, fn, ah, al, bh, bl, c0, c1] =>
    if fn = fnRead then .ok (.rdreq u (be16 ah al) (be16 bh bl) (be16 c1 c0))
    else if fn = fnWrite then .ok (.wrreq u (be16 ah al) (be16 bh bl) (be16 c1 c0))
    else .error (.notRequest frame)
  | _ => .error (.notRequest frame)

/-- R64: the read response a received byte string is, its length learned from byte 2. -/
def asReadResponse (frame : List Byte) : Option Instr :=
  match frame with
  | u :: fn :: count :: rest =>
    if fn = fnRead then
      match rest.drop count.toNat with
      | [c0, c1] => some (.rdrsp u (rest.take count.toNat) (be16 c1 c0))
      | _ => none
    else none
  | _ => none

/-- R66: the write response a received byte string is. -/
def asWriteResponse (frame : List Byte) : Option Instr :=
  match frame with
  | [u, fn, ah, al, bh, bl, c0, c1] =>
    if fn = fnWrite then some (.wrrsp u (be16 ah al) (be16 bh bl) (be16 c1 c0)) else none
  | _ => none

/-- R25 (4), R26: any byte string may arrive on the receive-frame interface. One that has neither response format is
the operand of ACCEPT all the same (R98). -/
def decodeReceive (frame : List Byte) : Instr :=
  match asReadResponse frame with
  | some i => i
  | none =>
    match asWriteResponse frame with
    | some i => i
    | none => .accept frame

/-- The decoder: the instruction a transfer is, or the named reason why it is none. -/
def decode : Transfer → Except DecodeReject Instr
  | .operation select operands => decodeOperation select operands
  | .transmit frame => decodeTransmit frame
  | .receive frame => .ok (decodeReceive frame)

/-- The encoder: the transfer in which the host or the link presents an instruction (R62, R63 to R66). -/
def encode : Instr → Transfer
  | .crc16 d => .operation 0x00 [.bytes d]
  | .validate b => .operation 0x01 [.bytes b]
  | .encode unit fn p => .operation 0x10 [.u8 unit, .u8 fn, .bytes p]
  | .encRd unit start count => .operation 0x11 [.u8 unit, .u16 start, .u16 count]
  | .encWr unit reg value => .operation 0x12 [.u8 unit, .u16 reg, .u16 value]
  | .accept b => .operation 0x13 [.bytes b]
  | .parseRd => .operation 0x14 []
  | .parseRd1 => .operation 0x15 []
  | .parseWr => .operation 0x16 []
  | .clrreq => .operation 0x17 []
  | .dbclr => .operation 0x20 []
  | .loadseg k => .operation 0x21 [.u8 k]
  | .xword a => .operation 0x22 [.u16 a]
  | .scale raw f => .operation 0x23 [.u16 raw, .factor f]
  | .wrap v => .operation 0x24 [.num v]
  | .getbit w i => .operation 0x25 [.optword w, .u8 i]
  | .field a f => .operation 0x26 [.u16 a, .factor f]
  | .wrap65k v => .operation 0x27 [.num v]
  | .ambfix v => .operation 0x28 [.num v]
  | .lpfix v => .operation 0x29 [.num v]
  | .setbit w i => .operation 0x30 [.u16 w, .u8 i]
  | .clrbit w i => .operation 0x31 [.u16 w, .u8 i]
  | .fmode w40 w41 => .operation 0x40 [.optword w40, .optword w41]
  | .pumpon v => .operation 0x41 [.num v]
  | .antifrz crank sec lvl1 => .operation 0x42 [.bool crank, .bool sec, .bool lvl1]
  | .errint f1 f2 f3 f4 f5 f6 f7 =>
    .operation 0x43 [.u16 f1, .u16 f2, .u16 f3, .u16 f4, .u16 f5, .u16 f6, .u16 f7]
  | .rdreq unit start count crc => .transmit (frameBytes unit fnRead (payload16 start count) crc)
  | .rdrsp unit data crc => .receive (frameBytes unit fnRead (readPayload data) crc)
  | .wrreq unit reg value crc => .transmit (frameBytes unit fnWrite (payload16 reg value) crc)
  | .wrrsp unit reg value crc => .receive (frameBytes unit fnWrite (payload16 reg value) crc)

/-- The operands of zeros of a listed select code (log entry 5): number 0, empty byte string, word 0, false. -/
def zeroOperands (select : Byte) : List Operand :=
  match select.toNat with
  | 0x00 | 0x01 | 0x13 => [.bytes []]
  | 0x10 => [.u8 0, .u8 0, .bytes []]
  | 0x11 | 0x12 => [.u8 0, .u16 0, .u16 0]
  | 0x21 => [.u8 0]
  | 0x22 => [.u16 0]
  | 0x23 | 0x26 => [.u16 0, .factor 0]
  | 0x24 | 0x27 | 0x28 | 0x29 | 0x41 => [.num ⟨0, .integer⟩]
  | 0x25 => [.optword (some 0), .u8 0]
  | 0x30 | 0x31 => [.u16 0, .u8 0]
  | 0x40 => [.optword (some 0), .optword (some 0)]
  | 0x42 => [.bool false, .bool false, .bool false]
  | 0x43 => [.u16 0, .u16 0, .u16 0, .u16 0, .u16 0, .u16 0, .u16 0]
  | _ => []

/-- The n low bytes of a number, most significant first: how the table numbers a frame's bits (98_reader.md; bit 7 of
the frame's byte 0 is the most significant bit, R61). -/
def bytesMsbFirst : Nat → Nat → List Byte
  | 0, _ => []
  | n + 1, w => BitVec.ofNat 8 (w >>> (8 * n)) :: bytesMsbFirst n w

/-- The transfer that a row's bits stand for: 8 bits are a select code with operands of zeros, 24 bits the head of a
read response with data and CRC of zeros, anything else a frame on the transmit-frame interface (log entry 4). -/
def tableTransfer (nbits w : Nat) : Transfer :=
  if nbits = 8 then .operation (BitVec.ofNat 8 w) (zeroOperands (BitVec.ofNat 8 w))
  else if nbits = 24 then .receive (bytesMsbFirst 3 w ++ List.replicate (w % 256 + 2) 0)
  else .transmit (bytesMsbFirst (nbits / 8) w)

/-- The instruction the decoder reads from a row's bits, as the opcode table numbers them. -/
def decodeTableWord (nbits w : Nat) : Option Instr := (decode (tableTransfer nbits w)).toOption

end Sys2Proof
end

