-- ==== Sys2Proof/Config.lean ====
section
/-! DEFINITION. What the spec leaves open: the free values (constants without a body), and the parameter record
of the host's contract (R8: a model takes each OPEN parameter as an argument). -/

namespace Sys2Proof.Config

/-- The tie rule of `round1` (R123, D9): whether a number exactly half-way between two tenths goes to the upper
one. A FREE VALUE (log entry 8). -/
opaque roundTieUp : Rat → Bool

/-- R156: the two severities a catalogue entry may have. -/
inductive Severity where
  | antiFreezeNotice
  | hardwareFault
  deriving DecidableEq, Repr

/-- R156: one entry `(bit, sev, text)` of an error catalogue, `bit` in 0..15. -/
structure CatEntry where
  bit  : Fin 16
  sev  : Severity
  text : String
  deriving DecidableEq, Repr

/-- R156: the severity and the text that the catalogue of fault register n gives a bit, if the bit is a known one.
A parameter (log entry 9). -/
opaque catEntry : Nat → Fin 16 → Option (Severity × String)

/-- R156 `UNKNOWN_TEXT(n)`. A parameter (log entry 9). -/
opaque unknownText : Nat → String

/-- R156 `NOERR_TEXT`. A parameter (log entry 9). -/
opaque noErrText : String

/-- Whether the controller serves the i-th request it is sent (R13 (4) "may drop a request", U11, U14).
A FREE VALUE (log entry 12). -/
opaque controllerServes : Nat → Bool

/-- The bytes with which the controller answers the i-th request where it answers in another way than R64 and R66
describe: a wrong echo, a frame that fails ACCEPT (U12, U14). A FREE VALUE (log entry 12). -/
opaque controllerOddAnswer : Nat → Option (List Byte)

/-- The registers the controller changed on its own before the i-th request (R13 (4), U10).
A FREE VALUE (log entry 12). -/
opaque controllerDrift : Nat → List (Word × Word)

/-- What the controller holds, at the i-th request, in a register whose content is not known (R26 "oracle").
A FREE VALUE (log entry 12). -/
opaque controllerWord : Nat → Nat → Word

/-- The one byte with which the controller answers the i-th request if that is a count-1 read, or none when it
answers with two (R38, U13). A FREE VALUE (log entry 13). -/
opaque controllerShortByte : Nat → Option Byte

/-- One entry of the host's register map (R165 `Decoding`, U16): which operations decode the field. -/
inductive FieldSpec where
  /-- FIELD -/
  | number (a : Word) (f : Rat)
  /-- FIELD, then WRAP65K (R130) -/
  | suctionOrCoil (a : Word) (f : Rat)
  /-- FIELD with factor 0.5, then AMBFIX (R131) -/
  | ambient (a : Word)
  /-- FIELD with factor 0.1, then LPFIX (R132) -/
  | lowPressure (a : Word)
  /-- XWORD, then GETBIT -/
  | flag (a : Word) (i : Byte)
  /-- XWORD of 0x0040 and 0x0041, then FMODE (R151) -/
  | frequencyMode
  /-- FIELD, then PUMPON (R152) -/
  | pumpOn (a : Word) (f : Rat)
  /-- XWORD of each address, then ANTIFRZ of what the host makes of the words (R153) -/
  | antiFreeze (addresses : List Word)
  /-- XWORD of the seven fault registers, then ERRINT (R157) -/
  | errors (a1 a2 a3 a4 a5 a6 a7 : Word)
  deriving DecidableEq, Repr

/-- The OPEN parameters of the environment contract (R8, R207; U16, U17). Times in milliseconds. -/
structure HostParams where
  unit       : Byte
  hostName   : String
  port       : Nat
  tTimeout   : Nat
  tGap       : Nat
  tPoll      : Nat
  tPollRetry : Nat
  /-- The entries of the register map beside the ones the spec prints (N1: not in the source). -/
  otherFields : List (String × FieldSpec)
  /-- The packed-flags registers beside the ones the spec names (N1: not in the source). -/
  otherPacked : List Word
  /-- How the host computes ANTIFRZ's three booleans from the words it extracted (N3: not in the source). -/
  antiFreezeInputs : List Word → Bool × Bool × Bool
  /-- Whether the Heating command leaves out its first write when bit 0 is already set (N2: not in the source). -/
  heatingSkips : Bool

/-- The same parameters with the spec's default times (R8: 2 s, 200 ms, 30 s, 10 s). -/
def HostParams.withDefaultTimes (p : HostParams) : HostParams :=
  { p with tTimeout := 2000, tGap := 200, tPoll := 30000, tPollRetry := 10000 }

end Sys2Proof.Config
end

