-- ==== Sys2Proof/Machine/State.lean ====
section
/-! DEFINITION. The state of the machine (10_state.md R13 to R28): the block's five elements, the four interfaces, and
the link, the controller and the host of the environment contract; the reasons a step can stop; the reset state. -/

namespace Sys2Proof.Machine

/-- R181: the error classes with their sub-causes. The transport errors are the host's and never reach STATUS.ERR. -/
inductive ErrorCause where
  | transportConnect
  | transportTimeout
  | transportSocket
  | protocolShort
  | protocolCrc
  | protocolUnit
  | protocolFn
  | decodeShort
  | decodeCount
  | decodeLen1
  | decodeSegLen
  deriving DecidableEq, Repr

/-- R151: the frequency modes. -/
inductive FreqMode where
  | smart
  | powerful
  | silent
  | holiday
  deriving DecidableEq, Repr

/-- R25 (2), R62: what the result interface carries after an operation. -/
inductive Result where
  /-- no result (CLRREQ, DBCLR, LOADSEG; and after reset) -/
  | none
  /-- ACCEPT's `ok` -/
  | ok
  | word (w : Word)
  | bool (b : Bool)
  | bytes (b : List Byte)
  | num (v : Number)
  /-- GETBIT's 0 or 1 -/
  | bit (b : Bool)
  | mode (m : FreqMode)
  /-- ERRINT's pair (level, text) -/
  | severity (level : Nat) (text : String)
  | error (e : ErrorCause)
  deriving DecidableEq, Repr

/-- R17 `REQ`: the request latch. -/
structure Req where
  valid : Bool
  unit  : Byte
  fn    : Byte
  a     : Word
  b     : Word
  deriving DecidableEq, Repr

/-- R20 `STATUS`. -/
structure Status where
  err  : Byte
  echo : Bool
  warn : Bool
  deriving DecidableEq, Repr

/-- A byte memory: (address, byte) cells in rising order of address. An address that is not listed has no value. -/
abbrev Memory := List Host.Cell

/-- What happens in one attempt once the host opens a connection (R13 (3), R160; free input, R26). -/
inductive LinkFate where
  /-- the connection cannot be opened -/
  | noConnect
  /-- a socket failure, after the frame was sent or before -/
  | socketFailure (afterSend : Bool)
  /-- no response in time -/
  | silence
  /-- these bytes are delivered, whatever the controller answered -/
  | delivers (b : List Byte)
  /-- the controller's answer is delivered unchanged (silence if it gave none) -/
  | faithful
  deriving DecidableEq, Repr

/-- Where in an attempt a reset of PWFC lands (R206). -/
inductive ResetPoint where
  /-- in the wait for the gap, before the first attempt or between two; it takes effect at the end of the wait (log
  entry 26) -/
  | waiting
  /-- while the connection is opened, or open, before the frame is sent -/
  | opening
  /-- after the frame was sent, before ACCEPT -/
  | awaiting
  /-- between ACCEPT and the parse step -/
  | accepted
  /-- at the end of the attempt, before CLRREQ or the next attempt -/
  | ended
  deriving DecidableEq, Repr

/-- One attempt's event: what the link does, after how many milliseconds (R160: an attempt ends after T_TIMEOUT at the
latest), and whether and where PWFC is reset in it. A point that the attempt does not reach has no effect. -/
structure LinkEvent where
  fate    : LinkFate
  elapsed : Nat
  reset   : Option ResetPoint
  deriving DecidableEq, Repr

/-- The link (R13 (3), R160, R215). -/
structure Link where
  connected : Bool
  sent      : List (List Byte)
  answer    : Option (List Byte)
  script    : List LinkEvent
  deriving DecidableEq, Repr

/-- The positions of the host's two state machines (R165, R166). -/
inductive Phase where
  | idle
  | reading
  | decoding
  | publishing
  | failed
  | readCurrent
  | computeTarget
  | write
  deriving DecidableEq, Repr

/-- R166: one edit of a packed-flags word. -/
inductive Edit where
  | set (i : Byte)
  | clear (i : Byte)
  deriving DecidableEq, Repr

/-- R166, R144: a command: the packed-flags register it edits, if any, and the registers it then writes without a
read. -/
structure Command where
  packed : Option (Word × List Edit)
  plain  : List (Word × Word)
  /-- R167, N2: the packed register is left unwritten when this bit of the word read is already set. -/
  skipIf : Option Byte
  deriving DecidableEq, Repr

/-- R192: one entry of the host's log. -/
inductive LogEntry where
  /-- a failed attempt: register, whether the operation is a write, attempt number, cause -/
  | failedAttempt (reg : Word) (isWrite : Bool) (attempt : Nat) (cause : ErrorCause)
  /-- R206: an attempt during which PWFC was reset: register, whether the operation is a write, attempt number, and what
  the attempt had given by then: its error or its result (R192), none where it had given nothing -/
  | abandoned (reg : Word) (isWrite : Bool) (attempt : Nat) (seen : Result)
  /-- R163, R185: an accepted write response that echoes something else -/
  | echoMismatch (reg value : Word)
  /-- R166: a command whose read or write of a register failed -/
  | failedCommand (reg : Word) (isWrite : Bool)
  /-- R142, R144: a command that was turned away -/
  | turnedAway (c : Command)
  deriving DecidableEq, Repr

/-- What the host hands to the sink or to the caller of a command (R165, R166, R191). -/
inductive Report where
  | sample (values : List (String × Result))
  | pollFailed
  /-- R166: acknowledgment(reg, edits), the command whole -/
  | acknowledged (c : Command)
  | commandFailed (c : Command)
  deriving DecidableEq, Repr

/-- The host's own state (R13 (2), R15, R194). Times in milliseconds. -/
structure HostState where
  now      : Nat
  /-- start and end of every attempt made, newest first (R211) -/
  pairs    : List (Nat × Nat)
  nextTick : Nat
  phase    : Phase
  trail    : List Phase
  attempts : Nat
  log      : List LogEntry
  reports  : List Report
  deriving DecidableEq, Repr

/-- The state. The first eight fields are the block's (R16 to R20). -/
structure State where
  crc       : Word
  req       : Req
  rxb       : Vector Byte 256
  rxlen     : BitVec 9
  rxok      : Bool
  db        : Memory
  dbv       : BitVec 4
  status    : Status
  result    : Result
  tx        : List Byte
  pending   : List Transfer
  link      : Link
  ctrl      : Memory
  host      : HostState
  freeIndex : Nat
  deriving DecidableEq, Repr

/-- The one fault. -/
inductive Fault where
  /-- Raised by XWORD and FIELD when DBV says every segment is loaded and yet the addressed byte was never loaded
  (R27 "a model must fault or refuse such a read"). No state that satisfies `State.Inv` raises it. Safe. -/
  | unloadedDecodeByte
  deriving DecidableEq, Repr

/-- R186: the reasons of a refusal are closed. Every one is safe: the model has no next state where the spec gives
none. -/
inductive Refusal where
  /-- Raised by `exec` for an instruction that has no meaning yet. Safe. -/
  | notModelled (mnemonic : String)
  /-- Raised by `step` for an operation that is no instruction: R186 (a), R71, R62. Safe. -/
  | undecodable (why : DecodeReject)
  /-- Raised by SETBIT and CLRBIT: bit index above 15, R186 (b). Safe. -/
  | noSuchBit
  /-- Raised by LOADSEG: segment index above 3, R186 (c). Safe. -/
  | noSuchSegment
  /-- Raised by SCALE and FIELD: a negative factor, R186 (d). Safe. -/
  | negativeFactor
  /-- Raised by ACCEPT (and a response frame): no request outstanding, R186 (e). Safe. -/
  | noRequestOutstanding
  /-- Raised by ACCEPT (and a response frame): longer than FB_MAX, R186 (e). Safe. -/
  | responseTooLong
  /-- Raised by PARSE.RD, PARSE.RD1, LOADSEG: no accepted read response, R186 (f). Safe. -/
  | noAcceptedRead
  /-- Raised by PARSE.WR: no accepted write response, R186 (g). Safe. -/
  | noAcceptedWrite
  /-- Raised by LOADSEG: the request was not the one for this segment, R186 (h). Safe. -/
  | notThisSegment
  /-- Raised by XWORD and FIELD: DBV is not 0b1111, R186 (i). Safe. -/
  | decodeBufferIncomplete
  /-- Raised by XWORD and FIELD: address above 0x016E, R186 (i). Safe. -/
  | offsetOutOfRange
  deriving DecidableEq, Repr

/-- R27, R205: the state right after reset. The REQ fields and RXB, which R27 leaves unspecified, are zero
(log entry 6). -/
def State.reset : State where
  crc       := 0xFFFF
  req       := { valid := false, unit := 0, fn := 0, a := 0, b := 0 }
  rxb       := Vector.replicate 256 0
  rxlen     := 0
  rxok      := false
  db        := []
  dbv       := 0b0000
  status    := { err := 0, echo := false, warn := false }
  result    := .none
  tx        := []
  pending   := []
  link      := { connected := false, sent := [], answer := none, script := [] }
  ctrl      := []
  host      := { now := 0, pairs := [], nextTick := 0, phase := .idle, trail := [], attempts := 0,
                 log := [], reports := [] }
  freeIndex := 0

end Sys2Proof.Machine
end

