-- ==== Sys2Proof/Machine/Ops.lean ====
section
/-! DEFINITION. The shared operations: the outcome of a meaning, the two ways an operation ends (R180, R189), the byte
memory, the CRC and the frame (R86 to R88, R95), and the named updates of State. -/

namespace Sys2Proof.Machine

/-- What a meaning answers. -/
abbrev Out := Host.Outcome State Fault Refusal

/-- Go on with the value of a next outcome; a fault or a refusal ends there. -/
def andThen {α β : Type} (o : Host.Outcome α Fault Refusal) (f : α → Host.Outcome β Fault Refusal) :
    Host.Outcome β Fault Refusal :=
  match o with
  | .next a => f a
  | .fault r => .fault r
  | .refused r => .refused r

/-! ## Memory -/

/-- The byte at an address; none where nothing was written. -/
def Memory.read : Memory → Nat → Option Byte
  | [], _ => none
  | (x, c) :: rest, a => if a = x then some c else Memory.read rest a

/-- Write one byte, keeping the cells in rising order. -/
def Memory.write : Memory → Nat → Byte → Memory
  | [], a, b => [(a, b)]
  | (x, c) :: rest, a, b =>
    if a < x then (a, b) :: (x, c) :: rest
    else if a = x then (a, b) :: rest
    else (x, c) :: Memory.write rest a b

/-- Write consecutive bytes from an address. -/
def Memory.writeBytes (m : Memory) (a : Nat) : List Byte → Memory
  | [] => m
  | b :: bs => Memory.writeBytes (m.write a b) (a + 1) bs

/-- R37, R46: the word of register a, at bytes 2a (high) and 2a+1 (low). -/
def Memory.readWord (m : Memory) (a : Nat) : Option Word :=
  match m.read (2 * a), m.read (2 * a + 1) with
  | some h, some l => some (be16 h l)
  | _, _ => none

/-- R43: write a whole register. -/
def Memory.writeWord (m : Memory) (a : Nat) (w : Word) : Memory :=
  (m.write (2 * a) (hi8 w)).write (2 * a + 1) (lo8 w)

/-- The canonical form: addresses strictly rising (an unlisted address has no value, so no cell can equal it). -/
abbrev Memory.wf (m : Memory) : Prop := List.Pairwise (fun x y => x.1 < y.1) m

/-! ## CRC and frames -/

/-- R86: one of the eight shifts of a byte. -/
def crcShift (c : Word) : Word :=
  if c.getLsbD 0 then (c >>> 1) ^^^ crcPoly else c >>> 1

/-- R86: one byte enters the low 8 bits and is shifted through. -/
def crcByte (c : Word) (b : Byte) : Word := crcShift^[8] (c ^^^ b.setWidth 16)

/-- R86: the CRC of a byte string, from CRC_INIT, byte 0 first, no final xor. -/
def crc16 (d : List Byte) : Word := d.foldl crcByte crcInit

/-- R87: the two trailer bytes of a CRC, low byte first. -/
def trailer (c : Word) : List Byte := [lo8 c, hi8 c]

/-- R88: all but the last two bytes. -/
def frameBody (b : List Byte) : List Byte := b.take (b.length - 2)

/-- R88: the last two bytes. -/
def frameTrailer (b : List Byte) : List Byte := b.drop (b.length - 2)

/-- R88: at least 4 bytes, and the trailer is the CRC of the rest. -/
def validate (b : List Byte) : Bool :=
  decide (minFrame ≤ b.length) && (frameTrailer b == trailer (crc16 (frameBody b)))

/-- R95 `encode(unit, fn, payload)`. -/
def encodeFrame (unit fn : Byte) (payload : List Byte) : List Byte :=
  frameBytes unit fn payload (crc16 (unit :: fn :: payload))

/-! ## Named updates of State -/

/-- R92: leave a CRC in the accumulator. -/
def State.withCrc (s : State) (c : Word) : State := { s with crc := c }

/-- R96, R97: load the request latch and invalidate the response. -/
def State.openRequest (s : State) (r : Req) : State := { s with req := r, rxok := false, rxlen := 0 }

/-- R102: no request outstanding, no response; the other fields of the latch stay. -/
def State.closeRequest (s : State) : State :=
  { s with req := { s.req with valid := false }, rxok := false, rxlen := 0 }

/-- R98: invalidate the response. -/
def State.dropResponse (s : State) : State := { s with rxok := false, rxlen := 0 }

/-- R98: the bytes of b at the front of RXB, the rest of RXB as it was. -/
@[irreducible] def storeBytes (rxb : Vector Byte 256) (b : List Byte) : Vector Byte 256 :=
  Vector.ofFn fun i : Fin 256 => if h : i.val < b.length then b[i.val] else rxb[i]

/-- R98: keep an accepted response. -/
def State.keepResponse (s : State) (b : List Byte) : State :=
  { s with rxb := storeBytes s.rxb b, rxlen := BitVec.ofNat 9 b.length, rxok := true }

/-- R25 (3): put a frame on the transmit-frame interface. -/
def State.emit (s : State) (frame : List Byte) : State := { s with tx := frame }

/-- R116: no segment loaded, no byte of the decode buffer has a value. -/
def State.clearDecode (s : State) : State := { s with db := [], dbv := 0b0000 }

/-- R117: the data of segment k from register `start` on, and its valid bit. -/
def State.loadSegment (s : State) (k : Nat) (start : Word) (data : List Byte) : State :=
  { s with db := s.db.writeBytes (2 * start.toNat) data, dbv := s.dbv ||| (1#4 <<< k) }

/-- The transfers still to be executed. -/
def State.withPending (s : State) (p : List Transfer) : State := { s with pending := p }

/-- R25 (3), R13 (4): a frame goes on the wire, and what the controller made of it. -/
def State.transmitted (s : State) (frame : List Byte) (ctrl : Memory) (answer : Option (List Byte)) : State :=
  { s with link := { s.link with sent := s.link.sent ++ [frame], answer := answer }, ctrl := ctrl,
           freeIndex := s.freeIndex + 1 }

/-- R27, R205, R206: the reset event. The block and its interfaces take their reset values. What is outside the block,
the controller, the link and the host, and what the host still has to present, is not affected. -/
def State.resetEvent (s : State) : State :=
  { State.reset with pending := s.pending, link := s.link, ctrl := s.ctrl, host := s.host,
                     freeIndex := s.freeIndex }

/-- R25: the next transfer to execute, and the state without it; none when nothing is presented. -/
def fetch (s : State) : Option (Transfer × State) :=
  match s.pending with
  | [] => none
  | t :: rest => some (t, s.withPending rest)

end Sys2Proof.Machine
end

