-- ==== Sys2Proof/Machine/Flags.lean ====
section
/-! DEFINITION. STATUS (R20): the error codes of R181, and the two ways an operation ends in a next state: normally
(R180 (1)) and in an error (R180 (2), R189), the block's only "exception". There is no return from one (R190). -/

namespace Sys2Proof.Machine

/-- R181: the numeric codes. -/
def ErrorCause.code : ErrorCause → Byte
  | .transportConnect => 0x11
  | .transportTimeout => 0x12
  | .transportSocket => 0x13
  | .protocolShort => 0x21
  | .protocolCrc => 0x22
  | .protocolUnit => 0x23
  | .protocolFn => 0x24
  | .decodeShort => 0x31
  | .decodeCount => 0x32
  | .decodeLen1 => 0x33
  | .decodeSegLen => 0x34

/-- R20, R25 (2): the code goes to STATUS.ERR and the result to the result interface. -/
def State.ended (s : State) (code : Byte) (r : Result) : State :=
  { s with status := { s.status with err := code }, result := r }

/-- R20, R101: PARSE.WR's ECHO and its complement WARN. -/
def State.withEcho (s : State) (echo : Bool) : State :=
  { s with status := { s.status with echo := echo, warn := !echo } }

/-- R180 (1): a normal end. -/
def finish (r : Result) (s : State) : Out := .next (s.ended 0x00 r)

/-- R180 (2), R189: an error. Nothing is saved and nothing vectors: STATUS.ERR gets the code. -/
def raiseError (e : ErrorCause) (s : State) : Out := .next (s.ended e.code (.error e))

end Sys2Proof.Machine
end

