-- ==== Sys2Proof/Machine/Operands.lean ====
section
/-! DEFINITION. What the operations read: the accepted response (R18, R67, R99), the segments (R45), the decode buffer
(R118 to R120), bits of an optional word (R127), and the number steps (R121 to R132). -/

namespace Sys2Proof.Machine

/-! ## The accepted response -/

/-- R18: the meaningful bytes of RXB. -/
def State.rxBytes (s : State) : List Byte := s.rxb.toList.take s.rxlen.toNat

/-- R99: whether an accepted response to a request with this function code is there. -/
def State.hasResponse (s : State) (fn : Byte) : Bool := s.rxok && (s.req.fn == fn)

/-- What reading the data of an accepted read response gives: a refusal, an error, or the data. -/
inductive ReadData where
  | refused (r : Refusal)
  | error (e : ErrorCause)
  | data (d : List Byte)
  deriving DecidableEq, Repr

/-- R99 `parse_rd`: refusal first, then SHORT, then COUNT (R188). -/
def readData (s : State) : ReadData :=
  if s.hasResponse fnRead = false then .refused .noAcceptedRead
  else if s.rxlen.toNat < 5 then .error .decodeShort
  else if (s.rxb[2]).toNat ≠ s.rxlen.toNat - 5 then .error .decodeCount
  else .data ((s.rxb.toList.drop 3).take (s.rxb[2]).toNat)

/-- R100: the value of a one- or two-byte data field. -/
def wordOfData : List Byte → Option Word
  | [h, l] => some (be16 h l)
  | [b] => some (b.setWidth 16)
  | _ => none

/-- R101: whether the accepted write response echoes the register and the value. -/
def echoMatches (s : State) : Bool :=
  (s.rxlen == 8) && (be16 s.rxb[2] s.rxb[3] == s.req.a) && (be16 s.rxb[4] s.rxb[5] == s.req.b)

/-! ## The decode buffer -/

/-- R45, R117: the start and count of segment k. -/
def segmentOf (k : Byte) : Option (Word × Word) := segments[k.toNat]?

/-- R119: whether XWORD a is refused, faults, or gives a word. -/
def decodeWord (s : State) (a : Word) : Host.Outcome Word Fault Refusal :=
  if s.dbv ≠ 0xF#4 then .refused .decodeBufferIncomplete
  else if 0x016E < a.toNat then .refused .offsetOutOfRange
  else match s.db.readWord a.toNat with
    | some w => .next w
    | none => .fault .unloadedDecodeByte

/-- R118: the value of a hex digit, either case. -/
def hexDigit? (c : Char) : Option Nat :=
  if '0' ≤ c ∧ c ≤ '9' then some (c.toNat - 48)
  else if 'a' ≤ c ∧ c ≤ 'f' then some (c.toNat - 87)
  else if 'A' ≤ c ∧ c ≤ 'F' then some (c.toNat - 55)
  else none

/-- The hex digit of a number below 16. DESIGN CHOICE: lower case, which R118 leaves open (N14, log entry 28). -/
def hexDigit (n : Nat) : Char := if n < 10 then Char.ofNat (48 + n) else Char.ofNat (87 + n)

/-- R118: a byte string as hex, two characters per byte, high nibble first. -/
def hexOf (p : List Byte) : List Char := p.flatMap fun b => [hexDigit (b.toNat / 16), hexDigit (b.toNat % 16)]

/-- R118 `xword_hex(h, a)`: the four characters at index 4a, in base 16; none where the string is too short. -/
def xwordHex (h : List Char) (a : Nat) : Option Nat :=
  match h.drop (4 * a) with
  | c3 :: c2 :: c1 :: c0 :: _ =>
    match hexDigit? c3, hexDigit? c2, hexDigit? c1, hexDigit? c0 with
    | some d3, some d2, some d1, some d0 => some (4096 * d3 + 256 * d2 + 16 * d1 + d0)
    | _, _, _, _ => none
  | _ => none

/-- R118 `xword_bytes(p, a)`: the two bytes at index 2a, high byte first; none where the string is too short. -/
def xwordBytes (p : List Byte) (a : Nat) : Option Word :=
  match p.drop (2 * a) with
  | h :: l :: _ => some (be16 h l)
  | _ => none

/-- R120: the hex view of the decode buffer, the digits of DB[0] to DB[366]; none while a word has no value. -/
def hexView (s : State) : Option (List Char) :=
  ((List.range dbRegs).mapM fun a => s.db.readWord a).map fun ws => hexOf (ws.flatMap fun w => [hi8 w, lo8 w])

/-! ## Bits -/

/-- R127 `getbit(w, i)`: bit i of a word; 0 for the absent word and for an index above 15. -/
def getBit (w : Option Word) (i : Byte) : Bool :=
  match w with
  | none => false
  | some v => v.getLsbD i.toNat

/-- R140 `setbit(w, i)`. -/
def setBit (w : Word) (i : Byte) : Word := w ||| (1#16 <<< i.toNat)

/-- R141 `clrbit(w, i)`. -/
def clrBit (w : Word) (i : Byte) : Word := w &&& ~~~(1#16 <<< i.toNat)

/-! ## Numbers -/

/-- R123 `round1`: the nearest tenth; at a tie either neighbour, by the free tie rule. -/
def round1 (x : Rat) : Rat :=
  let n := ⌊10 * x⌋
  let d := 10 * x - n
  if d < 1 / 2 then n / 10
  else if 1 / 2 < d then (n + 1) / 10
  else if Config.roundTieUp x then (n + 1) / 10
  else n / 10

/-- R121 `scale(raw, f)` for a factor that is not negative: the integer itself for 0, else the rounded exact product. -/
def scaleNum (raw : Word) (f : Rat) : Number :=
  if f = 0 then ⟨(raw.toNat : Rat), .integer⟩ else ⟨round1 ((raw.toNat : Rat) * f), .oneDecimal⟩

/-- R125, R130: subtract 65535 from a number strictly above a threshold. -/
def wrapAbove (threshold : Rat) (v : Number) : Number :=
  if threshold < v.val then ⟨v.val - subtrahend, v.form⟩ else v

/-- R131, R132: un-scale, wrap above 65000, re-scale and round. -/
def rewrap (unscale rescale : Rat) (v : Number) : Number :=
  if tSentField < v.val * unscale then ⟨round1 ((v.val * unscale - subtrahend) * rescale), .oneDecimal⟩ else v

end Sys2Proof.Machine
end

