-- ==== Sys2Proof/Machine/CrcUnit.lean ====
section
/-! DEFINITION. The CRC unit (40_crc.md): CRC16, VALIDATE. -/

namespace Sys2Proof.Machine

/-- CRC16 d (R86). -/
def execCrc16 (d : List Byte) (s : State) : Out := finish (.word (crc16 d)) (s.withCrc (crc16 d))

/-- VALIDATE b (R88): a false result is a value; the accumulator is unchanged below 4 bytes. -/
def execValidate (b : List Byte) (s : State) : Out :=
  finish (.bool (validate b)) (if b.length < minFrame then s else s.withCrc (crc16 (frameBody b)))

end Sys2Proof.Machine
end

