-- ==== Sys2Proof/Machine/Decoder.lean ====
section
/-! DEFINITION. The decoder (42_decoder.md): DBCLR, LOADSEG, XWORD, SCALE, WRAP, GETBIT, FIELD, WRAP65K, AMBFIX,
LPFIX. -/

namespace Sys2Proof.Machine

/-- DBCLR (R116). -/
def execDbclr (s : State) : Out := finish .none s.clearDecode

/-- LOADSEG k (R117): on any error or refusal nothing of DB or DBV is written. -/
def execLoadseg (k : Byte) (s : State) : Out :=
  match segmentOf k with
  | none => .refused .noSuchSegment
  | some (start, count) =>
    if s.hasResponse fnRead = false then .refused .noAcceptedRead
    else if s.req.a ≠ start ∨ s.req.b ≠ count then .refused .notThisSegment
    else match readData s with
      | .refused r => .refused r
      | .error e => raiseError e s
      | .data d =>
        if d.length ≠ 2 * count.toNat then raiseError .decodeSegLen s
        else finish .none (s.loadSegment k.toNat start d)

/-- XWORD a (R119). -/
def execXword (a : Word) (s : State) : Out := andThen (decodeWord s a) fun w => finish (.word w) s

/-- R121: SCALE's value, or the refusal of a negative factor. -/
def scaleOrRefuse (raw : Word) (f : Rat) : Host.Outcome Number Fault Refusal :=
  if f < 0 then .refused .negativeFactor else .next (scaleNum raw f)

/-- SCALE raw, f (R121). -/
def execScale (raw : Word) (f : Rat) (s : State) : Out := andThen (scaleOrRefuse raw f) fun v => finish (.num v) s

/-- WRAP v (R125): strictly above 65280. -/
def execWrap (v : Number) (s : State) : Out := finish (.num (wrapAbove tSent v)) s

/-- GETBIT w, i (R127). -/
def execGetbit (w : Option Word) (i : Byte) (s : State) : Out := finish (.bit (getBit w i)) s

/-- FIELD a, f (R128): extract, then scale, then wrap (R115). -/
def execField (a : Word) (f : Rat) (s : State) : Out :=
  andThen (decodeWord s a) fun raw =>
    andThen (scaleOrRefuse raw f) fun v => finish (.num (wrapAbove tSent v)) s

/-- WRAP65K v (R130): strictly above 65000. -/
def execWrap65k (v : Number) (s : State) : Out := finish (.num (wrapAbove tSentField v)) s

/-- AMBFIX v (R131). -/
def execAmbfix (v : Number) (s : State) : Out := finish (.num (rewrap 2 (1 / 2) v)) s

/-- LPFIX v (R132). -/
def execLpfix (v : Number) (s : State) : Out := finish (.num (rewrap 10 (1 / 10) v)) s

end Sys2Proof.Machine
end

