-- ==== Sys2Proof/Machine/Derived.lean ====
section
/-! DEFINITION. The derived-value functions (44_derived.md): FMODE, PUMPON, ANTIFRZ, ERRINT. -/

namespace Sys2Proof.Machine

/-- R151: the number of a frequency mode. -/
def FreqMode.number : FreqMode → Nat
  | .smart => 10
  | .powerful => 20
  | .silent => 30
  | .holiday => 40

/-- R151 `fmode`: three independent tests, each later one overriding. -/
def freqMode (w40 w41 : Option Word) : FreqMode :=
  let m := FreqMode.smart
  let m := if getBit w40 4 then FreqMode.powerful else m
  let m := if getBit w40 5 then FreqMode.silent else m
  if getBit w41 1 then FreqMode.holiday else m

/-- R156 `CAT[n]`: the known bits of fault register n in ascending order of bit index, which is the check order. -/
def catalogue (n : Nat) : List Config.CatEntry :=
  (List.finRange 16).filterMap fun b =>
    (Config.catEntry n b).map fun (sev, text) => { bit := b, sev := sev, text := text }

/-- R156: the severity level of a catalogue entry. -/
def severityLevel : Config.Severity → Nat
  | .antiFreezeNotice => 2
  | .hardwareFault => 4

/-- R157: what a non-zero fault register n says: its first known bit in list order, or level 3 and the unknown text. -/
def faultText (cat : Nat → List Config.CatEntry) (unknown : Nat → String) (n : Nat) (w : Word) : Nat × String :=
  match (cat n).find? (fun e => getBit (some w) (BitVec.ofNat 8 e.bit.val)) with
  | some e => (severityLevel e.sev, e.text)
  | none => (3, unknown n)

/-- R157: the loop over the fault registers from number n on; each non-zero register overwrites. -/
def errorLoop (cat : Nat → List Config.CatEntry) (unknown : Nat → String) :
    Nat → List Word → Nat × String → Nat × String
  | _, [], acc => acc
  | n, w :: ws, acc =>
    errorLoop cat unknown (n + 1) ws (if w = 0 then acc else faultText cat unknown n w)

/-- R157 `errint(f[1..7])` for a catalogue and its texts. -/
def interpretErrors (cat : Nat → List Config.CatEntry) (unknown : Nat → String) (noErr : String) (fs : List Word) :
    Nat × String :=
  errorLoop cat unknown 1 fs (0, noErr)

/-- FMODE w40, w41 (R151). -/
def execFmode (w40 w41 : Option Word) (s : State) : Out := finish (.mode (freqMode w40 w41)) s

/-- PUMPON speed (R152). -/
def execPumpon (speed : Number) (s : State) : Out := finish (.bool (decide (0 < speed.val))) s

/-- ANTIFRZ crank, sec, lvl1 (R153): the forcing term only. -/
def execAntifrz (crank sec lvl1 : Bool) (s : State) : Out := finish (.bool (crank || sec || lvl1)) s

/-- ERRINT f1, ..., f7 (R157), with the catalogue parameters of R156. -/
def execErrint (f1 f2 f3 f4 f5 f6 f7 : Word) (s : State) : Out :=
  let r := interpretErrors catalogue Config.unknownText Config.noErrText [f1, f2, f3, f4, f5, f6, f7]
  finish (.severity r.1 r.2) s

end Sys2Proof.Machine
end

