-- ==== Sys2Proof/Machine/FlagUnit.lean ====
section
/-! DEFINITION. The flag unit (43_flags.md): SETBIT, CLRBIT. -/

namespace Sys2Proof.Machine

/-- R140, R141: a bit index above 15 is refused. -/
def withBit (i : Byte) (r : Result) (s : State) : Out :=
  if 15 < i.toNat then .refused .noSuchBit else finish r s

/-- SETBIT w, i (R140). -/
def execSetbit (w : Word) (i : Byte) (s : State) : Out := withBit i (.word (setBit w i)) s

/-- CLRBIT w, i (R141). -/
def execClrbit (w : Word) (i : Byte) (s : State) : Out := withBit i (.word (clrBit w i)) s

end Sys2Proof.Machine
end

