-- ==== Sys2Proof/Machine/Framer.lean ====
section
/-! DEFINITION. The framer (41_framer.md): ENCODE, ENC.RD, ENC.WR, ACCEPT, PARSE.RD, PARSE.RD1, PARSE.WR, CLRREQ. -/

namespace Sys2Proof.Machine

/-- R95, R92: serialise a frame, its CRC left in the accumulator, the frame on the transmit-frame interface. -/
def serialise (unit fn : Byte) (payload : List Byte) (s : State) : Out :=
  finish (.bytes (encodeFrame unit fn payload))
    ((s.withCrc (crc16 (unit :: fn :: payload))).emit (encodeFrame unit fn payload))

/-- ENCODE unit, fn, payload (R95): REQ and RXOK are not touched. -/
def execEncode (unit fn : Byte) (payload : List Byte) (s : State) : Out := serialise unit fn payload s

/-- ENC.RD unit, start, count (R96). -/
def execEncRd (unit : Byte) (start count : Word) (s : State) : Out :=
  serialise unit fnRead (payload16 start count)
    (s.openRequest { valid := true, unit := unit, fn := fnRead, a := start, b := count })

/-- ENC.WR unit, reg, value (R97). -/
def execEncWr (unit : Byte) (reg value : Word) (s : State) : Out :=
  serialise unit fnWrite (payload16 reg value)
    (s.openRequest { valid := true, unit := unit, fn := fnWrite, a := reg, b := value })

/-- R98: the four tests of ACCEPT in their order (R188); none where the response passes. -/
def acceptError (r : Req) (b : List Byte) : Option ErrorCause :=
  if b.length < minFrame then some .protocolShort
  else if validate b = false then some .protocolCrc
  else if b[0]? ≠ some r.unit then some .protocolUnit
  else if b[1]? ≠ some r.fn then some .protocolFn
  else none

/-- R98, R92: what ACCEPT has done before its verdict: the response dropped, the CRC recomputed over the body of a
buffer of 4 bytes or more. -/
def State.judging (s : State) (b : List Byte) : State :=
  if b.length < minFrame then s.dropResponse else s.dropResponse.withCrc (crc16 (frameBody b))

/-- R98: accept or reject the bytes of a response. -/
def acceptBytes (b : List Byte) (s : State) : Out :=
  if s.req.valid = false then .refused .noRequestOutstanding
  else if fbMax < b.length then .refused .responseTooLong
  else match acceptError s.req b with
    | some e => raiseError e (s.judging b)
    | none => finish .ok ((s.judging b).keepResponse b)

/-- ACCEPT b (R98). -/
def execAccept (b : List Byte) (s : State) : Out := acceptBytes b s

/-- PARSE.RD (R99). -/
def execParseRd (s : State) : Out :=
  match readData s with
  | .refused r => .refused r
  | .error e => raiseError e s
  | .data d => finish (.bytes d) s

/-- PARSE.RD1 (R100). -/
def execParseRd1 (s : State) : Out :=
  match readData s with
  | .refused r => .refused r
  | .error e => raiseError e s
  | .data d =>
    match wordOfData d with
    | some w => finish (.word w) s
    | none => raiseError .decodeLen1 s

/-- PARSE.WR (R101): a false echo is a warning, not an error. -/
def execParseWr (s : State) : Out :=
  if s.hasResponse fnWrite = false then .refused .noAcceptedWrite
  else finish (.bool (echoMatches s)) (s.withEcho (echoMatches s))

/-- CLRREQ (R102). -/
def execClrreq (s : State) : Out := finish .none s.closeRequest

end Sys2Proof.Machine
end

