-- ==== Sys2Proof/Machine/Frames.lean ====
section
/-! DEFINITION. The four wire frames (R61). A request frame on the transmit-frame interface goes on the wire unchanged
(R25 (3)) and reaches the controller (R13 (4)). A response frame on the receive-frame interface is the operand of
ACCEPT (R25 (4)). -/

namespace Sys2Proof.Machine

/-- R13 (4), U10: the controller's registers after changes of its own. -/
def drift (m : Memory) : List (Word × Word) → Memory
  | [] => m
  | (a, w) :: rest => drift (m.writeWord a.toNat w) rest

/-- What the controller holds in a register: the content known to the model, else an oracle (R26). -/
def controllerHolds (i : Nat) (m : Memory) (a : Nat) : Word := (m.readWord a).getD (Config.controllerWord i a)

/-- R37: the data of a run of registers, high byte first. DESIGN CHOICE: all of them sampled at one instant, after the
controller's changes of its own (N8 leaves it open, log entry 13). -/
def registerData (i : Nat) (m : Memory) (start : Nat) : Nat → List Byte
  | 0 => []
  | n + 1 => hi8 (controllerHolds i m start) :: lo8 (controllerHolds i m start) :: registerData i m (start + 1) n

/-- R64, R38, U13: the controller's answer to a read request. No well-formed answer exists for more than 127 registers
(R42). A read of one register may be answered with one byte. -/
def readAnswer (i : Nat) (m : Memory) (unit : Byte) (start count : Word) : Option (List Byte) :=
  if 127 < count.toNat then none
  else
    let data := registerData i m start.toNat count.toNat
    let data := if count = 1 then
        match Config.controllerShortByte i with
        | some b => [b]
        | none => data
      else data
    some (encodeFrame unit fnRead (readPayload data))

/-- R66: the controller's answer to a write request, an echo. -/
def writeAnswer (unit : Byte) (reg value : Word) : Option (List Byte) :=
  some (encodeFrame unit fnWrite (payload16 reg value))

/-- A request on the wire: the frame is sent unchanged, the controller's registers may have changed on their own, and
the controller serves the request or does not, and may answer otherwise than served (all free, log entry 12). -/
def sendRequest (frame : List Byte) (after : Memory → Memory) (answer : Memory → Option (List Byte)) (s : State) :
    Out :=
  let m := drift s.ctrl (Config.controllerDrift s.freeIndex)
  let odd := Config.controllerOddAnswer s.freeIndex
  if Config.controllerServes s.freeIndex then .next (s.transmitted frame (after m) (odd.or (answer m)))
  else .next (s.transmitted frame m odd)

/-- R25 (3), R69: a frame of neither request format goes on the link unchanged. What the controller makes of it is
free: its changes, before and after, and its answer (log entry 25). -/
def carryFrame (frame : List Byte) (s : State) : Out :=
  .next (s.transmitted frame (drift s.ctrl (Config.controllerDrift s.freeIndex))
    (Config.controllerOddAnswer s.freeIndex))

/-- RDREQ (R63): a read changes no register (R44). -/
def execRdreq (unit : Byte) (start count crc : Word) (s : State) : Out :=
  sendRequest (frameBytes unit fnRead (payload16 start count) crc) (fun m => m)
    (fun m => readAnswer s.freeIndex m unit start count) s

/-- WRREQ (R65): a served write sets the whole register (R43, R163). -/
def execWrreq (unit : Byte) (reg value crc : Word) (s : State) : Out :=
  sendRequest (frameBytes unit fnWrite (payload16 reg value) crc) (fun m => m.writeWord reg.toNat value)
    (fun _ => writeAnswer unit reg value) s

/-- RDRSP (R64): the frame, whole, is the operand of ACCEPT. -/
def execRdrsp (unit : Byte) (data : List Byte) (crc : Word) (s : State) : Out :=
  acceptBytes (frameBytes unit fnRead (readPayload data) crc) s

/-- WRRSP (R66): the frame, whole, is the operand of ACCEPT. -/
def execWrrsp (unit : Byte) (reg value crc : Word) (s : State) : Out :=
  acceptBytes (frameBytes unit fnWrite (payload16 reg value) crc) s

end Sys2Proof.Machine
end

