-- ==== Sys2Proof/Machine/Dispatch.lean ====
section
/-! DEFINITION. The dispatch: one arm per row of the opcode table. -/

namespace Sys2Proof.Machine

def exec (i : Instr) (s : State) : Host.Outcome State Fault Refusal :=
  match i with
  | .crc16 d => Sys2Proof.Machine.execCrc16 d s
  | .validate b => Sys2Proof.Machine.execValidate b s
  | .encode unit fn payload => Sys2Proof.Machine.execEncode unit fn payload s
  | .encRd unit start count => Sys2Proof.Machine.execEncRd unit start count s
  | .encWr unit reg value => Sys2Proof.Machine.execEncWr unit reg value s
  | .accept b => Sys2Proof.Machine.execAccept b s
  | .parseRd => Sys2Proof.Machine.execParseRd s
  | .parseRd1 => Sys2Proof.Machine.execParseRd1 s
  | .parseWr => Sys2Proof.Machine.execParseWr s
  | .clrreq => Sys2Proof.Machine.execClrreq s
  | .dbclr => Sys2Proof.Machine.execDbclr s
  | .loadseg k => Sys2Proof.Machine.execLoadseg k s
  | .xword a => Sys2Proof.Machine.execXword a s
  | .scale raw f => Sys2Proof.Machine.execScale raw f s
  | .wrap v => Sys2Proof.Machine.execWrap v s
  | .getbit w n => Sys2Proof.Machine.execGetbit w n s
  | .field a f => Sys2Proof.Machine.execField a f s
  | .wrap65k v => Sys2Proof.Machine.execWrap65k v s
  | .ambfix v => Sys2Proof.Machine.execAmbfix v s
  | .lpfix v => Sys2Proof.Machine.execLpfix v s
  | .setbit w n => Sys2Proof.Machine.execSetbit w n s
  | .clrbit w n => Sys2Proof.Machine.execClrbit w n s
  | .fmode w40 w41 => Sys2Proof.Machine.execFmode w40 w41 s
  | .pumpon speed => Sys2Proof.Machine.execPumpon speed s
  | .antifrz crank sec lvl1 => Sys2Proof.Machine.execAntifrz crank sec lvl1 s
  | .errint f1 f2 f3 f4 f5 f6 f7 => Sys2Proof.Machine.execErrint f1 f2 f3 f4 f5 f6 f7 s
  | .rdreq unit start count crc => Sys2Proof.Machine.execRdreq unit start count crc s
  | .rdrsp unit data crc => Sys2Proof.Machine.execRdrsp unit data crc s
  | .wrreq unit reg value crc => Sys2Proof.Machine.execWrreq unit reg value crc s
  | .wrrsp unit reg value crc => Sys2Proof.Machine.execWrrsp unit reg value crc s

end Sys2Proof.Machine
end

