-- ==== Sys2Proof/Machine/Perform.lean ====
section
/-! DEFINITION. One transfer, whoever presents it: decode it and execute it (R25). -/

namespace Sys2Proof.Machine

/-- A transfer that is no instruction: a frame for the link is carried (R25 (3)); an operation is refused (R71). -/
def performOther (t : Transfer) (why : DecodeReject) (s : State) : Out :=
  match t with
  | .transmit frame => carryFrame frame s
  | .operation _ _ => .refused (.undecodable why)
  | .receive _ => .refused (.undecodable why)

/-- Decode a transfer and execute it. -/
def perform (t : Transfer) (s : State) : Out :=
  match decode t with
  | .ok i => exec i s
  | .error why => performOther t why s

end Sys2Proof.Machine
end

