-- ==== Sys2Proof/Machine/Step.lean ====
section
/-! DEFINITION. One step: the next presented transfer is decoded and executed (R25). With nothing presented the block
keeps its state (R195). -/

namespace Sys2Proof.Machine

/-- One step of the machine. -/
def step (s : State) : Host.Outcome State Fault Refusal :=
  match fetch s with
  | none => .next s
  | some (t, s') => perform t s'

/-- The state with the instruction of an opcode-table row presented as the next transfer (log entries 1, 4, 5). -/
def State.withFetchWord (s : State) (nbits w : Nat) : State := s.withPending (tableTransfer nbits w :: s.pending)

end Sys2Proof.Machine
end

