-- ==== Sys2Proof/Machine/Transactions.lean ====
section
/-! DEFINITION. The host's transactions (45_transactions.md R160 to R164): attempts, the attempt budget, RDSINGLE,
RDRANGE, WRSINGLE. Pseudo-operations of the host (R74), built from the operations and the link's events. -/

namespace Sys2Proof.Machine

open Sys2Proof.Config (HostParams)

/-- What a host function answers: a value and the state after it; a refused operation ends it (R186, R191). -/
abbrev HostOut (α : Type) := Host.Outcome (α × State) Fault Refusal

/-- How one attempt ends (R160; R206 for a reset of PWFC during it). -/
inductive Verdict where
  | success (r : Result)
  | failure (e : ErrorCause)
  /-- what the attempt had given before the reset: its error or its result, none where it had given nothing -/
  | abandoned (seen : Result)
  deriving DecidableEq, Repr

/-- How a transaction ends (R164): its result, or "read/write failed". -/
inductive TxnResult where
  | success (r : Result)
  | failed
  deriving DecidableEq, Repr

/-! ## Named updates of the host and the link -/

/-- The state with another host state. -/
def State.withHost (s : State) (h : HostState) : State := { s with host := h }

/-- The state with another link state. -/
def State.withLink (s : State) (l : Link) : State := { s with link := l }

/-- R192: an entry in the host's log, newest last. -/
def State.logged (s : State) (e : LogEntry) : State := s.withHost { s.host with log := s.host.log ++ [e] }

/-- A report to the sink or to the caller, newest last. -/
def State.reported (s : State) (r : Report) : State := s.withHost { s.host with reports := s.host.reports ++ [r] }

/-- R165, R166: enter a phase. -/
def State.enter (s : State) (p : Phase) : State :=
  s.withHost { s.host with phase := p, trail := s.host.trail ++ [p] }

/-- R164, R194: the attempt counter. -/
def State.setAttempts (s : State) (n : Nat) : State := s.withHost { s.host with attempts := n }

/-! ## One attempt -/

/-- R211: when the next connection may be opened: T_GAP after the end of the previous attempt, and not before now. -/
def gapTime (p : HostParams) (h : HostState) : Nat :=
  match h.pairs with
  | [] => h.now
  | (_, ended) :: _ => max h.now (ended + p.tGap)

/-- R211: wait until the gap rule holds. DESIGN CHOICE (log entry 30): and no longer; R211 gives no upper bound. -/
def State.waitGap (s : State) (p : HostParams) : State := s.withHost { s.host with now := gapTime p s.host }

/-- What the link does next (R26): the first event of the script; with no event left nothing is delivered. -/
def State.nextEvent (s : State) : LinkEvent × State :=
  match s.link.script with
  | [] => ({ fate := .silence, elapsed := 0, reset := none }, s)
  | e :: rest => (e, s.withLink { s.link with script := rest })

/-- R215: a connection is open. -/
def State.connect (s : State) : State := s.withLink { s.link with connected := true }

/-- R160, R215: the attempt is over, its connection closed; it took at most T_TIMEOUT. -/
def State.endAttempt (s : State) (p : HostParams) (elapsed : Nat) : State :=
  let ended := s.host.now + min elapsed p.tTimeout
  (s.withLink { s.link with connected := false }).withHost
    { s.host with now := ended, pairs := (s.host.now, ended) :: s.host.pairs }

/-- R160: send a frame, all bytes, on the open connection. -/
def sendFrame (frame : List Byte) (s : State) : Out := perform (.transmit frame) s

/-- R160: what an attempt has given. -/
def Verdict.given : Verdict → Result
  | .success r => r
  | .failure e => .error e
  | .abandoned seen => seen

/-- R206: PWFC is reset, and the host gives the transaction up. -/
def abandon (seen : Result) (s : State) : HostOut Verdict := .next (.abandoned seen, s.resetEvent)

/-- R160: the result of an operation of an attempt, or its error. -/
def verdictOf (s : State) : HostOut Verdict :=
  match s.result with
  | .error e => .next (.failure e, s)
  | r => .next (.success r, s)

/-- R160: ACCEPT the delivered bytes, then the parse step; a reset may come between the two. -/
def judge (b : List Byte) (parse : Instr) (reset : Option ResetPoint) (s : State) : HostOut Verdict :=
  andThen (exec (.accept b) s) fun s =>
    match s.result with
    | .error e => .next (.failure e, s)
    | _ => if reset = some .accepted then abandon .none s else andThen (exec parse s) verdictOf

/-- R160: an attempt that fails on the link, at its time or at T_TIMEOUT. -/
def linkFails (p : HostParams) (cause : ErrorCause) (elapsed : Nat) (s : State) : HostOut Verdict :=
  .next (.failure cause, s.endAttempt p elapsed)

/-- R160, R181: what does not come within T_TIMEOUT, a socket failure too, does not come: the attempt times out. -/
def inTime (p : HostParams) (e : LinkEvent) (respond : State → HostOut Verdict) (s : State) : HostOut Verdict :=
  if p.tTimeout < e.elapsed then linkFails p .transportTimeout p.tTimeout s else respond s

/-- R160, R182: the end of an attempt with the bytes that the link delivers, if any. -/
def receive (p : HostParams) (e : LinkEvent) (delivered : Option (List Byte)) (parse : Instr) (s : State) :
    HostOut Verdict :=
  match delivered with
  | none => linkFails p .transportTimeout p.tTimeout s
  | some b => inTime p e (fun s => judge b parse e.reset (s.endAttempt p e.elapsed)) s

/-- R160: what follows once the frame is sent. -/
def respond (p : HostParams) (e : LinkEvent) (parse : Instr) (s : State) : HostOut Verdict :=
  match e.fate with
  | .noConnect => linkFails p .transportConnect e.elapsed s
  | .socketFailure _ => inTime p e (linkFails p .transportSocket e.elapsed) s
  | .silence => receive p e none parse s
  | .delivers b => receive p e (some b) parse s
  | .faithful => receive p e s.link.answer parse s

/-- Whether the frame is sent in an attempt with this fate. -/
def LinkFate.sends : LinkFate → Bool
  | .noConnect => false
  | .socketFailure afterSend => afterSend
  | .silence => true
  | .delivers _ => true
  | .faithful => true

/-- R160, R215: what follows once the gap is over: open the connection, send, respond. DESIGN CHOICE (log entry 26): a
reset before the response ends the attempt at the event's time, or at T_TIMEOUT if that is sooner. -/
def exchange (p : HostParams) (e : LinkEvent) (frame : List Byte) (parse : Instr) (s : State) : HostOut Verdict :=
  if e.reset = some .opening then abandon .none (s.endAttempt p e.elapsed)
  else if e.fate.sends = false then respond p e parse s
  else
    andThen (sendFrame frame s.connect) fun s =>
      if e.reset = some .awaiting then abandon .none (s.endAttempt p e.elapsed) else respond p e parse s

/-- R160 `attempt(F, P)`, with a reset of PWFC where the event has one (R206). What the attempt has given by then is
kept for the log (R192). DESIGN CHOICE (log entry 26): a reset in the wait for the gap takes effect at the end of the
whole wait, and the event's time is not used; the spec does not say when the abandoned transaction ends. -/
def attempt (p : HostParams) (frame : List Byte) (parse : Instr) (s : State) : HostOut Verdict :=
  let (e, s) := (s.waitGap p).nextEvent
  if e.reset = some .waiting then abandon .none s
  else
    andThen (exchange p e frame parse s) fun (v, s) =>
      if e.reset = some .ended then abandon v.given s else .next (v, s)

/-! ## The attempt budget -/

/-- R164: the attempts left, the same frame each time; CLRREQ at the end either way. A reset of PWFC abandons the
transaction: ACCEPT would be refused, so there is no further attempt (R206). -/
def tries (p : HostParams) (frame : List Byte) (parse : Instr) (reg : Word) (isWrite : Bool) :
    Nat → State → HostOut TxnResult
  | 0, s => andThen (exec .clrreq s) fun s => .next (.failed, s)
  | n + 1, s =>
    andThen (attempt p frame parse (s.setAttempts (s.host.attempts + 1))) fun (v, s) =>
      match v with
      | .success r => andThen (exec .clrreq s) fun s => .next (.success r, s)
      | .failure e => tries p frame parse reg isWrite n (s.logged (.failedAttempt reg isWrite s.host.attempts e))
      | .abandoned seen =>
        andThen (exec .clrreq (s.logged (.abandoned reg isWrite s.host.attempts seen))) fun s => .next (.failed, s)

/-- R164 `transaction(F, P)`, for the frame that a request operation has put on the transmit-frame interface. -/
def transaction (p : HostParams) (request parse : Instr) (reg : Word) (isWrite : Bool) (s : State) :
    HostOut TxnResult :=
  andThen (exec request s) fun s => tries p s.tx parse reg isWrite maxAttempts (s.setAttempts 0)

/-- R161 RDSINGLE unit, reg. -/
def rdSingle (p : HostParams) (unit : Byte) (reg : Word) (s : State) : HostOut TxnResult :=
  transaction p (.encRd unit reg 0x0001) .parseRd1 reg false s

/-- R162 RDRANGE unit, start, count. -/
def rdRange (p : HostParams) (unit : Byte) (start count : Word) (s : State) : HostOut TxnResult :=
  transaction p (.encRd unit start count) .parseRd start false s

/-- R163 WRSINGLE unit, reg, value: a false echo is a success that is logged. -/
def wrSingle (p : HostParams) (unit : Byte) (reg value : Word) (s : State) : HostOut TxnResult :=
  andThen (transaction p (.encWr unit reg value) .parseWr reg true s) fun (r, s) =>
    if r = .success (.bool false) then .next (r, s.logged (.echoMismatch reg value)) else .next (r, s)

end Sys2Proof.Machine
end

