-- ==== Sys2Proof/Machine/Orchestrator.lean ====
section
/-! DEFINITION. The host's two state machines (R165 POLL, R166 CMD.RMW, R167 Heating) and the run of the events that
reach the host (R187), served one whole cycle at a time (R212, D29). -/

namespace Sys2Proof.Machine

open Sys2Proof.Config (HostParams FieldSpec)

/-- Run one operation and take its result. -/
def run (i : Instr) (s : State) : HostOut Result := andThen (exec i s) fun t => .next (t.result, t)

/-! ## Decoding a field -/

/-- FIELD, then an operation on the decoded number (R130 to R132, R152). -/
def onField (a : Word) (f : Rat) (next : Number → Instr) (s : State) : HostOut Result :=
  andThen (run (.field a f) s) fun (r, s) =>
    match r with
    | .num v => run (next v) s
    | _ => .next (r, s)

/-- XWORD of each address in turn. -/
def extractWords : List Word → State → HostOut (List Word)
  | [], s => .next ([], s)
  | a :: rest, s =>
    andThen (run (.xword a) s) fun (r, s) =>
      match r with
      | .word w => andThen (extractWords rest s) fun (ws, s) => .next (w :: ws, s)
      | _ => .next ([], s)

/-- R165 `Decoding`: one field of the register map. -/
def decodeField (p : HostParams) (f : FieldSpec) (s : State) : HostOut Result :=
  match f with
  | .number a factor => run (.field a factor) s
  | .suctionOrCoil a factor => onField a factor .wrap65k s
  | .ambient a => onField a factorAmbient .ambfix s
  | .lowPressure a => onField a factorLowPressure .lpfix s
  | .flag a i =>
    andThen (run (.xword a) s) fun (r, s) =>
      match r with
      | .word w => run (.getbit (some w) i) s
      | _ => .next (r, s)
  | .frequencyMode =>
    andThen (extractWords [addrPowerfulSilent, addrHoliday] s) fun (ws, s) => run (.fmode ws[0]? ws[1]?) s
  | .pumpOn a factor => onField a factor .pumpon s
  | .antiFreeze addresses =>
    andThen (extractWords addresses s) fun (ws, s) =>
      let (crank, sec, lvl1) := p.antiFreezeInputs ws
      run (.antifrz crank sec lvl1) s
  | .errors a1 a2 a3 a4 a5 a6 a7 =>
    andThen (extractWords [a1, a2, a3, a4, a5, a6, a7] s) fun (ws, s) =>
      match ws with
      | [f1, f2, f3, f4, f5, f6, f7] => run (.errint f1 f2 f3 f4 f5 f6 f7) s
      | _ => .next (.none, s)

/-- R165, R47: the register map: the fields whose decoding the spec prints, then the others (log entry 18). -/
def registerMap (p : HostParams) : List (String × FieldSpec) :=
  ("water outlet temperature", .number addrWaterOutlet factorWaterOutlet) :: ("frequency mode", .frequencyMode) ::
    p.otherFields

/-- R165: the Decoded Sample, every field of the register map in order. -/
def decodeSample (p : HostParams) : List (String × FieldSpec) → State → HostOut (List (String × Result))
  | [], s => .next ([], s)
  | (name, f) :: rest, s =>
    andThen (decodeField p f s) fun (r, s) =>
      andThen (decodeSample p rest s) fun (vs, s) => .next ((name, r) :: vs, s)

/-! ## The poll tick -/

/-- R165 `Reading`: the segments from number k on, in order; the first failure ends it. -/
def readSegments (p : HostParams) : Nat → List (Word × Word) → State → HostOut Bool
  | _, [], s => .next (true, s)
  | k, (start, count) :: rest, s =>
    andThen (transaction p (.encRd p.unit start count) (.loadseg (BitVec.ofNat 8 k)) start false s) fun (r, s) =>
      match r with
      | .failed => .next (false, s)
      | .success _ => readSegments p (k + 1) rest s

/-- The time of the next tick (R165, R190). -/
def State.schedule (s : State) (delay : Nat) : State :=
  s.withHost { s.host with nextTick := s.host.now + delay }

/-- R165 POLL: Idle, Reading, Decoding, Publishing, Idle; on a failure Reading, Failed, Idle. -/
def poll (p : HostParams) (s : State) : Out :=
  andThen (exec .dbclr (s.enter .reading)) fun s =>
    andThen (readSegments p 0 segments s) fun (complete, s) =>
      if complete then
        andThen (decodeSample p (registerMap p) (s.enter .decoding)) fun (values, s) =>
          .next ((((s.enter .publishing).reported (.sample values)).schedule p.tPoll).enter .idle)
      else .next ((((s.enter .failed).reported .pollFailed).schedule p.tPollRetry).enter .idle)

/-! ## Commands -/

/-- R166 `ComputeTarget`: the edits in order, each a SETBIT or a CLRBIT. -/
def applyEdits : List Edit → Word → State → HostOut Word
  | [], w, s => .next (w, s)
  | e :: rest, w, s =>
    andThen (run (match e with | .set i => .setbit w i | .clear i => .clrbit w i) s) fun (r, s) =>
      match r with
      | .word w => applyEdits rest w s
      | _ => .next (w, s)

/-- R166: a failure is logged and reported, and the machine goes back to Idle; nothing is repeated (R214). -/
def commandFails (c : Command) (reg : Word) (isWrite : Bool) (s : State) : HostOut Bool :=
  .next (false, ((s.logged (.failedCommand reg isWrite)).reported (.commandFailed c)).enter .idle)

/-- R166: the acknowledgment. -/
def commandDone (c : Command) (s : State) : HostOut Bool :=
  .next (true, (s.reported (.acknowledged c)).enter .idle)

/-- R166 `Write`: the writes in order, each a whole register; the first failure ends them and leaves the earlier ones
in effect. -/
def writeAll (p : HostParams) (c : Command) : List (Word × Word) → State → HostOut Bool
  | [], s => commandDone c s
  | (reg, value) :: rest, s =>
    andThen (wrSingle p p.unit reg value s) fun (r, s) =>
      match r with
      | .failed => commandFails c reg true s
      | .success _ => writeAll p c rest s

/-- R167, N2: whether the word read makes the write of the packed register unnecessary (GETBIT, as P2 tests it). -/
def alreadySet (test : Option Byte) (w : Word) (s : State) : HostOut Bool :=
  match test with
  | none => .next (false, s)
  | some i => andThen (run (.getbit (some w) i) s) fun (r, s) => .next (decide (r = .bit true), s)

/-- R12, R47: whether a register holds packed flags. The operation mode does not (R167). -/
def isPacked (p : HostParams) (reg : Word) : Bool :=
  packedNamed.contains reg || (reg != addrOperationMode && p.otherPacked.contains reg)

/-- R142, R144: whether a command edits a packed-flags register only, and writes without a read only registers that are
not. -/
def Command.legal (p : HostParams) (c : Command) : Bool :=
  (c.packed.all fun (reg, _) => isPacked p reg) && c.plain.all fun (reg, _) => !isPacked p reg

/-- R142, R144: a command that no rule lets the host carry out, such as one that names bits of a register that is not
packed: it is logged and reported as failed, and nothing is read or written (DESIGN CHOICE, log entry 29). -/
def turnAway (c : Command) (s : State) : HostOut Bool :=
  .next (false, (s.logged (.turnedAway c)).reported (.commandFailed c))

/-- R166: `ReadCurrent` (for a packed register only), `ComputeTarget`, `Write`. -/
def carryOut (p : HostParams) (c : Command) (s : State) : HostOut Bool :=
  match c.packed with
  | none => writeAll p c c.plain (s.enter .write)
  | some (reg, edits) =>
    andThen (rdSingle p p.unit reg (s.enter .readCurrent)) fun (r, s) =>
      match r with
      | .success (.word w) =>
        andThen (alreadySet c.skipIf w (s.enter .computeTarget)) fun (skip, s) =>
          if skip then writeAll p c c.plain (s.enter .write)
          else
            andThen (applyEdits edits w s) fun (w, s) => writeAll p c ((reg, w) :: c.plain) (s.enter .write)
      | _ => commandFails c reg false s

/-- R166, R142, R144: one command. -/
def command (p : HostParams) (c : Command) (s : State) : HostOut Bool :=
  if c.legal p then carryOut p c s else turnAway c s

/-- R166 CMD.RMW reg, edits. -/
def rmwCommand (reg : Word) (edits : List Edit) : Command :=
  { packed := some (reg, edits), plain := [], skipIf := none }

/-- The edits that give every bit of a word the value it has in `value`. -/
def wholeEdits (value : Word) : List Edit :=
  (List.range 16).map fun i =>
    if value.getLsbD i then .set (BitVec.ofNat 8 i) else .clear (BitVec.ofNat 8 i)

/-- R166, R144, R142: a command that gives a register a value. One that is not packed is written without a read. For a
packed one the value handed to ENC.WR must come from a word read in the same cycle, so the command names every bit
(log entry 29). -/
def writeCommand (p : HostParams) (reg value : Word) : Command :=
  if isPacked p reg then rmwCommand reg (wholeEdits value)
  else { packed := none, plain := [(reg, value)], skipIf := none }

/-- R167: set operation mode to Heating: bit 0 of 0x003F, then 1 to 0x0043, as P2 of 95_test_vectors.md one command with
both writes in `Write`. Whether the first write is made when the bit is already set is a parameter (N2). DESIGN CHOICE:
one acknowledgment, or one failure, for the whole command (log entry 24). -/
def heatingCommand (p : HostParams) : Command :=
  { packed := some (addrUnitState, [.set bitUnitState])
    plain := [(addrOperationMode, modeHeating)]
    skipIf := if p.heatingSkips then some bitUnitState else none }

/-! ## The events that reach the host -/

/-- R187, R206: the stimuli from outside. -/
inductive HostEvent where
  | tick
  | rmw (reg : Word) (edits : List Edit)
  | write (reg value : Word)
  | heating
  | reset
  | elapse (ms : Nat)
  deriving DecidableEq, Repr

/-- A host function whose value is not needed. -/
def stateOnly {α : Type} (o : HostOut α) : Out := andThen o fun r => .next r.2

/-- One event, served as a whole (R212, D29). A tick comes at its scheduled time, or now if that has passed. -/
def hostStep (p : HostParams) (e : HostEvent) (s : State) : Out :=
  match e with
  | .tick => poll p (s.withHost { s.host with now := max s.host.now s.host.nextTick })
  | .rmw reg edits => stateOnly (command p (rmwCommand reg edits) s)
  | .write reg value => stateOnly (command p (writeCommand p reg value) s)
  | .heating => stateOnly (command p (heatingCommand p) s)
  | .reset => .next s.resetEvent
  | .elapse ms => .next (s.withHost { s.host with now := s.host.now + ms })

/-- R212: the events in the order in which they take the lock (U15). -/
def hostRun (p : HostParams) : List HostEvent → State → Out
  | [], s => .next s
  | e :: rest, s => andThen (hostStep p e s) fun s => hostRun p rest s

end Sys2Proof.Machine
end

