-- ==== Sys2Proof/Safety.lean ====
section
/-! DEFINITION. What counts as a safe state and a safe run, in the terms the statements use. -/

namespace Sys2Proof.Machine

open Sys2Proof.Config (HostParams FieldSpec)

/-- Every listed address is below a bound. -/
abbrev Memory.below (m : Memory) (bound : Nat) : Prop := ∀ c ∈ m, c.1 < bound

/-- R18: what RXOK says of RXB: the response passed ACCEPT for the request in REQ. -/
abbrev State.responseOk (s : State) : Prop :=
  s.req.valid = true ∧ validate s.rxBytes = true ∧ s.rxBytes[0]? = some s.req.unit ∧ s.rxBytes[1]? = some s.req.fn

/-- R19: every byte of a segment has a value. -/
abbrev Memory.loaded (m : Memory) (seg : Word × Word) : Prop :=
  ∀ i < 2 * seg.2.toNat, (m.read (2 * seg.1.toNat + i)).isSome = true

/-- The invariant of the block: what R17 to R20, R46 say of its state in every state that a run reaches. -/
abbrev State.Inv (s : State) : Prop :=
  s.rxlen.toNat ≤ 256 ∧
  (s.rxok = true → s.responseOk) ∧
  (s.rxok = false → s.rxlen = 0) ∧
  (s.req.valid = true → s.req.fn = fnRead ∨ s.req.fn = fnWrite) ∧
  s.db.wf ∧ s.db.below (2 * dbRegs) ∧
  (∀ k : Fin 4, s.dbv.getLsbD k = true → s.db.loaded segments[k]) ∧
  (s.status.echo && s.status.warn) = false ∧
  s.ctrl.wf ∧ s.ctrl.below 0x20000

/-- R211: between the attempts recorded, newest first, there is at least T_GAP, and none is in the future. -/
def GapRule (gap : Nat) : List (Nat × Nat) → Prop
  | [] => True
  | (start, ended) :: rest =>
    start ≤ ended ∧ (∀ q, rest.head? = some q → q.2 + gap ≤ start) ∧ GapRule gap rest

/-- R211: the gap rule holds of a host's record, which ends no later than now. -/
def HostState.Gapped (h : HostState) (gap : Nat) : Prop :=
  GapRule gap h.pairs ∧ ∀ q, h.pairs.head? = some q → q.2 ≤ h.now

/-- R180 (1): how a state stands after an operation that ended normally with a result. -/
abbrev State.endsNormally (s : State) (r : Result) : State :=
  { s with status := { s.status with err := 0x00 }, result := r }

/-- R180 (2), R189: how a state stands after an operation that ended in an error with a code. -/
abbrev State.endsInError (s : State) (code : Byte) (e : ErrorCause) : State :=
  { s with status := { s.status with err := code }, result := .error e }

/-- R186: when an instruction is refused, and for which of the closed list of reasons. -/
def RefusedFor (s : State) : Instr → Refusal → Prop
  | .accept b, r =>
    (s.req.valid = false ∧ r = .noRequestOutstanding) ∨
    (s.req.valid = true ∧ 256 < b.length ∧ r = .responseTooLong)
  | .rdrsp _ data _, r =>
    (s.req.valid = false ∧ r = .noRequestOutstanding) ∨
    (s.req.valid = true ∧ 251 < data.length ∧ r = .responseTooLong)
  | .wrrsp _ _ _ _, r => s.req.valid = false ∧ r = .noRequestOutstanding
  | .parseRd, r => (s.rxok = false ∨ s.req.fn ≠ 0x03) ∧ r = .noAcceptedRead
  | .parseRd1, r => (s.rxok = false ∨ s.req.fn ≠ 0x03) ∧ r = .noAcceptedRead
  | .parseWr, r => (s.rxok = false ∨ s.req.fn ≠ 0x06) ∧ r = .noAcceptedWrite
  | .loadseg k, r =>
    (3 < k.toNat ∧ r = .noSuchSegment) ∨
    (k.toNat ≤ 3 ∧ (s.rxok = false ∨ s.req.fn ≠ 0x03) ∧ r = .noAcceptedRead) ∨
    (k.toNat ≤ 3 ∧ s.rxok = true ∧ s.req.fn = 0x03 ∧ segments[k.toNat]? ≠ some (s.req.a, s.req.b) ∧
      r = .notThisSegment)
  | .xword a, r =>
    (s.dbv ≠ 0xF ∧ r = .decodeBufferIncomplete) ∨
    (s.dbv = 0xF ∧ 0x016E < a.toNat ∧ r = .offsetOutOfRange)
  | .field a f, r =>
    (s.dbv ≠ 0xF ∧ r = .decodeBufferIncomplete) ∨
    (s.dbv = 0xF ∧ 0x016E < a.toNat ∧ r = .offsetOutOfRange) ∨
    (s.dbv = 0xF ∧ (s.db.readWord a.toNat).isSome = true ∧ a.toNat ≤ 0x016E ∧ f < 0 ∧ r = .negativeFactor)
  | .scale _ f, r => f < 0 ∧ r = .negativeFactor
  | .setbit _ i, r => 15 < i.toNat ∧ r = .noSuchBit
  | .clrbit _ i, r => 15 < i.toNat ∧ r = .noSuchBit
  | .crc16 _, _ | .validate _, _ | .encode _ _ _, _ | .encRd _ _ _, _ | .encWr _ _ _, _ | .clrreq, _ => False
  | .dbclr, _ | .wrap _, _ | .getbit _ _, _ | .wrap65k _, _ | .ambfix _, _ | .lpfix _, _ => False
  | .fmode _ _, _ | .pumpon _, _ | .antifrz _ _ _, _ | .errint _ _ _ _ _ _ _, _ => False
  | .rdreq _ _ _ _, _ | .wrreq _ _ _ _, _ => False

/-- R160: the parse steps of an attempt. They touch neither the link nor the request latch. -/
def isParse (i : Instr) : Prop := i = .parseRd ∨ i = .parseRd1 ∨ i = .parseWr ∨ ∃ k, i = .loadseg k

/-- R96, R97: the operation that opens a transaction for unit, function code and the request's two fields. -/
def isRequest (i : Instr) (unit fn : Byte) (a b : Word) : Prop :=
  (fn = 0x03 ∧ i = .encRd unit a b) ∨ (fn = 0x06 ∧ i = .encWr unit a b)

/-- R160, R13 (3): the bytes that the link brings in an attempt with this event, if any: those it delivers, or the answer
of the controller to the frame. -/
def arriving (frame : List Byte) (e : LinkEvent) (s : State) : Option (List Byte) :=
  match e.fate with
  | .delivers d => some d
  | .faithful =>
    match sendFrame frame s with
    | .next t => t.link.answer
    | .fault _ => none
    | .refused _ => none
  | .noConnect => none
  | .socketFailure _ => none
  | .silence => none

/-- R160, R164, R181, D28: what an attempt with this event fails with: the link's failure, the time-out, the error with
which ACCEPT rejects what arrives in time, or the error of the parse step. `s` is the state with the request in its
latch. -/
def failsWith (p : HostParams) (frame : List Byte) (parse : Instr) (e : LinkEvent) (s : State) (err : ErrorCause) :
    Prop :=
  match e.fate with
  | .noConnect => err = .transportConnect
  | .socketFailure _ => err = if p.tTimeout < e.elapsed then .transportTimeout else .transportSocket
  | .silence | .delivers _ | .faithful =>
    match arriving frame e s with
    | none => err = .transportTimeout
    | some b =>
      if p.tTimeout < e.elapsed then err = .transportTimeout
      else
        ∃ u, exec (.accept b) s = .next u ∧
          (u.result = .error err ∨ (u.result = .ok ∧ ∃ v, exec parse u = .next v ∧ v.result = .error err))

/-- R165 `Decoding`, R128 to R133, R127, R151 to R153, R157: the value of a field of the register map, in terms of the
words of the registers. -/
def fieldValue (p : HostParams) (word : Word → Word) : FieldSpec → Result
  | .number a f => .num (wrapAbove 65280 (scaleNum (word a) f))
  | .suctionOrCoil a f => .num (wrapAbove 65000 (wrapAbove 65280 (scaleNum (word a) f)))
  | .ambient a =>
    let raw : Rat := (word a).toNat
    .num ⟨if 65000 < raw then (raw - 65535) / 2 else raw / 2, .oneDecimal⟩
  | .lowPressure a =>
    let raw : Rat := (word a).toNat
    .num ⟨if 65000 < raw then (raw - 65535) / 10 else raw / 10, .oneDecimal⟩
  | .flag a i => .bit (getBit (some (word a)) i)
  | .frequencyMode => .mode (freqMode (some (word 0x0040)) (some (word 0x0041)))
  | .pumpOn a f => .bool (decide (0 < (wrapAbove 65280 (scaleNum (word a) f)).val))
  | .antiFreeze addresses =>
    let (crank, sec, lvl1) := p.antiFreezeInputs (addresses.map word)
    .bool (crank || sec || lvl1)
  | .errors a1 a2 a3 a4 a5 a6 a7 =>
    let r := interpretErrors catalogue Config.unknownText Config.noErrText
      [word a1, word a2, word a3, word a4, word a5, word a6, word a7]
    .severity r.1 r.2

/-- R186 (d), (i): a field of the register map that names only registers of the decode buffer and no negative
factor. -/
def legalField : FieldSpec → Bool
  | .number a f | .suctionOrCoil a f | .pumpOn a f => decide (a.toNat ≤ 0x016E) && decide (0 ≤ f)
  | .ambient a | .lowPressure a | .flag a _ => decide (a.toNat ≤ 0x016E)
  | .frequencyMode => true
  | .antiFreeze addresses => addresses.all fun a => decide (a.toNat ≤ 0x016E)
  | .errors a1 a2 a3 a4 a5 a6 a7 => [a1, a2, a3, a4, a5, a6, a7].all fun a => decide (a.toNat ≤ 0x016E)

/-- A step that neither faults nor is refused. -/
def SafeStep (s : State) : Prop := ∃ t, step s = .next t

end Sys2Proof.Machine
end

