-- ==== Sys2Proof/Certificates/Slice0/Obligations.lean ====
section
/-! DEFINITION. The statements about the model, for the provers. Each says which rule of the spec it formalises. -/

open Sys2Proof Sys2Proof.Machine

/-! ## Steps, decoding and encoding -/

/-- R25, R195: a step executes the instruction that the next presented transfer decodes to, with that transfer taken
off the interface; with nothing presented the block keeps its state. That transfers wait in a list is the model's
choice (log entry 1). -/
def Obligations.StepRunsTheDecodedInstruction : Prop :=
  (∀ (s : State) (x : Transfer) (rest : List Transfer) (i : Instr),
    s.pending = x :: rest → decode x = .ok i → step s = exec i { s with pending := rest }) ∧
  (∀ s : State, s.pending = [] → step s = .next s)

/-- R62, R63 to R66: words written out from the tables decode to the instructions they stand for. -/
def Obligations.TableWordsDecode : Prop :=
  (∀ d, decode (.operation 0b0000_0000 [.bytes d]) = .ok (.crc16 d)) ∧
  (∀ unit start count, decode (.operation 0b0001_0001 [.u8 unit, .u16 start, .u16 count]) =
    .ok (.encRd unit start count)) ∧
  (∀ k, decode (.operation 0b0010_0001 [.u8 k]) = .ok (.loadseg k)) ∧
  (∀ w i, decode (.operation 0b0011_0001 [.u16 w, .u8 i]) = .ok (.clrbit w i)) ∧
  (∀ v, decode (.operation 0b0100_0001 [.num v]) = .ok (.pumpon v)) ∧
  decode (.transmit [0x01, 0x03, 0x00, 0x12, 0x00, 0x01, 0x24, 0x0F]) = .ok (.rdreq 0x01 0x0012 0x0001 0x0F24) ∧
  decode (.transmit [0x01, 0x06, 0x00, 0x43, 0x00, 0x01, 0xB9, 0xDE]) = .ok (.wrreq 0x01 0x0043 0x0001 0xDEB9) ∧
  decode (.receive [0x01, 0x03, 0x02, 0x00, 0xB4, 0xB8, 0x33]) = .ok (.rdrsp 0x01 [0x00, 0xB4] 0x33B8) ∧
  decode (.receive [0x01, 0x06, 0x00, 0x3F, 0x00, 0x01, 0x78, 0x06]) = .ok (.wrrsp 0x01 0x003F 0x0001 0x0678)

/-- R62, R61: decoding the encoding of an instruction gives it back, every operand at every value the encoding admits
(a read response's data at most 255 bytes, R64). Operands as values beside the code are the model's form (log entry
2). -/
def Obligations.DecodingInvertsEncoding : Prop :=
  ∀ i : Instr, i.encodable = true → decode (encode i) = .ok i

/-- R62, R61: a transfer that decodes is the encoding of the instruction it decodes to, so no bit of a transfer is
dropped. The one exception is a received byte string of neither response format, which is the operand of ACCEPT. That
such bytes are ACCEPT's operand is the model's choice (log entry 3). -/
def Obligations.EncodingInvertsDecoding : Prop :=
  ∀ (x : Transfer) (i : Instr), decode x = .ok i →
    encode i = x ∨ ∃ b, x = .receive b ∧ i = .accept b ∧ asReadResponse b = none ∧ asWriteResponse b = none

/-- R71, R186 (a): a select code outside R62's list is refused, whatever the operands. -/
def Obligations.ReservedSelectCodesAreRefused : Prop :=
  ∀ (s : State) (select : Byte) (operands : List Operand) (rest : List Transfer),
    s.pending = .operation select operands :: rest →
    select.toNat ∉ [0x00, 0x01, 0x10, 0x11, 0x12, 0x13, 0x14, 0x15, 0x16, 0x17, 0x20, 0x21, 0x22, 0x23, 0x24, 0x25,
      0x26, 0x27, 0x28, 0x29, 0x30, 0x31, 0x40, 0x41, 0x42, 0x43] →
    step s = .refused (.undecodable (.reservedSelect select))

/-- R25 (4): whatever bytes arrive on the receive-frame interface, the step is ACCEPT of exactly those bytes. Frames
as instructions are the model's choice (log entry 3). -/
def Obligations.ReceivedBytesAreAccepted : Prop :=
  ∀ (s : State) (b : List Byte) (rest : List Transfer),
    s.pending = .receive b :: rest → step s = exec (.accept b) { s with pending := rest }

/-! ## The CRC unit -/

/-- R86: the accumulator starts at 0xFFFF, each byte enters the low 8 bits and is shifted through 8 times with 0xA001,
and the operation leaves the CRC in the accumulator and on the result interface. -/
def Obligations.Crc16FollowsTheBitLoop : Prop :=
  (∀ d, decode (.operation 0x00 [.bytes d]) = .ok (.crc16 d)) ∧
  crc16 [] = 0xFFFF ∧
  (∀ (d : List Byte) (b : Byte), crc16 (d ++ [b]) =
    (fun c : Word => if c.getLsbD 0 then (c >>> 1) ^^^ 0xA001#16 else c >>> 1)^[8] (crc16 d ^^^ b.setWidth 16)) ∧
  crc16 [0x01] = 0x807E ∧
  crc16 [0x31, 0x32, 0x33, 0x34, 0x35, 0x36, 0x37, 0x38, 0x39] = 0x4B37 ∧
  (∀ (d : List Byte) (s : State),
    exec (.crc16 d) s = .next (({ s with crc := crc16 d }).endsNormally (.word (crc16 d))))

/-- R88: VALIDATE compares the last two bytes, low byte first, with the CRC of the rest; below 4 bytes it is false and
leaves the accumulator. -/
def Obligations.ValidateComparesTheTrailer : Prop :=
  (∀ b, decode (.operation 0x01 [.bytes b]) = .ok (.validate b)) ∧
  (∀ (b : List Byte) (s : State), b.length < 4 → exec (.validate b) s = .next (s.endsNormally (.bool false))) ∧
  (∀ (body : List Byte) (lo hi : Byte) (s : State), 2 ≤ body.length →
    exec (.validate (body ++ [lo, hi])) s =
      .next (({ s with crc := crc16 body }).endsNormally
        (.bool (decide (lo = lo8 (crc16 body) ∧ hi = hi8 (crc16 body))))))

/-- R89: for every unit, function and payload, VALIDATE of the encoded frame is true, and the frame has 4 bytes and
those of its payload. -/
def Obligations.ValidateAcceptsEveryEncodedFrame : Prop :=
  ∀ (unit fn : Byte) (p : List Byte) (s : State),
    ∃ f t, exec (.encode unit fn p) s = .next t ∧ t.result = .bytes f ∧ f.length = 4 + p.length ∧
      ∀ s', exec (.validate f) s' = .next (({ s' with crc := t.crc }).endsNormally (.bool true))

/-- R90: flipping any single bit of an encoded frame makes VALIDATE false: a flip in the trailer changes a compared
byte and not the recomputed CRC, a flip in the body changes the recomputed CRC. -/
def Obligations.SingleBitFlipIsDetected : Prop :=
  ∀ (unit fn : Byte) (p : List Byte) (n : Nat) (k : Fin 8) (x : Byte),
    (encodeFrame unit fn p)[n]? = some x →
    let f := encodeFrame unit fn p
    let g := f.set n (x ^^^ (1#8 <<< k.val))
    validate g = false ∧
    (n < 2 + p.length → crc16 (frameBody g) ≠ crc16 (frameBody f)) ∧
    (2 + p.length ≤ n → frameTrailer g ≠ frameTrailer f ∧ crc16 (frameBody g) = crc16 (frameBody f)) ∧
    ∀ s : State, ∃ c, exec (.validate g) s = .next (({ s with crc := c }).endsNormally (.bool false))

/-- R91: the CRC over a whole frame with its trailer is 0. -/
def Obligations.FrameResidueIsZero : Prop :=
  (∀ (unit fn : Byte) (p : List Byte), crc16 (encodeFrame unit fn p) = 0x0000) ∧
  (∀ b : List Byte, 4 ≤ b.length → (validate b = true ↔ crc16 b = 0x0000))

/-! ## The framer -/

/-- R95: ENCODE concatenates unit, function code and payload and appends the CRC low byte first; REQ and RXOK are not
touched. The interface field is the model's (log entry 11); R95 marks its second worked frame as derived. -/
def Obligations.EncodeSerialisesAndOpensNothing : Prop :=
  (∀ unit fn p, decode (.operation 0x10 [.u8 unit, .u8 fn, .bytes p]) = .ok (.encode unit fn p)) ∧
  (∀ (unit fn : Byte) (p : List Byte) (s : State),
    let c := crc16 ([unit, fn] ++ p)
    let f := [unit, fn] ++ p ++ [lo8 c, hi8 c]
    exec (.encode unit fn p) s = .next (({ s with crc := c, tx := f }).endsNormally (.bytes f))) ∧
  encodeFrame 0x01 0x03 [] = [0x01, 0x03, 0x40, 0x21] ∧
  encodeFrame 0x11 0x03 [0x00, 0x6B, 0x00, 0x03] = [0x11, 0x03, 0x00, 0x6B, 0x00, 0x03, 0x76, 0x87]

/-- R96: ENC.RD emits the 8-byte read request and loads the latch, replacing an outstanding request and invalidating
the response. The interface field is the model's (log entry 11). -/
def Obligations.EncRdOpensAReadRequest : Prop :=
  (∀ unit start count, decode (.operation 0x11 [.u8 unit, .u16 start, .u16 count]) = .ok (.encRd unit start count)) ∧
  (∀ (unit : Byte) (start count : Word) (s : State),
    let c := crc16 [unit, 0x03, hi8 start, lo8 start, hi8 count, lo8 count]
    let f := [unit, 0x03, hi8 start, lo8 start, hi8 count, lo8 count, lo8 c, hi8 c]
    exec (.encRd unit start count) s =
      .next (({ s with crc := c, tx := f, rxok := false, rxlen := 0,
                       req := { valid := true, unit := unit, fn := 0x03, a := start, b := count } }).endsNormally
        (.bytes f))) ∧
  encodeFrame 0x01 0x03 (payload16 0x0000 0x0078) = [0x01, 0x03, 0x00, 0x00, 0x00, 0x78, 0x45, 0xE8] ∧
  encodeFrame 0x01 0x03 (payload16 0x0078 0x0078) = [0x01, 0x03, 0x00, 0x78, 0x00, 0x78, 0xC5, 0xF1] ∧
  encodeFrame 0x01 0x03 (payload16 0x00F0 0x0078) = [0x01, 0x03, 0x00, 0xF0, 0x00, 0x78, 0x45, 0xDB] ∧
  encodeFrame 0x01 0x03 (payload16 0x0168 0x0007) = [0x01, 0x03, 0x01, 0x68, 0x00, 0x07, 0x84, 0x28]

/-- R97: ENC.WR emits the 8-byte write request with the whole register value and loads the latch. The interface field is
the model's (log entry 11); R97 marks its worked frames as derived. -/
def Obligations.EncWrOpensAWriteRequest : Prop :=
  (∀ unit reg value, decode (.operation 0x12 [.u8 unit, .u16 reg, .u16 value]) = .ok (.encWr unit reg value)) ∧
  (∀ (unit : Byte) (reg value : Word) (s : State),
    let c := crc16 [unit, 0x06, hi8 reg, lo8 reg, hi8 value, lo8 value]
    let f := [unit, 0x06, hi8 reg, lo8 reg, hi8 value, lo8 value, lo8 c, hi8 c]
    exec (.encWr unit reg value) s =
      .next (({ s with crc := c, tx := f, rxok := false, rxlen := 0,
                       req := { valid := true, unit := unit, fn := 0x06, a := reg, b := value } }).endsNormally
        (.bytes f))) ∧
  encodeFrame 0x01 0x06 (payload16 0x003F 0x0001) = [0x01, 0x06, 0x00, 0x3F, 0x00, 0x01, 0x78, 0x06] ∧
  encodeFrame 0x01 0x06 (payload16 0x0043 0x0001) = [0x01, 0x06, 0x00, 0x43, 0x00, 0x01, 0xB9, 0xDE]

/-- R98: a response of at most 256 bytes with a good CRC, the request's unit id and its function code is kept whole. -/
def Obligations.AcceptKeepsAPassingResponse : Prop :=
  ∀ (body : List Byte) (s : State),
    let b := body ++ [lo8 (crc16 body), hi8 (crc16 body)]
    s.req.valid = true → 2 ≤ body.length → body.length ≤ 254 →
    body[0]? = some s.req.unit → body[1]? = some s.req.fn →
    ∃ t, exec (.accept b) s = .next t ∧
      t = ({ s with rxb := t.rxb, rxlen := BitVec.ofNat 9 b.length, rxok := true, crc := crc16 body }).endsNormally
        .ok ∧
      t.rxBytes = b ∧
      ∀ (n : Nat) (h : n < 256), b.length ≤ n → t.rxb[n] = s.rxb[n]

/-- R98, R188, R181: ACCEPT tests SHORT, CRC, UNIT, FN in this order; a rejected response leaves RXOK = 0, RXLEN = 0,
the cause's code in STATUS.ERR, and from 4 bytes on the recomputed CRC. The order is the spec's decision D11. -/
def Obligations.AcceptRejectsInOrder : Prop :=
  ∀ (s : State), s.req.valid = true →
    (∀ b : List Byte, b.length < 4 →
      exec (.accept b) s = .next (({ s with rxok := false, rxlen := 0 }).endsInError 0x21 .protocolShort)) ∧
    (∀ (body : List Byte) (lo hi : Byte), 2 ≤ body.length → body.length ≤ 254 →
      let dropped := { s with rxok := false, rxlen := 0, crc := crc16 body }
      (¬ (lo = lo8 (crc16 body) ∧ hi = hi8 (crc16 body)) →
        exec (.accept (body ++ [lo, hi])) s = .next (dropped.endsInError 0x22 .protocolCrc)) ∧
      (lo = lo8 (crc16 body) ∧ hi = hi8 (crc16 body) → body[0]? ≠ some s.req.unit →
        exec (.accept (body ++ [lo, hi])) s = .next (dropped.endsInError 0x23 .protocolUnit)) ∧
      (lo = lo8 (crc16 body) ∧ hi = hi8 (crc16 body) → body[0]? = some s.req.unit → body[1]? ≠ some s.req.fn →
        exec (.accept (body ++ [lo, hi])) s = .next (dropped.endsInError 0x24 .protocolFn)))

/-- R64, R66, R25 (4): a response frame with a good CRC, the request's unit id and its function code is kept whole.
That these frames are ACCEPT's operand is the model's reading (log entry 3). -/
def Obligations.ResponseFramesAreKept : Prop :=
  (∀ (data : List Byte) (s : State),
    let body := [s.req.unit, 0x03, BitVec.ofNat 8 data.length] ++ data
    let c := crc16 body
    s.req.valid = true → s.req.fn = 0x03 → data.length ≤ 251 →
    ∃ t, exec (.rdrsp s.req.unit data c) s = .next t ∧ t.rxBytes = body ++ [lo8 c, hi8 c] ∧
      t = ({ s with rxb := t.rxb, rxlen := BitVec.ofNat 9 (data.length + 5), rxok := true, crc := c }).endsNormally
        .ok) ∧
  (∀ (reg value : Word) (s : State),
    let body := [s.req.unit, 0x06, hi8 reg, lo8 reg, hi8 value, lo8 value]
    let c := crc16 body
    s.req.valid = true → s.req.fn = 0x06 →
    ∃ t, exec (.wrrsp s.req.unit reg value c) s = .next t ∧ t.rxBytes = body ++ [lo8 c, hi8 c] ∧
      t = ({ s with rxb := t.rxb, rxlen := 8, rxok := true, crc := c }).endsNormally .ok)

/-- R99: PARSE.RD gives the data bytes RXB[3 .. 3+bc-1] when the byte count agrees with the length; SHORT and then
COUNT otherwise. What the two tests test is the spec's decision D14. -/
def Obligations.ParseRdGivesTheDataBytes : Prop :=
  ∀ s : State, s.rxok = true → s.req.fn = 0x03 →
    (s.rxlen.toNat < 5 → exec .parseRd s = .next (s.endsInError 0x31 .decodeShort)) ∧
    (5 ≤ s.rxlen.toNat → s.rxb[2].toNat ≠ s.rxlen.toNat - 5 →
      exec .parseRd s = .next (s.endsInError 0x32 .decodeCount)) ∧
    (5 ≤ s.rxlen.toNat → s.rxlen.toNat ≤ 256 → s.rxb[2].toNat = s.rxlen.toNat - 5 →
      ∃ d, exec .parseRd s = .next (s.endsNormally (.bytes d)) ∧ d.length = s.rxb[2].toNat ∧
        ∀ (j : Nat) (h : 3 + j < 256), j < s.rxb[2].toNat → d[j]? = some s.rxb[3 + j])

/-- R100: PARSE.RD1 gives two data bytes as a word, high byte first, one data byte zero-extended, and LEN1 for any
other length; SHORT and COUNT as PARSE.RD. -/
def Obligations.ParseRd1GivesOneWord : Prop :=
  ∀ s : State, s.rxok = true → s.req.fn = 0x03 →
    (s.rxlen.toNat = 7 → s.rxb[2] = 2 →
      exec .parseRd1 s = .next (s.endsNormally (.word (be16 s.rxb[3] s.rxb[4])))) ∧
    (s.rxlen.toNat = 6 → s.rxb[2] = 1 →
      exec .parseRd1 s = .next (s.endsNormally (.word (s.rxb[3].setWidth 16)))) ∧
    (s.rxlen.toNat < 5 → exec .parseRd1 s = .next (s.endsInError 0x31 .decodeShort)) ∧
    (5 ≤ s.rxlen.toNat → s.rxb[2].toNat ≠ s.rxlen.toNat - 5 →
      exec .parseRd1 s = .next (s.endsInError 0x32 .decodeCount)) ∧
    (5 ≤ s.rxlen.toNat → s.rxlen.toNat ≤ 256 → s.rxb[2].toNat = s.rxlen.toNat - 5 → s.rxb[2] ≠ 1 → s.rxb[2] ≠ 2 →
      exec .parseRd1 s = .next (s.endsInError 0x33 .decodeLen1))

/-- R101: PARSE.WR reports whether an 8-byte response echoes the register and the value; ECHO takes that and WARN its
complement, and a false echo is no error. -/
def Obligations.ParseWrReportsTheEcho : Prop :=
  ∀ s : State, s.rxok = true → s.req.fn = 0x06 →
    ∃ echo : Bool,
      (echo = true ↔ s.rxlen = 8 ∧ be16 s.rxb[2] s.rxb[3] = s.req.a ∧ be16 s.rxb[4] s.rxb[5] = s.req.b) ∧
      exec .parseWr s =
        .next { s with status := { err := 0x00, echo := echo, warn := !echo }, result := .bool echo }

/-- R101, derived clause: in a state the block reaches, the echo is true exactly when the accepted response is the
request frame byte for byte. -/
def Obligations.EchoMeansTheRequestFrame : Prop :=
  ∀ s : State, s.Inv → s.rxok = true → s.req.fn = 0x06 →
    ∃ t, exec .parseWr s = .next t ∧
      (t.status.echo = true ↔ s.rxBytes = encodeFrame s.req.unit 0x06 (payload16 s.req.a s.req.b))

/-- R102: CLRREQ ends the request and the response and leaves everything else; then ACCEPT and every PARSE.* are
refused, and a second CLRREQ changes nothing more. -/
def Obligations.ClrreqEndsTheTransaction : Prop :=
  decode (.operation 0x17 []) = .ok .clrreq ∧
  ∀ s : State, ∃ t, exec .clrreq s = .next t ∧
    t = ({ s with req := { s.req with valid := false }, rxok := false, rxlen := 0 }).endsNormally .none ∧
    exec .clrreq t = .next t ∧
    (∀ b, exec (.accept b) t = .refused .noRequestOutstanding) ∧
    exec .parseRd t = .refused .noAcceptedRead ∧
    exec .parseRd1 t = .refused .noAcceptedRead ∧
    exec .parseWr t = .refused .noAcceptedWrite

/-! ## The decoder -/

/-- R116: DBCLR clears the four valid bits; then XWORD and FIELD are refused, whatever the decode buffer holds. Nothing
but DB, DBV and STATUS.ERR changes. -/
def Obligations.DbclrMakesTheBufferUnreadable : Prop :=
  ∀ s : State, ∃ t, exec .dbclr s = .next t ∧
    t = ({ s with db := t.db, dbv := 0b0000 }).endsNormally .none ∧
    ∀ (a : Word) (f : Rat),
      exec (.xword a) t = .refused .decodeBufferIncomplete ∧ exec (.field a f) t = .refused .decodeBufferIncomplete

/-- R117: with an accepted response to the request for segment k that carries exactly two bytes per register, LOADSEG
writes register s+j with the word at data bytes 2j and 2j+1, sets DBV[k], and changes no other byte of DB. -/
def Obligations.LoadsegFillsItsSegment : Prop :=
  ∀ (s : State) (k : Byte) (start count : Word),
    (k.toNat, start, count) ∈ [(0, 0x0000, 0x0078), (1, 0x0078, 0x0078), (2, 0x00F0, 0x0078), (3, 0x0168, 0x0007)] →
    s.rxok = true → s.req.fn = 0x03 → s.req.a = start → s.req.b = count →
    s.rxlen.toNat = 5 + 2 * count.toNat → s.rxb[2].toNat = 2 * count.toNat →
    ∃ t, exec (.loadseg k) s = .next t ∧
      t = ({ s with db := t.db, dbv := t.dbv }).endsNormally .none ∧
      (∀ (j : Nat) (h : 3 + 2 * j + 1 < 256), j < count.toNat →
        t.db.readWord (start.toNat + j) = some (be16 s.rxb[3 + 2 * j] s.rxb[3 + 2 * j + 1])) ∧
      (∀ n, n < 2 * start.toNat ∨ 2 * (start.toNat + count.toNat) ≤ n → t.db.read n = s.db.read n) ∧
      (∀ j : Nat, t.dbv.getLsbD j = (decide (j = k.toNat) || s.dbv.getLsbD j))

/-- R117, R188, R189: LOADSEG's errors, SHORT, COUNT and then SEGLEN, write nothing of DB and DBV. -/
def Obligations.LoadsegErrorsWriteNothing : Prop :=
  ∀ (s : State) (k : Byte) (start count : Word),
    (k.toNat, start, count) ∈ [(0, 0x0000, 0x0078), (1, 0x0078, 0x0078), (2, 0x00F0, 0x0078), (3, 0x0168, 0x0007)] →
    s.rxok = true → s.req.fn = 0x03 → s.req.a = start → s.req.b = count →
    (s.rxlen.toNat < 5 → exec (.loadseg k) s = .next (s.endsInError 0x31 .decodeShort)) ∧
    (5 ≤ s.rxlen.toNat → s.rxb[2].toNat ≠ s.rxlen.toNat - 5 →
      exec (.loadseg k) s = .next (s.endsInError 0x32 .decodeCount)) ∧
    (5 ≤ s.rxlen.toNat → s.rxlen.toNat ≤ 256 → s.rxb[2].toNat = s.rxlen.toNat - 5 → s.rxb[2].toNat ≠ 2 * count.toNat →
      exec (.loadseg k) s = .next (s.endsInError 0x34 .decodeSegLen))

/-- R119: in a state the block reaches, once all four segments are loaded XWORD gives the word of every register up to
0x016E. -/
def Obligations.XwordReadsALoadedRegister : Prop :=
  ∀ (s : State) (a : Word), s.Inv → s.dbv = 0b1111 → a.toNat ≤ 0x016E →
    ∃ w h l, s.db.read (2 * a.toNat) = some h ∧ s.db.read (2 * a.toNat + 1) = some l ∧ w = be16 h l ∧
      exec (.xword a) s = .next (s.endsNormally (.word w))

/-- R118, R119, R120: once all segments are loaded, the word XWORD gives is the bytes of its register, and the four hex
characters at index 4a of the hex view; the hex view exists in every state the block reaches; and the two functions of
R118 agree on every payload, in either digit case. That the view is in lower case is the model's choice (log entry 28). -/
def Obligations.XwordIsTheFourHexCharacters : Prop :=
  (∀ (s : State) (h : List Char) (a : Word), s.dbv = 0b1111 → hexView s = some h → a.toNat ≤ 0x016E →
    h.length = 1468 ∧ ∃ w, exec (.xword a) s = .next (s.endsNormally (.word w)) ∧
      xwordHex h a.toNat = some w.toNat ∧
      s.db.read (2 * a.toNat) = some (hi8 w) ∧ s.db.read (2 * a.toNat + 1) = some (lo8 w)) ∧
  (∀ s : State, s.Inv → s.dbv = 0b1111 → ∃ h, hexView s = some h) ∧
  (∀ (p : List Byte) (a : Nat), 2 * a + 2 ≤ p.length →
    ∃ w, xwordBytes p a = some w ∧ xwordHex (hexOf p) a = some w.toNat ∧
      xwordHex ((hexOf p).map Char.toUpper) a = some w.toNat)

/-- R121: SCALE with factor 0 gives the integer itself, with a positive factor the exact product rounded to one
decimal; a negative factor is refused. -/
def Obligations.ScaleRoundsTheExactProduct : Prop :=
  (∀ raw f, decode (.operation 0x23 [.u16 raw, .factor f]) = .ok (.scale raw f)) ∧
  (∀ (raw : Word) (s : State), exec (.scale raw 0) s = .next (s.endsNormally (.num ⟨(raw.toNat : Rat), .integer⟩))) ∧
  (∀ (raw : Word) (f : Rat) (s : State), 0 < f →
    exec (.scale raw f) s = .next (s.endsNormally (.num ⟨round1 ((raw.toNat : Rat) * f), .oneDecimal⟩))) ∧
  (∀ (raw : Word) (f : Rat) (s : State), f < 0 → exec (.scale raw f) s = .refused .negativeFactor) ∧
  (∀ (f : Rat) (s : State), 0 ≤ f → ∃ form, exec (.scale 0 f) s = .next (s.endsNormally (.num ⟨0, form⟩))) ∧
  (∀ (raw : Word) (s : State), exec (.scale raw 1) s = .next (s.endsNormally (.num ⟨(raw.toNat : Rat), .oneDecimal⟩)))

/-- R123: round1 gives a multiple of 1/10 at most 1/20 away, and is the identity on multiples of 1/10; and for the
factors 0.1 and 0.5 the product of a word is such a multiple, so the open tie rule plays no part. -/
def Obligations.Round1IsANearestTenth : Prop :=
  (∀ x : Rat, (∃ k : Int, round1 x = k / 10) ∧ |round1 x - x| ≤ 1 / 20) ∧
  (∀ k : Int, round1 (k / 10) = k / 10) ∧
  (∀ raw : Word, round1 ((raw.toNat : Rat) * (1 / 10)) = raw.toNat * (1 / 10) ∧
    round1 ((raw.toNat : Rat) * (1 / 2)) = raw.toNat * (1 / 2))

/-- R125: WRAP subtracts 65535 strictly above 65280 and nothing else; on integers 0 to 65535 it gives 0 to 65280 and
-254 to 0, which R125 marks as derived. That the printed form of the number is kept is the model's choice (log entry
10). -/
def Obligations.WrapSubtractsAboveTheSentinel : Prop :=
  (∀ v, decode (.operation 0x24 [.num v]) = .ok (.wrap v)) ∧
  (∀ (v : Number) (s : State), 65280 < v.val →
    exec (.wrap v) s = .next (s.endsNormally (.num ⟨v.val - 65535, v.form⟩))) ∧
  (∀ (v : Number) (s : State), v.val ≤ 65280 → exec (.wrap v) s = .next (s.endsNormally (.num v))) ∧
  (∀ (raw : Word) (s : State), ∃ y : Int,
    exec (.wrap ⟨(raw.toNat : Rat), .integer⟩) s = .next (s.endsNormally (.num ⟨(y : Rat), .integer⟩)) ∧
    -254 ≤ y ∧ y ≤ 65280 ∧ (y = 0 ↔ raw = 0 ∨ raw = 65535) ∧ (y < 0 ↔ 65281 ≤ raw.toNat ∧ raw.toNat ≤ 65534))

/-- R127: GETBIT gives bit i of a word, 0 for the absent word and 0 for every index above 15. -/
def Obligations.GetbitExtractsOneBit : Prop :=
  (∀ w i, decode (.operation 0x25 [.optword w, .u8 i]) = .ok (.getbit w i)) ∧
  (∀ (i : Byte) (s : State), exec (.getbit none i) s = .next (s.endsNormally (.bit false))) ∧
  (∀ (w : Word) (i : Byte) (s : State), 15 < i.toNat →
    exec (.getbit (some w) i) s = .next (s.endsNormally (.bit false))) ∧
  (∀ (w : Word) (i : Byte) (s : State), i.toNat ≤ 15 →
    exec (.getbit (some w) i) s = .next (s.endsNormally (.bit (decide ((w >>> i.toNat) &&& 1#16 = 1#16))))) ∧
  (∀ s : State, exec (.getbit (some 0b10010000) 4) s = .next (s.endsNormally (.bit true))) ∧
  (∀ s : State, exec (.getbit (some 0b10010000) 3) s = .next (s.endsNormally (.bit false)))

/-- R128, R115: in a state the block reaches, FIELD extracts the word, then scales it, then wraps the scaled value. -/
def Obligations.FieldExtractsScalesThenWraps : Prop :=
  ∀ (s : State) (a : Word) (f : Rat), s.Inv → s.dbv = 0b1111 → a.toNat ≤ 0x016E → 0 ≤ f →
    ∃ (w : Word) (scaled : Number) (t1 t2 t3 : State), exec (.xword a) s = .next t1 ∧ t1.result = .word w ∧
      exec (.scale w f) t1 = .next t2 ∧ t2.result = .num scaled ∧
      exec (.wrap scaled) t2 = .next t3 ∧ exec (.field a f) s = .next t3 ∧ t3 = s.endsNormally t3.result

/-- R129, R133: with a factor above 0 and at most 65280/65535 a decoded field is the scaled value, never wrapped and in
[0, 65280]; with factor 0 it lies in [-254, 65280]. -/
def Obligations.SmallFactorsNeverWrap : Prop :=
  ∀ (s t : State) (a : Word) (f : Rat) (v : Number), exec (.field a f) s = .next t → t.result = .num v →
    (0 < f → f ≤ 65280 / 65535 →
      ∃ w : Word, s.db.readWord a.toNat = some w ∧ v.val = round1 (w.toNat * f) ∧ 0 ≤ v.val ∧ v.val ≤ 65280) ∧
    (f = 0 → -254 ≤ v.val ∧ v.val ≤ 65280)

/-- R130: WRAP65K subtracts 65535 strictly above 65000, and on a word it makes no difference whether the generic
wraparound was applied first, which R130 marks as derived. That the printed form of the number is kept is the model's
choice (log entry 10). -/
def Obligations.Wrap65kUsesItsOwnThreshold : Prop :=
  (∀ v, decode (.operation 0x27 [.num v]) = .ok (.wrap65k v)) ∧
  (∀ (v : Number) (s : State), 65000 < v.val →
    exec (.wrap65k v) s = .next (s.endsNormally (.num ⟨v.val - 65535, v.form⟩))) ∧
  (∀ (v : Number) (s : State), v.val ≤ 65000 → exec (.wrap65k v) s = .next (s.endsNormally (.num v))) ∧
  (∀ (raw : Word) (s t u : State) (w : Number), exec (.wrap ⟨(raw.toNat : Rat), .integer⟩) s = .next t →
    t.result = .num w → exec (.wrap65k w) t = .next u →
    exec (.wrap65k ⟨(raw.toNat : Rat), .integer⟩) t = .next u)

/-- R131: AMBFIX re-wraps the number doubled above 65000 and rounds; on the word of an ambient field decoded with
factor 0.5 that is (raw - 65535)/2 above 65000 and raw/2 otherwise, which R131 marks as derived. That a re-wrapped
number prints with one decimal, and that any other keeps its printed form, is the model's choice (log entry 10). -/
def Obligations.AmbfixRewrapsTheDoubledValue : Prop :=
  (∀ v, decode (.operation 0x28 [.num v]) = .ok (.ambfix v)) ∧
  (∀ (v : Number) (s : State), 65000 < v.val * 2 →
    exec (.ambfix v) s = .next (s.endsNormally (.num ⟨round1 ((v.val * 2 - 65535) * (1 / 2)), .oneDecimal⟩))) ∧
  (∀ (v : Number) (s : State), v.val * 2 ≤ 65000 → exec (.ambfix v) s = .next (s.endsNormally (.num v))) ∧
  (∀ (s t u : State) (a raw : Word) (v : Number), exec (.field a (1 / 2)) s = .next t → t.result = .num v →
    s.db.readWord a.toNat = some raw → exec (.ambfix v) t = .next u →
    u.result = .num ⟨if 65000 < raw.toNat then ((raw.toNat : Rat) - 65535) / 2 else (raw.toNat : Rat) / 2,
      .oneDecimal⟩)

/-- R132: LPFIX re-wraps ten times the number above 65000 and rounds; on the word of a field decoded with factor 0.1
that is (raw - 65535)/10 above 65000 and raw/10 otherwise. The threshold is the spec's decision D20. That a re-wrapped
number prints with one decimal, and that any other keeps its printed form, is the model's choice (log entry 10). -/
def Obligations.LpfixRewrapsTenTimesTheValue : Prop :=
  (∀ v, decode (.operation 0x29 [.num v]) = .ok (.lpfix v)) ∧
  (∀ (v : Number) (s : State), 65000 < v.val * 10 →
    exec (.lpfix v) s = .next (s.endsNormally (.num ⟨round1 ((v.val * 10 - 65535) * (1 / 10)), .oneDecimal⟩))) ∧
  (∀ (v : Number) (s : State), v.val * 10 ≤ 65000 → exec (.lpfix v) s = .next (s.endsNormally (.num v))) ∧
  (∀ (s t u : State) (a raw : Word) (v : Number), exec (.field a (1 / 10)) s = .next t → t.result = .num v →
    s.db.readWord a.toNat = some raw → exec (.lpfix v) t = .next u →
    u.result = .num ⟨if 65000 < raw.toNat then ((raw.toNat : Rat) - 65535) / 10 else (raw.toNat : Rat) / 10,
      .oneDecimal⟩)

/-! ## The flag unit -/

/-- R140: SETBIT or-s one bit in; an index above 15 is refused; every other bit is returned as given. -/
def Obligations.SetbitSetsOneBit : Prop :=
  (∀ w i, decode (.operation 0x30 [.u16 w, .u8 i]) = .ok (.setbit w i)) ∧
  (∀ (w : Word) (i : Byte) (s : State), 15 < i.toNat → exec (.setbit w i) s = .refused .noSuchBit) ∧
  (∀ (w : Word) (i : Byte) (s : State), i.toNat ≤ 15 →
    exec (.setbit w i) s = .next (s.endsNormally (.word (w ||| (1#16 <<< i.toNat))))) ∧
  (∀ (w : Word) (i : Byte) (s : State), i.toNat ≤ 15 → w.getLsbD i.toNat = true →
    exec (.setbit w i) s = .next (s.endsNormally (.word w))) ∧
  (∀ (w : Word) (i : Byte) (n : Nat), n ≤ 15 → n ≠ i.toNat → (setBit w i).getLsbD n = w.getLsbD n)

/-- R141: CLRBIT and-s one bit out; an index above 15 is refused. -/
def Obligations.ClrbitClearsOneBit : Prop :=
  (∀ w i, decode (.operation 0x31 [.u16 w, .u8 i]) = .ok (.clrbit w i)) ∧
  (∀ (w : Word) (i : Byte) (s : State), 15 < i.toNat → exec (.clrbit w i) s = .refused .noSuchBit) ∧
  (∀ (w : Word) (i : Byte) (s : State), i.toNat ≤ 15 →
    exec (.clrbit w i) s = .next (s.endsNormally (.word (w &&& ~~~(1#16 <<< i.toNat))))) ∧
  (∀ (w : Word) (i : Byte) (s : State), i.toNat ≤ 15 → w.getLsbD i.toNat = false →
    exec (.clrbit w i) s = .next (s.endsNormally (.word w)))

/-- R143: the laws (a) to (e) of setting and clearing bits, for all words and all indices 0 to 15. -/
def Obligations.FlagLaws : Prop :=
  ∀ (w : Word) (i j : Byte), i.toNat ≤ 15 → j.toNat ≤ 15 →
    (getBit (some (setBit w i)) j = if j = i then true else getBit (some w) j) ∧
    (getBit (some (clrBit w i)) j = if j = i then false else getBit (some w) j) ∧
    setBit (setBit w i) i = setBit w i ∧ clrBit (clrBit w i) i = clrBit w i ∧
    (i ≠ j → setBit (setBit w i) j = setBit (setBit w j) i ∧ clrBit (clrBit w i) j = clrBit (clrBit w j) i ∧
      setBit (clrBit w i) j = clrBit (setBit w j) i) ∧
    clrBit (setBit w i) i = clrBit w i ∧ setBit (clrBit w i) i = setBit w i

/-! ## The derived-value functions -/

/-- R151: FMODE: 40 if bit 1 of w41 is set, else 30 if bit 5 of w40 is, else 20 if bit 4 of w40 is, else 10; absent
words count as 0. -/
def Obligations.FmodeTakesTheLastSetBit : Prop :=
  (∀ w40 w41, decode (.operation 0x40 [.optword w40, .optword w41]) = .ok (.fmode w40 w41)) ∧
  (∀ (w40 w41 : Option Word) (s : State), ∃ m : FreqMode,
    exec (.fmode w40 w41) s = .next (s.endsNormally (.mode m)) ∧
    m.number = if (w41.getD 0).getLsbD 1 then 40 else if (w40.getD 0).getLsbD 5 then 30
      else if (w40.getD 0).getLsbD 4 then 20 else 10) ∧
  (FreqMode.smart.number = 10 ∧ FreqMode.powerful.number = 20 ∧ FreqMode.silent.number = 30 ∧
    FreqMode.holiday.number = 40)

/-- R152, R153: PUMPON is whether the speed is above 0; ANTIFRZ is the disjunction of its three inputs. -/
def Obligations.PumpAndAntiFreezeFlags : Prop :=
  (∀ v, decode (.operation 0x41 [.num v]) = .ok (.pumpon v)) ∧
  (∀ crank sec lvl1, decode (.operation 0x42 [.bool crank, .bool sec, .bool lvl1]) = .ok (.antifrz crank sec lvl1)) ∧
  (∀ (v : Number) (s : State), 0 < v.val → exec (.pumpon v) s = .next (s.endsNormally (.bool true))) ∧
  (∀ (v : Number) (s : State), v.val ≤ 0 → exec (.pumpon v) s = .next (s.endsNormally (.bool false))) ∧
  (∀ (crank sec lvl1 : Bool) (s : State), ∃ r : Bool,
    exec (.antifrz crank sec lvl1) s = .next (s.endsNormally (.bool r)) ∧
    (r = true ↔ crank = true ∨ sec = true ∨ lvl1 = true))

/-- R157, R156: ERRINT gives what the loop over the seven fault registers gives for the model's catalogue, whose lists
are in ascending order of bit index and have levels 2 and 4 only. For every catalogue, that is level 0 with the no-error text when all seven are zero, and else it comes from the highest-numbered
non-zero register alone: its first catalogue entry in list order whose bit is set, or level 3 with the unknown text. -/
def Obligations.ErrintReportsTheLastNonzeroRegister : Prop :=
  (∀ f1 f2 f3 f4 f5 f6 f7, decode (.operation 0x43 [.u16 f1, .u16 f2, .u16 f3, .u16 f4, .u16 f5, .u16 f6, .u16 f7]) =
    .ok (.errint f1 f2 f3 f4 f5 f6 f7)) ∧
  (∀ (f1 f2 f3 f4 f5 f6 f7 : Word) (s : State), ∃ (level : Nat) (text : String),
    exec (.errint f1 f2 f3 f4 f5 f6 f7) s = .next (s.endsNormally (.severity level text)) ∧
    interpretErrors catalogue Config.unknownText Config.noErrText [f1, f2, f3, f4, f5, f6, f7] = (level, text)) ∧
  (∀ n : Nat, (catalogue n).Pairwise (fun x y => x.bit < y.bit) ∧
    ∀ x ∈ catalogue n, severityLevel x.sev = 2 ∨ severityLevel x.sev = 4) ∧
  (∀ (cat : Nat → List Config.CatEntry) (unknown : Nat → String) (noErr : String),
    interpretErrors cat unknown noErr [0, 0, 0, 0, 0, 0, 0] = (0, noErr) ∧
    ∀ (fs : List Word) (n : Nat) (w : Word), fs.length = 7 → fs[n]? = some w → w ≠ 0 →
      (∀ (m : Nat) (v : Word), n < m → fs[m]? = some v → v = 0) →
      (∀ (before after : List Config.CatEntry) (e : Config.CatEntry),
        cat (n + 1) = before ++ e :: after → w.getLsbD e.bit.val = true →
        (∀ x ∈ before, w.getLsbD x.bit.val = false) →
        interpretErrors cat unknown noErr fs =
          (match e.sev with | .antiFreezeNotice => 2 | .hardwareFault => 4, e.text)) ∧
      ((∀ x ∈ cat (n + 1), w.getLsbD x.bit.val = false) →
        interpretErrors cat unknown noErr fs = (3, unknown (n + 1))))

/-! ## The request frames on the wire -/

/-- R63 to R66, R25 (3), R37, R38, R43, R44: every frame on the transmit-frame interface goes out, unchanged and after
the frames before it, and touches nothing of the block. Beside the controller's own changes, which are free, a read request changes
no byte of the controller's registers, and a write request changes at most the two bytes of its register, to the whole
value. A served read is answered with the registers it names, high byte first, or for one register with one byte; a
served write with an echo. Whether the controller serves a request, and whether it answers in another way than served, is
free (log entries 12, 13: the model's choice); so is all of it for a frame of neither request format (log entry 25). -/
def Obligations.RequestFramesGoOut : Prop :=
  (∀ (unit : Byte) (start count crc : Word) (s : State), ∃ t, exec (.rdreq unit start count crc) s = .next t ∧
    t.link.sent = s.link.sent ++ [[unit, 0x03, hi8 start, lo8 start, hi8 count, lo8 count, lo8 crc, hi8 crc]] ∧
    t = { s with ctrl := t.ctrl, freeIndex := s.freeIndex + 1,
                 link := { s.link with sent := t.link.sent, answer := t.link.answer } } ∧
    (∀ a, t.ctrl.read a = (drift s.ctrl (Config.controllerDrift s.freeIndex)).read a) ∧
    (if Config.controllerServes s.freeIndex ∧ count.toNat ≤ 127 then
      ∃ data, t.link.answer =
          (Config.controllerOddAnswer s.freeIndex).or (some (encodeFrame unit 0x03 (readPayload data))) ∧
        (∀ b, count = 1 → Config.controllerShortByte s.freeIndex = some b → data = [b]) ∧
        ((count = 1 → Config.controllerShortByte s.freeIndex = none) →
          data.length = 2 * count.toNat ∧
          ∀ j, j < count.toNat →
            let w := (t.ctrl.readWord (start.toNat + j)).getD
              (Config.controllerWord s.freeIndex (start.toNat + j))
            data[2 * j]? = some (hi8 w) ∧ data[2 * j + 1]? = some (lo8 w))
    else t.link.answer = Config.controllerOddAnswer s.freeIndex)) ∧
  (∀ (unit : Byte) (reg value crc : Word) (s : State), ∃ t, exec (.wrreq unit reg value crc) s = .next t ∧
    t.link.sent = s.link.sent ++ [[unit, 0x06, hi8 reg, lo8 reg, hi8 value, lo8 value, lo8 crc, hi8 crc]] ∧
    t = { s with ctrl := t.ctrl, freeIndex := s.freeIndex + 1,
                 link := { s.link with sent := t.link.sent, answer := t.link.answer } } ∧
    (∀ a, a ≠ 2 * reg.toNat → a ≠ 2 * reg.toNat + 1 →
      t.ctrl.read a = (drift s.ctrl (Config.controllerDrift s.freeIndex)).read a) ∧
    (if Config.controllerServes s.freeIndex then
      t.ctrl.read (2 * reg.toNat) = some (hi8 value) ∧ t.ctrl.read (2 * reg.toNat + 1) = some (lo8 value) ∧
      t.link.answer =
        (Config.controllerOddAnswer s.freeIndex).or (some (encodeFrame unit 0x06 (payload16 reg value)))
    else t.ctrl = drift s.ctrl (Config.controllerDrift s.freeIndex) ∧
      t.link.answer = Config.controllerOddAnswer s.freeIndex)) ∧
  (∀ (frame : List Byte) (s : State) (rest : List Transfer), s.pending = .transmit frame :: rest →
    frame.length ≠ 8 ∨ (frame[1]? ≠ some 0x03 ∧ frame[1]? ≠ some 0x06) →
    ∃ t, step s = .next t ∧ t.link.sent = s.link.sent ++ [frame] ∧
      t = { s with pending := rest, ctrl := t.ctrl, freeIndex := s.freeIndex + 1,
                   link := { s.link with sent := t.link.sent, answer := Config.controllerOddAnswer s.freeIndex } } ∧
      ∀ a, t.ctrl.read a = (drift s.ctrl (Config.controllerDrift s.freeIndex)).read a)

/-! ## Rules about every instruction -/

/-- R186, R27: an instruction is refused exactly in the cases, and for the reasons, of the closed list; and in a state
the block reaches, none faults. Which reason FIELD names when several hold is the model's choice (log entry 22). -/
def Obligations.RefusalsAreTheClosedList : Prop :=
  (∀ (i : Instr) (s : State) (r : Refusal), exec i s = .refused r ↔ RefusedFor s i r) ∧
  (∀ (i : Instr) (s : State) (r : Fault), s.Inv → exec i s ≠ .fault r)

/-- R180, R20, R181: every operation that ends, ends with its error's code in STATUS.ERR and the error as its result,
or with 0 and a result that is no error. Only the request frames, which are no operations, leave both. That frames
leave both is the model's choice (log entries 3, 11). -/
def Obligations.StatusErrTellsHowTheOperationEnded : Prop :=
  ∀ (i : Instr) (s t : State), exec i s = .next t →
    (∃ e : ErrorCause, t.status.err = e.code ∧ t.result = .error e ∧
      e.code ∈ [0x21, 0x22, 0x23, 0x24, 0x31, 0x32, 0x33, 0x34]) ∨
    (t.status.err = 0x00 ∧ ∀ e, t.result ≠ .error e) ∨
    ((∃ u a n c, i = .rdreq u a n c ∨ i = .wrreq u a n c) ∧ t.status = s.status ∧ t.result = s.result)

/-- R16, R17, R18, R19, R20: each element of the block changes only through the operations that the spec lists as its
writers; no instruction touches the host or what is still presented. The response frames write as ACCEPT does (log
entry 3). -/
def Obligations.EveryElementHasItsWriters : Prop :=
  ∀ (i : Instr) (s t : State), exec i s = .next t →
    ((∀ d, i ≠ .crc16 d) → (∀ b, i ≠ .validate b) → (∀ u f p, i ≠ .encode u f p) → (∀ u a n, i ≠ .encRd u a n) →
      (∀ u a v, i ≠ .encWr u a v) → (∀ b, i ≠ .accept b) → (∀ u d c, i ≠ .rdrsp u d c) →
      (∀ u a v c, i ≠ .wrrsp u a v c) → t.crc = s.crc) ∧
    ((∀ u a n, i ≠ .encRd u a n) → (∀ u a v, i ≠ .encWr u a v) → i ≠ .clrreq → t.req = s.req) ∧
    ((∀ u a n, i ≠ .encRd u a n) → (∀ u a v, i ≠ .encWr u a v) → i ≠ .clrreq → (∀ b, i ≠ .accept b) →
      (∀ u d c, i ≠ .rdrsp u d c) → (∀ u a v c, i ≠ .wrrsp u a v c) →
      t.rxb = s.rxb ∧ t.rxlen = s.rxlen ∧ t.rxok = s.rxok) ∧
    (t.rxok = false → t.rxb = s.rxb) ∧
    (i ≠ .dbclr → (∀ k, i ≠ .loadseg k) → (∀ a, t.db.read a = s.db.read a) ∧ t.dbv = s.dbv) ∧
    (i ≠ .parseWr → t.status.echo = s.status.echo ∧ t.status.warn = s.status.warn) ∧
    ((∀ u a n c, i ≠ .rdreq u a n c) → (∀ u a v c, i ≠ .wrreq u a v c) →
      (∀ a, t.ctrl.read a = s.ctrl.read a) ∧ t.link = s.link ∧ t.freeIndex = s.freeIndex) ∧
    t.host = s.host ∧ t.pending = s.pending

/-- R16, R20, R92: no instruction reads CRC or STATUS as an input: with other contents there it ends the same way, and
in states that differ in nothing but CRC and STATUS. -/
def Obligations.CrcAndStatusAreNotInputs : Prop :=
  ∀ (i : Instr) (s : State) (c : Word) (st : Status),
    (∀ r, exec i s = .refused r → exec i { s with crc := c, status := st } = .refused r) ∧
    (∀ r, exec i s = .fault r → exec i { s with crc := c, status := st } = .fault r) ∧
    (∀ t, exec i s = .next t → ∃ t', exec i { s with crc := c, status := st } = .next t' ∧
      t' = { t with crc := t'.crc, status := t'.status })

/-- R17 to R20, R46: the invariant of the block holds after reset. -/
def Obligations.ResetHasTheInvariant : Prop := State.reset.Inv

/-- R17 to R20, R46: from every state with the invariant, a step leads to a state with the invariant. In particular
RXOK = 1 always means that RXB holds a response with a good CRC, unit id and function code for the request in REQ, and
DBV[k] = 1 that every byte of segment k has a value. -/
def Obligations.StepKeepsTheInvariant : Prop :=
  ∀ s t : State, s.Inv → step s = .next t → t.Inv

/-! ## Reset -/

/-- R27, R205, R206: the reset event, from any state: CRC = 0xFFFF, no request, no response, no segment, STATUS zero;
every operation that would read unwritten state is refused; the controller, the link and the host are not affected.
That host, link and controller stay is read from R206 (log entry 20). -/
def Obligations.ResetEventLeavesNothingReadable : Prop :=
  ∀ s : State,
    let t := s.resetEvent
    t.crc = 0xFFFF ∧ t.req.valid = false ∧ t.rxok = false ∧ t.rxlen = 0 ∧ t.dbv = 0b0000 ∧
    t.status = { err := 0, echo := false, warn := false } ∧
    t.ctrl = s.ctrl ∧ t.link = s.link ∧ t.host = s.host ∧
    (∀ b, exec (.accept b) t = .refused .noRequestOutstanding) ∧
    exec .parseRd t = .refused .noAcceptedRead ∧ exec .parseRd1 t = .refused .noAcceptedRead ∧
    exec .parseWr t = .refused .noAcceptedWrite ∧
    (∀ k : Byte, k.toNat ≤ 3 → exec (.loadseg k) t = .refused .noAcceptedRead) ∧
    (∀ a, exec (.xword a) t = .refused .decodeBufferIncomplete) ∧
    (∀ a f, exec (.field a f) t = .refused .decodeBufferIncomplete)

/-! ## The host's transactions and state machines -/

/-- R164, R160, R215: a transaction, for a read or a write and for every parse step, makes one or two attempts and no
more, leaves no connection open and no request outstanding; after a failure it has made exactly two, unless a reset of
PWFC abandons it, which the log then says, and which only an event of its first or second attempt can bring (R206). An
attempt sends its frame once or not at all, closes its connection, and ends at most T_TIMEOUT after its start; one that
a reset ends in the wait for the gap has not started and sends nothing. Times and link events are the model's form (log
entries 14, 26, 30). -/
def Obligations.TransactionsAreBounded : Prop :=
  (∀ (p : Config.HostParams) (request parse : Instr) (unit fn : Byte) (a b reg : Word) (isWrite : Bool) (s t : State)
    (r : TxnResult),
    isRequest request unit fn a b → isParse parse → s.link.connected = false →
    transaction p request parse reg isWrite s = .next (r, t) →
    (∃ made n, t.host.pairs = made ++ s.host.pairs ∧ made.length ≤ 2 ∧ n ≤ made.length ∧
      (∀ q ∈ made, q.1 ≤ q.2 ∧ q.2 ≤ q.1 + p.tTimeout) ∧
      t.link.sent = s.link.sent ++ List.replicate n (encodeFrame unit fn (payload16 a b)) ∧
      ∃ new, t.host.log = s.host.log ++ new ∧
        ((∀ k seen, .abandoned reg isWrite k seen ∉ new) → 1 ≤ made.length ∧ (r = .failed → made.length = 2)) ∧
        ((∀ e ∈ s.link.script.take 2, e.reset = none) → ∀ k seen, .abandoned reg isWrite k seen ∉ new)) ∧
    t.link.connected = false ∧ t.req.valid = false ∧ t.rxok = false) ∧
  (∀ (p : Config.HostParams) (parse : Instr) (unit fn : Byte) (a b : Word) (s t : State) (v : Verdict),
    fn = 0x03 ∨ fn = 0x06 → isParse parse → s.link.connected = false →
    attempt p (encodeFrame unit fn (payload16 a b)) parse s = .next (v, t) →
    t.link.connected = false ∧ t.link.script = s.link.script.tail ∧
    ((∃ start ended, t.host.pairs = (start, ended) :: s.host.pairs ∧ s.host.now ≤ start ∧ start ≤ ended ∧
        ended ≤ start + p.tTimeout ∧ t.host.now = ended ∧
        (t.link.sent = s.link.sent ∨ t.link.sent = s.link.sent ++ [encodeFrame unit fn (payload16 a b)])) ∨
      (v = .abandoned .none ∧ t.host.pairs = s.host.pairs ∧ t.link.sent = s.link.sent)))

/-- R164 (S8): against a link that delivers, in time, responses with a bad CRC, a transaction, for a read or a write and
for every parse step, fails after exactly two attempts, each of which sent the frame and is logged with its number. When
the first attempt fails, for any cause, and the second brings in time a response that ACCEPT keeps and the parse step
takes, the transaction succeeds with that result: it has made two attempts, and the log has the first alone. The form of
the log is the model's (log entries 14, 19). -/
def Obligations.RetryExhaustionAfterTwoAttempts : Prop :=
  (∀ (p : Config.HostParams) (request parse : Instr) (unit fn : Byte) (a b reg : Word) (isWrite : Bool) (s : State)
    (b1 b2 : List Byte) (n1 n2 : Nat) (rest : List LinkEvent),
    isRequest request unit fn a b → isParse parse →
    s.link.script = ⟨.delivers b1, n1, none⟩ :: ⟨.delivers b2, n2, none⟩ :: rest → n1 ≤ p.tTimeout → n2 ≤ p.tTimeout →
    4 ≤ b1.length → b1.length ≤ 256 → validate b1 = false → 4 ≤ b2.length → b2.length ≤ 256 → validate b2 = false →
    ∃ t, transaction p request parse reg isWrite s = .next (.failed, t) ∧
      (∃ q1 q2, t.host.pairs = q2 :: q1 :: s.host.pairs) ∧
      t.link.sent = s.link.sent ++ [encodeFrame unit fn (payload16 a b), encodeFrame unit fn (payload16 a b)] ∧
      t.host.log = s.host.log ++
        [.failedAttempt reg isWrite 1 .protocolCrc, .failedAttempt reg isWrite 2 .protocolCrc] ∧
      t.link.script = rest ∧ t.crc = crc16 (frameBody b2) ∧ t.db = s.db ∧ t.dbv = s.dbv) ∧
  (∀ (p : Config.HostParams) (request parse : Instr) (unit fn : Byte) (a b reg : Word) (isWrite : Bool) (s : State)
    (e : LinkEvent) (err : ErrorCause) (b2 : List Byte) (n2 : Nat) (rest : List LinkEvent) (r : Result),
    isRequest request unit fn a b → isParse parse →
    s.link.script = e :: ⟨.delivers b2, n2, none⟩ :: rest → e.reset = none → n2 ≤ p.tTimeout →
    let frame := encodeFrame unit fn (payload16 a b)
    let latch : Req := { valid := true, unit := unit, fn := fn, a := a, b := b }
    failsWith p frame parse e { s with req := latch } err →
    (∀ u : State, u.req = latch → ∃ v w, exec (.accept b2) u = .next v ∧ v.result = .ok ∧
      exec parse v = .next w ∧ w.result = r) → (∀ cause, r ≠ .error cause) →
    ∃ t, transaction p request parse reg isWrite s = .next (.success r, t) ∧
      (∃ q1 q2, t.host.pairs = q2 :: q1 :: s.host.pairs) ∧
      t.link.sent = s.link.sent ++ (if e.fate.sends then [frame] else []) ++ [frame] ∧
      t.host.log = s.host.log ++ [.failedAttempt reg isWrite 1 err] ∧ t.link.script = rest)

/-- R206, R192: a reset of PWFC during the first attempt of a transaction, be it in the wait for the gap, while the
connection is opened, while the response is awaited, between ACCEPT and the parse step, or at the end of the attempt,
abandons the transaction: it fails with no further attempt, the block holds what reset leaves, and an attempt that was
begun counts for the gap rule. The log has the attempt; where the reset came at its end, with the error that the
connection, the time-out, ACCEPT or the parse step gave, or with the result. Where a reset can land and the form of the
log is the model's choice (log entry 26). -/
def Obligations.ResetAbandonsATransaction : Prop :=
  ∀ (p : Config.HostParams) (request parse : Instr) (unit fn : Byte) (a b reg : Word) (isWrite : Bool) (s : State)
    (e : LinkEvent) (q : ResetPoint) (rest : List LinkEvent),
    isRequest request unit fn a b → isParse parse → s.link.connected = false →
    s.link.script = e :: rest → e.reset = some q →
    let frame := encodeFrame unit fn (payload16 a b)
    let asked := { s with req := { valid := true, unit := unit, fn := fn, a := a, b := b } }
    let reached := q = .waiting ∨ q = .opening ∨ (q = .awaiting ∧ e.fate.sends = true) ∨
      (q = .accepted ∧ e.elapsed ≤ p.tTimeout ∧
        ∃ d u, arriving frame e s = some d ∧ exec (.accept d) asked = .next u ∧ u.result = .ok)
    (reached → ∃ t, transaction p request parse reg isWrite s = .next (.failed, t)) ∧
    ∀ r t, transaction p request parse reg isWrite s = .next (r, t) → reached ∨ q = .ended →
      r = .failed ∧
      t.link.sent = s.link.sent ++ (if q = .waiting ∨ q = .opening ∨ e.fate.sends = false then [] else [frame]) ∧
      t.link.script = rest ∧ t.link.connected = false ∧
      t.crc = 0xFFFF ∧ t.req.valid = false ∧ t.rxok = false ∧ t.rxlen = 0 ∧ t.dbv = 0b0000 ∧
      (∃ seen, t.host.log = s.host.log ++ [.abandoned reg isWrite 1 seen] ∧
        (q ≠ .ended → seen = .none) ∧
        (q = .ended →
          (e.fate = .noConnect → seen = .error .transportConnect) ∧
          (∀ sent, e.fate = .socketFailure sent →
            seen = .error (if p.tTimeout < e.elapsed then .transportTimeout else .transportSocket)) ∧
          (e.fate.sends = true → arriving frame e s = none → (∀ sent, e.fate ≠ .socketFailure sent) →
            seen = .error .transportTimeout) ∧
          (∀ d, arriving frame e s = some d → p.tTimeout < e.elapsed → seen = .error .transportTimeout) ∧
          (∀ d u, arriving frame e s = some d → e.elapsed ≤ p.tTimeout → exec (.accept d) asked = .next u →
            (∀ err, u.result = .error err → seen = .error err) ∧
            (u.result = .ok → ∀ v, exec parse u = .next v → seen = v.result)))) ∧
      (if q = .waiting then t.host.pairs = s.host.pairs
       else ∃ start ended, t.host.pairs = (start, ended) :: s.host.pairs ∧ ended ≤ t.host.now)

/-- R161, R162, R38, R37, R160, R164: when the link delivers the controller's answer to a read of one register in time,
RDSINGLE succeeds in one attempt with that word, high byte first; a one-byte answer is zero-extended. When the first
delivery is one that ACCEPT rejects, it succeeds in two, the frame sent twice and the first attempt logged. RDRANGE
succeeds in one attempt with the data bytes of the answer, which is at most FB_MAX bytes long. Times and link events are
the model's form (log entry 14). -/
def Obligations.ReadReturnsTheDeliveredWord : Prop :=
  ∀ (p : Config.HostParams) (unit : Byte) (reg v : Word) (b : Byte) (s : State) (n : Nat) (rest : List LinkEvent),
    n ≤ p.tTimeout →
    (s.link.script = ⟨.delivers (encodeFrame unit 0x03 [2, hi8 v, lo8 v]), n, none⟩ :: rest →
      ∃ t, rdSingle p unit reg s = .next (.success (.word v), t) ∧ t.link.script = rest ∧
        t.link.sent = s.link.sent ++ [encodeFrame unit 0x03 (payload16 reg 0x0001)] ∧ t.host.log = s.host.log) ∧
    (s.link.script = ⟨.delivers (encodeFrame unit 0x03 [1, b]), n, none⟩ :: rest →
      ∃ t, rdSingle p unit reg s = .next (.success (.word (b.setWidth 16)), t) ∧ t.link.script = rest) ∧
    (∀ (bad : List Byte) (n1 : Nat) (err : ErrorCause), n1 ≤ p.tTimeout → bad.length ≤ 256 →
      acceptError { valid := true, unit := unit, fn := 0x03, a := reg, b := 0x0001 } bad = some err →
      s.link.script = ⟨.delivers bad, n1, none⟩ ::
        ⟨.delivers (encodeFrame unit 0x03 [2, hi8 v, lo8 v]), n, none⟩ :: rest →
      ∃ t, rdSingle p unit reg s = .next (.success (.word v), t) ∧ t.link.script = rest ∧
        (∃ q1 q2, t.host.pairs = q2 :: q1 :: s.host.pairs) ∧
        t.link.sent = s.link.sent ++ [encodeFrame unit 0x03 (payload16 reg 0x0001),
          encodeFrame unit 0x03 (payload16 reg 0x0001)] ∧
        t.host.log = s.host.log ++ [.failedAttempt reg false 1 err]) ∧
    (∀ (count : Word) (d : List Byte), d.length ≤ 251 →
      s.link.script = ⟨.delivers (encodeFrame unit 0x03 (readPayload d)), n, none⟩ :: rest →
      ∃ t, rdRange p unit reg count s = .next (.success (.bytes d), t) ∧ t.link.script = rest ∧
        (∃ q, t.host.pairs = q :: s.host.pairs) ∧
        t.link.sent = s.link.sent ++ [encodeFrame unit 0x03 (payload16 reg count)] ∧ t.host.log = s.host.log)

/-- R163, R185: a write whose accepted response echoes the request is a success; one that echoes another register or
value is a success too, with a warning in the log. The form of the log is the model's (log entry 19). -/
def Obligations.WriteMismatchIsALoggedSuccess : Prop :=
  ∀ (p : Config.HostParams) (unit : Byte) (reg value reg' value' : Word) (s : State) (n : Nat)
    (rest : List LinkEvent),
    s.link.script = ⟨.delivers (encodeFrame unit 0x06 (payload16 reg' value')), n, none⟩ :: rest → n ≤ p.tTimeout →
    ∃ t, wrSingle p unit reg value s = .next (.success (.bool (decide (reg' = reg ∧ value' = value))), t) ∧
      t.link.sent = s.link.sent ++ [encodeFrame unit 0x06 (payload16 reg value)] ∧
      t.host.log = s.host.log ++ (if reg' = reg ∧ value' = value then [] else [.echoMismatch reg value]) ∧
      t.status.warn = decide (¬ (reg' = reg ∧ value' = value))

/-- R165, R213: a poll goes Reading, Decoding, Publishing, Idle and hands over one sample, or Reading, Failed, Idle and
hands over a failure and no sample; after a success all four segments are loaded; the next tick comes after T_POLL or
after T_POLL_RETRY. And when the link delivers the four segments in time, the poll succeeds in four attempts, every
register holds its two bytes of the four data fields joined, the first value is the water outlet's word in tenths, the
second the frequency mode of the words at 0x0040 and 0x0041, and every field of the register map has the value that its
operations give for those words (R46, R47, R119, R127 to R133, R151 to R153, R157). The trail and the reports are the
model's form (log entries 14, 17, 19); that the names of a sample are those of `registerMap` in order, and that the
first is the water outlet temperature under this name, is the model's choice (log entry 18). -/
def Obligations.PollFollowsItsStateMachine : Prop :=
  (∀ (p : Config.HostParams) (s t : State), poll p s = .next t →
    t.host.phase = .idle ∧
    ((t.host.trail = s.host.trail ++ [.reading, .decoding, .publishing, .idle] ∧ t.dbv = 0b1111 ∧
      t.host.nextTick = t.host.now + p.tPoll ∧
      ∃ values, t.host.reports = s.host.reports ++ [.sample values] ∧
        values.map Prod.fst = (registerMap p).map Prod.fst) ∨
     (t.host.trail = s.host.trail ++ [.reading, .failed, .idle] ∧ t.dbv ≠ 0b1111 ∧
      t.host.nextTick = t.host.now + p.tPollRetry ∧ t.host.reports = s.host.reports ++ [.pollFailed]))) ∧
  (∀ (p : Config.HostParams) (s : State) (d0 d1 d2 d3 : List Byte) (n0 n1 n2 n3 : Nat) (rest : List LinkEvent),
    (∀ f ∈ p.otherFields, legalField f.2 = true) →
    d0.length = 240 → d1.length = 240 → d2.length = 240 → d3.length = 14 →
    n0 ≤ p.tTimeout → n1 ≤ p.tTimeout → n2 ≤ p.tTimeout → n3 ≤ p.tTimeout →
    s.link.script = ⟨.delivers (encodeFrame p.unit 0x03 (readPayload d0)), n0, none⟩ ::
      ⟨.delivers (encodeFrame p.unit 0x03 (readPayload d1)), n1, none⟩ ::
      ⟨.delivers (encodeFrame p.unit 0x03 (readPayload d2)), n2, none⟩ ::
      ⟨.delivers (encodeFrame p.unit 0x03 (readPayload d3)), n3, none⟩ :: rest →
    ∃ t values w, poll p s = .next t ∧
      t.host.trail = s.host.trail ++ [.reading, .decoding, .publishing, .idle] ∧
      t.host.reports = s.host.reports ++ [.sample values] ∧
      t.link.script = rest ∧ t.host.log = s.host.log ∧
      t.link.sent = s.link.sent ++ [encodeFrame p.unit 0x03 (payload16 0x0000 0x0078),
        encodeFrame p.unit 0x03 (payload16 0x0078 0x0078), encodeFrame p.unit 0x03 (payload16 0x00F0 0x0078),
        encodeFrame p.unit 0x03 (payload16 0x0168 0x0007)] ∧
      (∀ a, a ≤ 0x016E → t.db.readWord a = xwordBytes (d0 ++ d1 ++ d2 ++ d3) a) ∧
      t.db.readWord 0x0012 = some w ∧
      values.head? = some ("water outlet temperature", .num ⟨(w.toNat : Rat) / 10, .oneDecimal⟩) ∧
      (∃ (w40 w41 : Word) (m : FreqMode), t.db.readWord 0x0040 = some w40 ∧ t.db.readWord 0x0041 = some w41 ∧
        values[1]? = some ("frequency mode", .mode m) ∧
        m.number = if w41.getLsbD 1 then 40 else if w40.getLsbD 5 then 30 else if w40.getLsbD 4 then 20 else 10) ∧
      values = (registerMap p).map fun (name, f) =>
        (name, fieldValue p (fun a => (xwordBytes (d0 ++ d1 ++ d2 ++ d3) a.toNat).getD 0) f))

/-- R166, R142, R144: ComputeTarget never fails on indices 0 to 15; a bit that no edit names is as it was read, and a
named bit is as its last edit says. When the word read and the echo arrive in time, CMD.RMW on a packed-flags register
sends the read and then one write, of the word that the edits make of the word read, and nothing else. An answer of one
byte is that word with 0x00 as its high byte, and so is written back with 0x00 there by edits of the low byte (R216). A
value for a register that is not packed is written without a read. When the read fails, nothing is written; when the
write fails, nothing more is sent; either is logged and reported, and the machine is idle again. A value for a packed
one is reached by edits that name every bit, and a command that names bits of a register that is not packed is turned
away with nothing sent (the model's choice, log entry 29). The trail, the log and the reports are the model's form (log
entries 14, 19). -/
def Obligations.EditsKeepUnnamedBits : Prop :=
  (∀ (edits : List Edit) (w : Word) (s : State),
    (∀ e ∈ edits, ∃ i : Byte, i.toNat ≤ 15 ∧ (e = .set i ∨ e = .clear i)) →
    ∃ w' t, applyEdits edits w s = .next (w', t) ∧ t.req = s.req ∧ t.link = s.link ∧
      (∀ j : Byte, j.toNat ≤ 15 → .set j ∉ edits → .clear j ∉ edits → getBit (some w') j = getBit (some w) j) ∧
      (∀ (before after : List Edit) (j : Byte), .set j ∉ after → .clear j ∉ after →
        (edits = before ++ .set j :: after → getBit (some w') j = true) ∧
        (edits = before ++ .clear j :: after → getBit (some w') j = false))) ∧
  (∀ (p : Config.HostParams) (reg w w' : Word) (answer : List Byte) (edits : List Edit) (s u : State) (n1 n2 : Nat)
    (rest : List LinkEvent),
    isPacked p reg = true → applyEdits edits w s = .next (w', u) → n1 ≤ p.tTimeout → n2 ≤ p.tTimeout →
    answer = [2, hi8 w, lo8 w] ∨ (∃ b : Byte, answer = [1, b] ∧ w = b.setWidth 16) →
    s.link.script = ⟨.delivers (encodeFrame p.unit 0x03 answer), n1, none⟩ ::
      ⟨.delivers (encodeFrame p.unit 0x06 (payload16 reg w')), n2, none⟩ :: rest →
    ∃ t, command p (rmwCommand reg edits) s = .next (true, t) ∧ t.link.script = rest ∧
      t.link.sent = s.link.sent ++ [encodeFrame p.unit 0x03 (payload16 reg 0x0001),
        encodeFrame p.unit 0x06 (payload16 reg w')] ∧
      t.host.trail = s.host.trail ++ [.readCurrent, .computeTarget, .write, .idle] ∧
      t.host.reports = s.host.reports ++ [.acknowledged (rmwCommand reg edits)] ∧ t.host.log = s.host.log ∧
      ((∃ b, answer = [1, b]) → (∀ e ∈ edits, ∃ i : Byte, i.toNat ≤ 7 ∧ (e = .set i ∨ e = .clear i)) →
        hi8 w' = 0x00)) ∧
  (∀ (p : Config.HostParams) (c : Command) (reg : Word) (edits : List Edit) (s t1 : State),
    c.legal p = true → c.packed = some (reg, edits) → s.link.connected = false →
    rdSingle p p.unit reg (s.enter .readCurrent) = .next (.failed, t1) →
    ∃ t n, command p c s = .next (false, t) ∧ t.link = t1.link ∧ n ≤ 2 ∧
      t.link.sent = s.link.sent ++ List.replicate n (encodeFrame p.unit 0x03 (payload16 reg 0x0001)) ∧
      t.host.log = t1.host.log ++ [.failedCommand reg false] ∧
      t.host.reports = s.host.reports ++ [.commandFailed c] ∧
      t.host.phase = .idle ∧ t.host.trail = s.host.trail ++ [.readCurrent, .idle]) ∧
  (∀ (p : Config.HostParams) (c : Command) (reg w w' : Word) (edits : List Edit) (s t1 t2 t3 t4 : State),
    c.legal p = true → c.packed = some (reg, edits) →
    rdSingle p p.unit reg (s.enter .readCurrent) = .next (.success (.word w), t1) →
    alreadySet c.skipIf w (t1.enter .computeTarget) = .next (false, t2) →
    applyEdits edits w t2 = .next (w', t3) →
    wrSingle p p.unit reg w' (t3.enter .write) = .next (.failed, t4) →
    ∃ t, command p c s = .next (false, t) ∧ t.link = t4.link ∧
      t.host.log = t4.host.log ++ [.failedCommand reg true] ∧
      t.host.reports = s.host.reports ++ [.commandFailed c] ∧
      t.host.phase = .idle ∧ t.host.trail = s.host.trail ++ [.readCurrent, .computeTarget, .write, .idle]) ∧
  (∀ (p : Config.HostParams) (reg value : Word) (s t1 : State), isPacked p reg = false →
    wrSingle p p.unit reg value (s.enter .write) = .next (.failed, t1) →
    ∃ t, command p (writeCommand p reg value) s = .next (false, t) ∧ t.link = t1.link ∧
      t.host.log = t1.host.log ++ [.failedCommand reg true] ∧
      t.host.reports = s.host.reports ++ [.commandFailed (writeCommand p reg value)] ∧
      t.host.phase = .idle ∧ t.host.trail = s.host.trail ++ [.write, .idle]) ∧
  (∀ (p : Config.HostParams) (reg value w : Word) (s : State), isPacked p reg = true →
    writeCommand p reg value = rmwCommand reg (wholeEdits value) ∧
    ∃ t, applyEdits (wholeEdits value) w s = .next (value, t)) ∧
  (∀ (p : Config.HostParams) (reg value : Word) (s : State) (n : Nat) (rest : List LinkEvent),
    isPacked p reg = false → n ≤ p.tTimeout →
    s.link.script = ⟨.delivers (encodeFrame p.unit 0x06 (payload16 reg value)), n, none⟩ :: rest →
    ∃ t, command p (writeCommand p reg value) s = .next (true, t) ∧ t.link.script = rest ∧
      t.link.sent = s.link.sent ++ [encodeFrame p.unit 0x06 (payload16 reg value)] ∧
      t.host.trail = s.host.trail ++ [.write, .idle] ∧
      t.host.reports = s.host.reports ++ [.acknowledged (writeCommand p reg value)] ∧ t.host.log = s.host.log) ∧
  (∀ (p : Config.HostParams) (reg : Word) (edits : List Edit) (s : State), isPacked p reg = false →
    ∃ t, command p (rmwCommand reg edits) s = .next (false, t) ∧ t.link = s.link ∧ t.ctrl = s.ctrl ∧
      t.host.reports = s.host.reports ++ [.commandFailed (rmwCommand reg edits)])

/-- R167, R166 (S10): against a controller that reports 0x003F with bit 0 clear and echoes, each in time, the Heating
command reads 0x003F, writes it with bit 0 set, then writes 1 to 0x0043, and sends nothing else; it goes ReadCurrent,
ComputeTarget, Write, Idle. Where the second write gets no response in either attempt, the first stays in effect: it is
neither repeated nor taken back, and the failure is logged and reported. The one acknowledgment, or failure, is the
model's form (log entries 19, 24). -/
def Obligations.HeatingIssuesTwoWrites : Prop :=
  ∀ (p : Config.HostParams) (w : Word) (s : State) (n1 n2 : Nat) (rest : List LinkEvent),
    getBit (some w) 0 = false → n1 ≤ p.tTimeout → n2 ≤ p.tTimeout →
    s.link.script = ⟨.delivers (encodeFrame p.unit 0x03 [2, hi8 w, lo8 w]), n1, none⟩ ::
      ⟨.delivers (encodeFrame p.unit 0x06 (payload16 0x003F (setBit w 0))), n2, none⟩ :: rest →
    let sent := [encodeFrame p.unit 0x03 (payload16 0x003F 0x0001),
      encodeFrame p.unit 0x06 (payload16 0x003F (setBit w 0)), encodeFrame p.unit 0x06 (payload16 0x0043 0x0001)]
    (∀ n3 rest', n3 ≤ p.tTimeout →
      rest = ⟨.delivers (encodeFrame p.unit 0x06 (payload16 0x0043 0x0001)), n3, none⟩ :: rest' →
      ∃ t, command p (heatingCommand p) s = .next (true, t) ∧ t.link.script = rest' ∧
        t.link.sent = s.link.sent ++ sent ∧
        t.host.trail = s.host.trail ++ [.readCurrent, .computeTarget, .write, .idle] ∧
        t.host.reports = s.host.reports ++ [.acknowledged (heatingCommand p)] ∧ t.host.log = s.host.log) ∧
    (∀ n3 n4 rest', rest = ⟨.silence, n3, none⟩ :: ⟨.silence, n4, none⟩ :: rest' →
      ∃ t, command p (heatingCommand p) s = .next (false, t) ∧ t.link.script = rest' ∧
        t.link.sent = s.link.sent ++ sent ++ [encodeFrame p.unit 0x06 (payload16 0x0043 0x0001)] ∧
        t.host.trail = s.host.trail ++ [.readCurrent, .computeTarget, .write, .idle] ∧
        t.host.reports = s.host.reports ++ [.commandFailed (heatingCommand p)] ∧
        t.host.log = s.host.log ++ [.failedAttempt 0x0043 true 1 .transportTimeout,
          .failedAttempt 0x0043 true 2 .transportTimeout, .failedCommand 0x0043 true])

/-- R211, R212: whatever events reach the host and whatever the link does, between the end of an attempt and the start
of the next there is at least T_GAP. That the gap also follows a failed attempt is the model's reading
(log entry 14). -/
def Obligations.HostKeepsTheGapRule : Prop :=
  ∀ (p : Config.HostParams) (events : List HostEvent) (s t : State),
    s.host.Gapped p.tGap → hostRun p events s = .next t → t.host.Gapped p.tGap

/-- R13, R17 to R20: whatever events reach the host and whatever the link delivers, the block keeps its invariant, and
between events no connection is open. Which events there are is the model's choice (log entries 14, 16). -/
def Obligations.HostKeepsTheInvariant : Prop :=
  ∀ (p : Config.HostParams) (events : List HostEvent) (s t : State),
    s.Inv → s.link.connected = false → hostRun p events s = .next t → t.Inv ∧ t.link.connected = false
end

