-- ==== Sys2Proof/Laws/Frame.lean ====
section
/-! SUPPORT. Byte order and frames: taking a word apart and putting it together, and the two parts of a frame. -/

namespace Sys2Proof

@[simp] theorem be16_hi8_lo8 (w : Word) : be16 (hi8 w) (lo8 w) = w := by
  apply BitVec.eq_of_getLsbD_eq
  intro i hi
  simp only [be16, hi8, lo8, BitVec.getLsbD_append, BitVec.getLsbD_extractLsb']
  by_cases h : i < 8
  · simp [h]
  · have h8 : i - 8 < 8 := by omega
    have h9 : 8 + (i - 8) = i := by omega
    simp [h, h8, h9]

@[simp] theorem hi8_be16 (h l : Byte) : hi8 (be16 h l) = h := by
  apply BitVec.eq_of_getLsbD_eq
  intro i hi
  have := BitVec.getLsbD_append (x := h) (y := l) (i := 8 + i)
  simp only [be16, hi8, BitVec.getLsbD_extractLsb', hi, decide_true, Bool.true_and]
  exact this.trans (by simp)

@[simp] theorem lo8_be16 (h l : Byte) : lo8 (be16 h l) = l := by
  apply BitVec.eq_of_getLsbD_eq
  intro i hi
  have := BitVec.getLsbD_append (x := h) (y := l) (i := 0 + i)
  simp only [be16, lo8, BitVec.getLsbD_extractLsb', hi, decide_true, Bool.true_and]
  exact this.trans (by simp [hi])

/-- R133 (b): `be16(h, l) = 256*h + l`. -/
theorem toNat_be16 (h l : Byte) : (be16 h l).toNat = 256 * h.toNat + l.toNat := by
  have hl := l.isLt
  have : (be16 h l).toNat = h.toNat <<< 8 ||| l.toNat := BitVec.toNat_append h l
  rw [this, ← Nat.shiftLeft_add_eq_or_of_lt (by simpa using hl), Nat.shiftLeft_eq]
  omega

@[simp] theorem length_payload16 (a b : Word) : (payload16 a b).length = 4 := rfl

@[simp] theorem length_frameBytes (unit fn : Byte) (p : List Byte) (c : Word) :
    (frameBytes unit fn p c).length = 4 + p.length := by
  simp [frameBytes]; omega

/-- Two words with the same two bytes are equal. -/
theorem word_ext {v w : Word} (hh : hi8 v = hi8 w) (hl : lo8 v = lo8 w) : v = w := by
  rw [← be16_hi8_lo8 v, ← be16_hi8_lo8 w, hh, hl]

end Sys2Proof

namespace Sys2Proof.Machine

@[simp] theorem length_encodeFrame (unit fn : Byte) (p : List Byte) : (encodeFrame unit fn p).length = 4 + p.length :=
  length_frameBytes ..

/-- A body of any length with a trailer of two bytes: the body comes back. -/
theorem frameBody_append (body : List Byte) (c : Word) : frameBody (body ++ trailer c) = body := by
  simp [frameBody, trailer]

theorem frameTrailer_append (body : List Byte) (c : Word) : frameTrailer (body ++ trailer c) = trailer c := by
  simp [frameTrailer, trailer]

theorem frameBytes_eq_append (unit fn : Byte) (p : List Byte) (c : Word) :
    frameBytes unit fn p c = (unit :: fn :: p) ++ trailer c := rfl

/-- Every buffer of two bytes or more is its body and its trailer. -/
theorem frameBody_append_frameTrailer (b : List Byte) : frameBody b ++ frameTrailer b = b :=
  List.take_append_drop _ _

@[simp] theorem trailer_inj {c c' : Word} : trailer c = trailer c' ↔ c = c' := by
  constructor
  · intro h
    simp only [trailer, List.cons.injEq, and_true] at h
    exact word_ext h.2 h.1
  · rintro rfl; rfl

theorem crc16_append (d e : List Byte) : crc16 (d ++ e) = e.foldl crcByte (crc16 d) := List.foldl_append

end Sys2Proof.Machine
end

