-- ==== Sys2Proof/Laws/Crc.lean ====
section
/-! SUPPORT. The CRC loop (R86) is linear, and injective in the accumulator and in each byte. -/

namespace Sys2Proof.Machine

theorem crcShift_eq (c : Word) : crcShift c = (c >>> 1) ^^^ (if c.getLsbD 0 then crcPoly else 0) := by
  unfold crcShift; split <;> simp

/-- A difference in the accumulator goes through a shift by itself. -/
theorem crcShift_xor (a b : Word) : crcShift (a ^^^ b) = crcShift a ^^^ crcShift b := by
  rw [crcShift_eq, crcShift_eq, crcShift_eq, BitVec.getLsbD_xor]
  apply BitVec.eq_of_getLsbD_eq
  intro i _
  cases a.getLsbD 0 <;> cases b.getLsbD 0 <;> simp <;>
    cases a.getLsbD (1 + i) <;> cases b.getLsbD (1 + i) <;> cases crcPoly.getLsbD i <;> rfl

/-- The bit shifted out comes back as bit 15, so no shift loses anything. -/
theorem crcShift_injective : Function.Injective crcShift := by
  intro c d h
  have hh : ∀ x : Word, (crcShift x).getLsbD 15 = x.getLsbD 0 := by
    intro x; unfold crcShift crcPoly; split <;> simp_all
  have h0 : c.getLsbD 0 = d.getLsbD 0 := by rw [← hh c, ← hh d, h]
  have hs : c >>> 1 = d >>> 1 := by
    rw [crcShift_eq, crcShift_eq, h0] at h
    exact (BitVec.xor_left_inj _).1 h
  apply BitVec.eq_of_getLsbD_eq
  intro i _
  rcases i with _ | i
  · exact h0
  · simpa [Nat.add_comm] using congrArg (fun x => x.getLsbD i) hs

theorem crcByte_left_injective (b : Byte) : Function.Injective (crcByte · b) := by
  intro c d h
  exact (BitVec.xor_left_inj _).1 (crcShift_injective.iterate 8 h)

theorem crcByte_right_injective (c : Word) : Function.Injective (crcByte c) := by
  intro a b h
  have := congrArg (fun x : Word => x.setWidth 8) ((BitVec.xor_right_inj _).1 (crcShift_injective.iterate 8 h))
  simpa using this

/-- A difference in the accumulator survives every byte string. -/
theorem foldl_crcByte_injective (d : List Byte) : Function.Injective (fun c => d.foldl crcByte c) := by
  induction d with
  | nil => intro c c' h; exact h
  | cons b d ih => intro c c' h; exact crcByte_left_injective b (ih h)

end Sys2Proof.Machine
end

