-- ==== Sys2Proof/Laws/Derived.lean ====
section
/-! SUPPORT. The error catalogue of the model (R156). -/

namespace Sys2Proof.Machine

/-- R156: the check order of the model's catalogue is ascending. -/
theorem catalogue_ascending (n : Nat) : (catalogue n).Pairwise (fun x y => x.bit < y.bit) := by
  unfold catalogue
  rw [List.pairwise_filterMap]
  refine List.Pairwise.imp ?_ (List.pairwise_lt_finRange 16)
  intro a b hab x hx y hy
  simp only [Option.map_eq_some_iff] at hx hy
  obtain ⟨u, -, rfl⟩ := hx
  obtain ⟨v, -, rfl⟩ := hy
  exact hab

end Sys2Proof.Machine
end

