-- ==== Sys2Proof/Laws/Memory.lean ====
section
/-! SUPPORT. The laws of the byte memory: read after write, the canonical form, and the words of registers. -/

namespace Sys2Proof.Machine

@[simp] theorem Memory.read_nil (a : Nat) : Memory.read [] a = none := rfl

/-- A cell above every address of the list is not read from it. -/
theorem Memory.read_eq_none_of_lt {m : Memory} {a : Nat} (h : ∀ c ∈ m, a < c.1) : m.read a = none := by
  induction m with
  | nil => rfl
  | cons x m ih =>
    have hx := h x (by simp)
    simp only [Memory.read]
    rw [if_neg (by omega)]
    exact ih fun c hc => h c (by simp [hc])

@[simp] theorem Memory.read_write_same (m : Memory) (a : Nat) (b : Byte) : (m.write a b).read a = some b := by
  induction m with
  | nil => simp [Memory.write, Memory.read]
  | cons x m ih =>
    simp only [Memory.write]
    split
    · simp [Memory.read]
    · split
      · simp [Memory.read]
      · simp [Memory.read, *]

theorem Memory.read_write_other (m : Memory) {a a' : Nat} (b : Byte) (h : a' ≠ a) :
    (m.write a b).read a' = m.read a' := by
  induction m with
  | nil => simp [Memory.write, Memory.read, h]
  | cons x m ih =>
    simp only [Memory.write]
    split
    · simp [Memory.read, h]
    · split
      · rename_i hx
        simp [Memory.read, h, ← hx]
      · simp only [Memory.read, ih]

theorem Memory.read_write (m : Memory) (a a' : Nat) (b : Byte) :
    (m.write a b).read a' = if a' = a then some b else m.read a' := by
  split
  · next h => rw [h, Memory.read_write_same]
  · next h => exact Memory.read_write_other m b h

/-- Every address listed after a write was listed before, or is the one written. -/
theorem Memory.mem_write {m : Memory} {a : Nat} {b : Byte} {c : Host.Cell} (h : c ∈ m.write a b) :
    c ∈ m ∨ c = (a, b) := by
  induction m with
  | nil => simpa [Memory.write] using h
  | cons x m ih =>
    simp only [Memory.write] at h
    split at h
    · simp at h ⊢; tauto
    · split at h
      · simp at h ⊢; tauto
      · rw [List.mem_cons] at h
        rcases h with h | h
        · exact .inl (by simp [h])
        · rcases ih h with h | h
          · exact .inl (by simp [h])
          · exact .inr h

/-- A write keeps the canonical form. -/
theorem Memory.wf_write {m : Memory} (h : m.wf) (a : Nat) (b : Byte) : (m.write a b).wf := by
  induction m with
  | nil => simp [Memory.wf, Memory.write]
  | cons x m ih =>
    have hx := (List.pairwise_cons.1 h).1
    have hm := (List.pairwise_cons.1 h).2
    simp only [Memory.write]
    split
    · next ha =>
      refine List.pairwise_cons.2 ⟨fun c hc => ?_, h⟩
      rcases List.mem_cons.1 hc with rfl | hc
      · exact ha
      · have := hx c hc; simp only at ha ⊢; omega
    · next ha =>
      split
      · next hax => exact List.pairwise_cons.2 ⟨fun c hc => by simpa [hax] using hx c hc, hm⟩
      · next hax =>
        refine List.pairwise_cons.2 ⟨fun c hc => ?_, ih hm⟩
        rcases Memory.mem_write hc with hc | rfl
        · exact hx c hc
        · simp only at ha hax ⊢; omega

theorem Memory.below_write {m : Memory} {n a : Nat} (h : ∀ c ∈ m, c.1 < n) (ha : a < n) (b : Byte) :
    ∀ c ∈ m.write a b, c.1 < n := by
  intro c hc
  rcases Memory.mem_write hc with hc | rfl
  · exact h c hc
  · exact ha

theorem Memory.wf_writeBytes {m : Memory} (h : m.wf) (a : Nat) (d : List Byte) : (m.writeBytes a d).wf := by
  induction d generalizing m a with
  | nil => exact h
  | cons b d ih => exact ih (Memory.wf_write h a b) (a + 1)

theorem Memory.below_writeBytes {m : Memory} {n a : Nat} {d : List Byte} (h : ∀ c ∈ m, c.1 < n)
    (ha : a + d.length ≤ n) : ∀ c ∈ m.writeBytes a d, c.1 < n := by
  induction d generalizing m a with
  | nil => exact h
  | cons b d ih =>
    simp only [List.length_cons] at ha
    exact ih (Memory.below_write h (by omega) b) (by omega)

/-- What a run of bytes reads as after it is written: inside, its own byte; outside, as before. -/
theorem Memory.read_writeBytes (m : Memory) (a a' : Nat) (d : List Byte) :
    (m.writeBytes a d).read a' = if h : a ≤ a' ∧ a' - a < d.length then some (d[a' - a]'h.2) else m.read a' := by
  induction d generalizing m a with
  | nil => simp [Memory.writeBytes]
  | cons b d ih =>
    simp only [Memory.writeBytes, ih, Memory.read_write, List.length_cons]
    by_cases h1 : a' = a
    · subst h1; simp
    · by_cases h2 : a + 1 ≤ a' ∧ a' - (a + 1) < d.length
      · have h3 : a ≤ a' ∧ a' - a < d.length + 1 := by omega
        have h4 : a' - a = (a' - (a + 1)) + 1 := by omega
        rw [dif_pos h2, dif_pos h3]
        simp [h4]
      · have h3 : ¬(a ≤ a' ∧ a' - a < d.length + 1) := by omega
        rw [dif_neg h2, dif_neg h3, if_neg h1]

theorem Memory.wf_writeWord {m : Memory} (h : m.wf) (a : Nat) (w : Word) : (m.writeWord a w).wf :=
  Memory.wf_write (Memory.wf_write h _ _) _ _

theorem Memory.below_writeWord {m : Memory} {n a : Nat} (h : ∀ c ∈ m, c.1 < n) (ha : 2 * a + 1 < n) (w : Word) :
    ∀ c ∈ m.writeWord a w, c.1 < n :=
  Memory.below_write (Memory.below_write h (by omega) _) ha _

/-- Two memories in canonical form that read alike are equal. -/
theorem Memory.ext_of_wf {m m' : Memory} (h : m.wf) (h' : m'.wf) (hr : ∀ a, m.read a = m'.read a) : m = m' := by
  induction m generalizing m' with
  | nil =>
    cases m' with
    | nil => rfl
    | cons x m' => simpa [Memory.read] using hr x.1
  | cons x m ih =>
    have hx := (List.pairwise_cons.1 h).1
    have hm := (List.pairwise_cons.1 h).2
    cases m' with
    | nil => simpa [Memory.read] using hr x.1
    | cons y m' =>
      have hy := (List.pairwise_cons.1 h').1
      have hm' := (List.pairwise_cons.1 h').2
      have hxy : x.1 = y.1 := by
        rcases Nat.lt_trichotomy x.1 y.1 with hlt | heq | hlt
        · have := hr x.1
          rw [Memory.read_eq_none_of_lt (m := y :: m') (a := x.1)] at this
          · simp [Memory.read] at this
          · intro c hc
            rcases List.mem_cons.1 hc with rfl | hc
            · exact hlt
            · exact Nat.lt_trans hlt (hy c hc)
        · exact heq
        · have := hr y.1
          rw [Memory.read_eq_none_of_lt (m := x :: m) (a := y.1)] at this
          · simp [Memory.read] at this
          · intro c hc
            rcases List.mem_cons.1 hc with rfl | hc
            · exact hlt
            · exact Nat.lt_trans hlt (hx c hc)
      have hxy2 : x.2 = y.2 := by simpa [Memory.read, hxy] using hr x.1
      have htl : m = m' := by
        refine ih hm hm' fun a => ?_
        by_cases ha : a = x.1
        · rw [Memory.read_eq_none_of_lt (fun c hc => ha ▸ hx c hc),
            Memory.read_eq_none_of_lt (fun c hc => (ha.trans hxy) ▸ hy c hc)]
        · have := hr a
          simpa [Memory.read, ha, hxy ▸ ha] using this
      rw [htl, Prod.ext hxy hxy2]

end Sys2Proof.Machine
end

