-- ==== Sys2Proof/Laws/State.lean ====
section
/-! SUPPORT. What each named update of State does to each field, so that no proof unfolds a record update. -/

namespace Sys2Proof.Machine

variable (s : State)

@[simp] theorem State.withCrc_crc (c : Word) : (s.withCrc c).crc = c := rfl
@[simp] theorem State.withCrc_req (c : Word) : (s.withCrc c).req = s.req := rfl
@[simp] theorem State.withCrc_rxb (c : Word) : (s.withCrc c).rxb = s.rxb := rfl
@[simp] theorem State.withCrc_rxlen (c : Word) : (s.withCrc c).rxlen = s.rxlen := rfl
@[simp] theorem State.withCrc_rxok (c : Word) : (s.withCrc c).rxok = s.rxok := rfl
@[simp] theorem State.withCrc_db (c : Word) : (s.withCrc c).db = s.db := rfl
@[simp] theorem State.withCrc_dbv (c : Word) : (s.withCrc c).dbv = s.dbv := rfl
@[simp] theorem State.withCrc_status (c : Word) : (s.withCrc c).status = s.status := rfl
@[simp] theorem State.withCrc_result (c : Word) : (s.withCrc c).result = s.result := rfl
@[simp] theorem State.withCrc_tx (c : Word) : (s.withCrc c).tx = s.tx := rfl
@[simp] theorem State.withCrc_pending (c : Word) : (s.withCrc c).pending = s.pending := rfl
@[simp] theorem State.withCrc_link (c : Word) : (s.withCrc c).link = s.link := rfl
@[simp] theorem State.withCrc_ctrl (c : Word) : (s.withCrc c).ctrl = s.ctrl := rfl
@[simp] theorem State.withCrc_host (c : Word) : (s.withCrc c).host = s.host := rfl
@[simp] theorem State.withCrc_freeIndex (c : Word) : (s.withCrc c).freeIndex = s.freeIndex := rfl

@[simp] theorem State.openRequest_crc (r : Req) : (s.openRequest r).crc = s.crc := rfl
@[simp] theorem State.openRequest_req (r : Req) : (s.openRequest r).req = r := rfl
@[simp] theorem State.openRequest_rxb (r : Req) : (s.openRequest r).rxb = s.rxb := rfl
@[simp] theorem State.openRequest_rxlen (r : Req) : (s.openRequest r).rxlen = 0 := rfl
@[simp] theorem State.openRequest_rxok (r : Req) : (s.openRequest r).rxok = false := rfl
@[simp] theorem State.openRequest_db (r : Req) : (s.openRequest r).db = s.db := rfl
@[simp] theorem State.openRequest_dbv (r : Req) : (s.openRequest r).dbv = s.dbv := rfl
@[simp] theorem State.openRequest_status (r : Req) : (s.openRequest r).status = s.status := rfl
@[simp] theorem State.openRequest_result (r : Req) : (s.openRequest r).result = s.result := rfl
@[simp] theorem State.openRequest_tx (r : Req) : (s.openRequest r).tx = s.tx := rfl
@[simp] theorem State.openRequest_pending (r : Req) : (s.openRequest r).pending = s.pending := rfl
@[simp] theorem State.openRequest_link (r : Req) : (s.openRequest r).link = s.link := rfl
@[simp] theorem State.openRequest_ctrl (r : Req) : (s.openRequest r).ctrl = s.ctrl := rfl
@[simp] theorem State.openRequest_host (r : Req) : (s.openRequest r).host = s.host := rfl
@[simp] theorem State.openRequest_freeIndex (r : Req) : (s.openRequest r).freeIndex = s.freeIndex := rfl

@[simp] theorem State.closeRequest_crc : s.closeRequest.crc = s.crc := rfl
@[simp] theorem State.closeRequest_req : s.closeRequest.req = { s.req with valid := false } := rfl
@[simp] theorem State.closeRequest_rxb : s.closeRequest.rxb = s.rxb := rfl
@[simp] theorem State.closeRequest_rxlen : s.closeRequest.rxlen = 0 := rfl
@[simp] theorem State.closeRequest_rxok : s.closeRequest.rxok = false := rfl
@[simp] theorem State.closeRequest_db : s.closeRequest.db = s.db := rfl
@[simp] theorem State.closeRequest_dbv : s.closeRequest.dbv = s.dbv := rfl
@[simp] theorem State.closeRequest_status : s.closeRequest.status = s.status := rfl
@[simp] theorem State.closeRequest_result : s.closeRequest.result = s.result := rfl
@[simp] theorem State.closeRequest_tx : s.closeRequest.tx = s.tx := rfl
@[simp] theorem State.closeRequest_pending : s.closeRequest.pending = s.pending := rfl
@[simp] theorem State.closeRequest_link : s.closeRequest.link = s.link := rfl
@[simp] theorem State.closeRequest_ctrl : s.closeRequest.ctrl = s.ctrl := rfl
@[simp] theorem State.closeRequest_host : s.closeRequest.host = s.host := rfl
@[simp] theorem State.closeRequest_freeIndex : s.closeRequest.freeIndex = s.freeIndex := rfl

@[simp] theorem State.dropResponse_crc : s.dropResponse.crc = s.crc := rfl
@[simp] theorem State.dropResponse_req : s.dropResponse.req = s.req := rfl
@[simp] theorem State.dropResponse_rxb : s.dropResponse.rxb = s.rxb := rfl
@[simp] theorem State.dropResponse_rxlen : s.dropResponse.rxlen = 0 := rfl
@[simp] theorem State.dropResponse_rxok : s.dropResponse.rxok = false := rfl
@[simp] theorem State.dropResponse_db : s.dropResponse.db = s.db := rfl
@[simp] theorem State.dropResponse_dbv : s.dropResponse.dbv = s.dbv := rfl
@[simp] theorem State.dropResponse_status : s.dropResponse.status = s.status := rfl
@[simp] theorem State.dropResponse_result : s.dropResponse.result = s.result := rfl
@[simp] theorem State.dropResponse_tx : s.dropResponse.tx = s.tx := rfl
@[simp] theorem State.dropResponse_pending : s.dropResponse.pending = s.pending := rfl
@[simp] theorem State.dropResponse_link : s.dropResponse.link = s.link := rfl
@[simp] theorem State.dropResponse_ctrl : s.dropResponse.ctrl = s.ctrl := rfl
@[simp] theorem State.dropResponse_host : s.dropResponse.host = s.host := rfl
@[simp] theorem State.dropResponse_freeIndex : s.dropResponse.freeIndex = s.freeIndex := rfl

@[simp] theorem State.keepResponse_crc (b : List Byte) : (s.keepResponse b).crc = s.crc := rfl
@[simp] theorem State.keepResponse_req (b : List Byte) : (s.keepResponse b).req = s.req := rfl
@[simp] theorem State.keepResponse_rxb (b : List Byte) : (s.keepResponse b).rxb = storeBytes s.rxb b := rfl
@[simp] theorem State.keepResponse_rxlen (b : List Byte) : (s.keepResponse b).rxlen = BitVec.ofNat 9 b.length := rfl
@[simp] theorem State.keepResponse_rxok (b : List Byte) : (s.keepResponse b).rxok = true := rfl
@[simp] theorem State.keepResponse_db (b : List Byte) : (s.keepResponse b).db = s.db := rfl
@[simp] theorem State.keepResponse_dbv (b : List Byte) : (s.keepResponse b).dbv = s.dbv := rfl
@[simp] theorem State.keepResponse_status (b : List Byte) : (s.keepResponse b).status = s.status := rfl
@[simp] theorem State.keepResponse_result (b : List Byte) : (s.keepResponse b).result = s.result := rfl
@[simp] theorem State.keepResponse_tx (b : List Byte) : (s.keepResponse b).tx = s.tx := rfl
@[simp] theorem State.keepResponse_pending (b : List Byte) : (s.keepResponse b).pending = s.pending := rfl
@[simp] theorem State.keepResponse_link (b : List Byte) : (s.keepResponse b).link = s.link := rfl
@[simp] theorem State.keepResponse_ctrl (b : List Byte) : (s.keepResponse b).ctrl = s.ctrl := rfl
@[simp] theorem State.keepResponse_host (b : List Byte) : (s.keepResponse b).host = s.host := rfl
@[simp] theorem State.keepResponse_freeIndex (b : List Byte) : (s.keepResponse b).freeIndex = s.freeIndex := rfl

@[simp] theorem State.emit_crc (f : List Byte) : (s.emit f).crc = s.crc := rfl
@[simp] theorem State.emit_req (f : List Byte) : (s.emit f).req = s.req := rfl
@[simp] theorem State.emit_rxb (f : List Byte) : (s.emit f).rxb = s.rxb := rfl
@[simp] theorem State.emit_rxlen (f : List Byte) : (s.emit f).rxlen = s.rxlen := rfl
@[simp] theorem State.emit_rxok (f : List Byte) : (s.emit f).rxok = s.rxok := rfl
@[simp] theorem State.emit_db (f : List Byte) : (s.emit f).db = s.db := rfl
@[simp] theorem State.emit_dbv (f : List Byte) : (s.emit f).dbv = s.dbv := rfl
@[simp] theorem State.emit_status (f : List Byte) : (s.emit f).status = s.status := rfl
@[simp] theorem State.emit_result (f : List Byte) : (s.emit f).result = s.result := rfl
@[simp] theorem State.emit_tx (f : List Byte) : (s.emit f).tx = f := rfl
@[simp] theorem State.emit_pending (f : List Byte) : (s.emit f).pending = s.pending := rfl
@[simp] theorem State.emit_link (f : List Byte) : (s.emit f).link = s.link := rfl
@[simp] theorem State.emit_ctrl (f : List Byte) : (s.emit f).ctrl = s.ctrl := rfl
@[simp] theorem State.emit_host (f : List Byte) : (s.emit f).host = s.host := rfl
@[simp] theorem State.emit_freeIndex (f : List Byte) : (s.emit f).freeIndex = s.freeIndex := rfl

@[simp] theorem State.clearDecode_crc : s.clearDecode.crc = s.crc := rfl
@[simp] theorem State.clearDecode_req : s.clearDecode.req = s.req := rfl
@[simp] theorem State.clearDecode_rxb : s.clearDecode.rxb = s.rxb := rfl
@[simp] theorem State.clearDecode_rxlen : s.clearDecode.rxlen = s.rxlen := rfl
@[simp] theorem State.clearDecode_rxok : s.clearDecode.rxok = s.rxok := rfl
@[simp] theorem State.clearDecode_db : s.clearDecode.db = [] := rfl
@[simp] theorem State.clearDecode_dbv : s.clearDecode.dbv = 0b0000 := rfl
@[simp] theorem State.clearDecode_status : s.clearDecode.status = s.status := rfl
@[simp] theorem State.clearDecode_result : s.clearDecode.result = s.result := rfl
@[simp] theorem State.clearDecode_tx : s.clearDecode.tx = s.tx := rfl
@[simp] theorem State.clearDecode_pending : s.clearDecode.pending = s.pending := rfl
@[simp] theorem State.clearDecode_link : s.clearDecode.link = s.link := rfl
@[simp] theorem State.clearDecode_ctrl : s.clearDecode.ctrl = s.ctrl := rfl
@[simp] theorem State.clearDecode_host : s.clearDecode.host = s.host := rfl
@[simp] theorem State.clearDecode_freeIndex : s.clearDecode.freeIndex = s.freeIndex := rfl

@[simp] theorem State.loadSegment_crc (k : Nat) (a : Word) (d : List Byte) : (s.loadSegment k a d).crc = s.crc := rfl
@[simp] theorem State.loadSegment_req (k : Nat) (a : Word) (d : List Byte) : (s.loadSegment k a d).req = s.req := rfl
@[simp] theorem State.loadSegment_rxb (k : Nat) (a : Word) (d : List Byte) : (s.loadSegment k a d).rxb = s.rxb := rfl
@[simp] theorem State.loadSegment_rxlen (k : Nat) (a : Word) (d : List Byte) : (s.loadSegment k a d).rxlen = s.rxlen := rfl
@[simp] theorem State.loadSegment_rxok (k : Nat) (a : Word) (d : List Byte) : (s.loadSegment k a d).rxok = s.rxok := rfl
@[simp] theorem State.loadSegment_db (k : Nat) (a : Word) (d : List Byte) : (s.loadSegment k a d).db = s.db.writeBytes (2 * a.toNat) d := rfl
@[simp] theorem State.loadSegment_dbv (k : Nat) (a : Word) (d : List Byte) : (s.loadSegment k a d).dbv = s.dbv ||| (1#4 <<< k) := rfl
@[simp] theorem State.loadSegment_status (k : Nat) (a : Word) (d : List Byte) : (s.loadSegment k a d).status = s.status := rfl
@[simp] theorem State.loadSegment_result (k : Nat) (a : Word) (d : List Byte) : (s.loadSegment k a d).result = s.result := rfl
@[simp] theorem State.loadSegment_tx (k : Nat) (a : Word) (d : List Byte) : (s.loadSegment k a d).tx = s.tx := rfl
@[simp] theorem State.loadSegment_pending (k : Nat) (a : Word) (d : List Byte) : (s.loadSegment k a d).pending = s.pending := rfl
@[simp] theorem State.loadSegment_link (k : Nat) (a : Word) (d : List Byte) : (s.loadSegment k a d).link = s.link := rfl
@[simp] theorem State.loadSegment_ctrl (k : Nat) (a : Word) (d : List Byte) : (s.loadSegment k a d).ctrl = s.ctrl := rfl
@[simp] theorem State.loadSegment_host (k : Nat) (a : Word) (d : List Byte) : (s.loadSegment k a d).host = s.host := rfl
@[simp] theorem State.loadSegment_freeIndex (k : Nat) (a : Word) (d : List Byte) : (s.loadSegment k a d).freeIndex = s.freeIndex := rfl

@[simp] theorem State.withPending_crc (p : List Transfer) : (s.withPending p).crc = s.crc := rfl
@[simp] theorem State.withPending_req (p : List Transfer) : (s.withPending p).req = s.req := rfl
@[simp] theorem State.withPending_rxb (p : List Transfer) : (s.withPending p).rxb = s.rxb := rfl
@[simp] theorem State.withPending_rxlen (p : List Transfer) : (s.withPending p).rxlen = s.rxlen := rfl
@[simp] theorem State.withPending_rxok (p : List Transfer) : (s.withPending p).rxok = s.rxok := rfl
@[simp] theorem State.withPending_db (p : List Transfer) : (s.withPending p).db = s.db := rfl
@[simp] theorem State.withPending_dbv (p : List Transfer) : (s.withPending p).dbv = s.dbv := rfl
@[simp] theorem State.withPending_status (p : List Transfer) : (s.withPending p).status = s.status := rfl
@[simp] theorem State.withPending_result (p : List Transfer) : (s.withPending p).result = s.result := rfl
@[simp] theorem State.withPending_tx (p : List Transfer) : (s.withPending p).tx = s.tx := rfl
@[simp] theorem State.withPending_pending (p : List Transfer) : (s.withPending p).pending = p := rfl
@[simp] theorem State.withPending_link (p : List Transfer) : (s.withPending p).link = s.link := rfl
@[simp] theorem State.withPending_ctrl (p : List Transfer) : (s.withPending p).ctrl = s.ctrl := rfl
@[simp] theorem State.withPending_host (p : List Transfer) : (s.withPending p).host = s.host := rfl
@[simp] theorem State.withPending_freeIndex (p : List Transfer) : (s.withPending p).freeIndex = s.freeIndex := rfl

@[simp] theorem State.transmitted_crc (f : List Byte) (m : Memory) (x : Option (List Byte)) : (s.transmitted f m x).crc = s.crc := rfl
@[simp] theorem State.transmitted_req (f : List Byte) (m : Memory) (x : Option (List Byte)) : (s.transmitted f m x).req = s.req := rfl
@[simp] theorem State.transmitted_rxb (f : List Byte) (m : Memory) (x : Option (List Byte)) : (s.transmitted f m x).rxb = s.rxb := rfl
@[simp] theorem State.transmitted_rxlen (f : List Byte) (m : Memory) (x : Option (List Byte)) : (s.transmitted f m x).rxlen = s.rxlen := rfl
@[simp] theorem State.transmitted_rxok (f : List Byte) (m : Memory) (x : Option (List Byte)) : (s.transmitted f m x).rxok = s.rxok := rfl
@[simp] theorem State.transmitted_db (f : List Byte) (m : Memory) (x : Option (List Byte)) : (s.transmitted f m x).db = s.db := rfl
@[simp] theorem State.transmitted_dbv (f : List Byte) (m : Memory) (x : Option (List Byte)) : (s.transmitted f m x).dbv = s.dbv := rfl
@[simp] theorem State.transmitted_status (f : List Byte) (m : Memory) (x : Option (List Byte)) : (s.transmitted f m x).status = s.status := rfl
@[simp] theorem State.transmitted_result (f : List Byte) (m : Memory) (x : Option (List Byte)) : (s.transmitted f m x).result = s.result := rfl
@[simp] theorem State.transmitted_tx (f : List Byte) (m : Memory) (x : Option (List Byte)) : (s.transmitted f m x).tx = s.tx := rfl
@[simp] theorem State.transmitted_pending (f : List Byte) (m : Memory) (x : Option (List Byte)) : (s.transmitted f m x).pending = s.pending := rfl
@[simp] theorem State.transmitted_link (f : List Byte) (m : Memory) (x : Option (List Byte)) : (s.transmitted f m x).link = { s.link with sent := s.link.sent ++ [f], answer := x } := rfl
@[simp] theorem State.transmitted_ctrl (f : List Byte) (m : Memory) (x : Option (List Byte)) : (s.transmitted f m x).ctrl = m := rfl
@[simp] theorem State.transmitted_host (f : List Byte) (m : Memory) (x : Option (List Byte)) : (s.transmitted f m x).host = s.host := rfl
@[simp] theorem State.transmitted_freeIndex (f : List Byte) (m : Memory) (x : Option (List Byte)) : (s.transmitted f m x).freeIndex = s.freeIndex + 1 := rfl

@[simp] theorem State.ended_crc (e : Byte) (r : Result) : (s.ended e r).crc = s.crc := rfl
@[simp] theorem State.ended_req (e : Byte) (r : Result) : (s.ended e r).req = s.req := rfl
@[simp] theorem State.ended_rxb (e : Byte) (r : Result) : (s.ended e r).rxb = s.rxb := rfl
@[simp] theorem State.ended_rxlen (e : Byte) (r : Result) : (s.ended e r).rxlen = s.rxlen := rfl
@[simp] theorem State.ended_rxok (e : Byte) (r : Result) : (s.ended e r).rxok = s.rxok := rfl
@[simp] theorem State.ended_db (e : Byte) (r : Result) : (s.ended e r).db = s.db := rfl
@[simp] theorem State.ended_dbv (e : Byte) (r : Result) : (s.ended e r).dbv = s.dbv := rfl
@[simp] theorem State.ended_status (e : Byte) (r : Result) : (s.ended e r).status = { s.status with err := e } := rfl
@[simp] theorem State.ended_result (e : Byte) (r : Result) : (s.ended e r).result = r := rfl
@[simp] theorem State.ended_tx (e : Byte) (r : Result) : (s.ended e r).tx = s.tx := rfl
@[simp] theorem State.ended_pending (e : Byte) (r : Result) : (s.ended e r).pending = s.pending := rfl
@[simp] theorem State.ended_link (e : Byte) (r : Result) : (s.ended e r).link = s.link := rfl
@[simp] theorem State.ended_ctrl (e : Byte) (r : Result) : (s.ended e r).ctrl = s.ctrl := rfl
@[simp] theorem State.ended_host (e : Byte) (r : Result) : (s.ended e r).host = s.host := rfl
@[simp] theorem State.ended_freeIndex (e : Byte) (r : Result) : (s.ended e r).freeIndex = s.freeIndex := rfl

@[simp] theorem State.withEcho_crc (x : Bool) : (s.withEcho x).crc = s.crc := rfl
@[simp] theorem State.withEcho_req (x : Bool) : (s.withEcho x).req = s.req := rfl
@[simp] theorem State.withEcho_rxb (x : Bool) : (s.withEcho x).rxb = s.rxb := rfl
@[simp] theorem State.withEcho_rxlen (x : Bool) : (s.withEcho x).rxlen = s.rxlen := rfl
@[simp] theorem State.withEcho_rxok (x : Bool) : (s.withEcho x).rxok = s.rxok := rfl
@[simp] theorem State.withEcho_db (x : Bool) : (s.withEcho x).db = s.db := rfl
@[simp] theorem State.withEcho_dbv (x : Bool) : (s.withEcho x).dbv = s.dbv := rfl
@[simp] theorem State.withEcho_status (x : Bool) : (s.withEcho x).status = { s.status with echo := x, warn := !x } := rfl
@[simp] theorem State.withEcho_result (x : Bool) : (s.withEcho x).result = s.result := rfl
@[simp] theorem State.withEcho_tx (x : Bool) : (s.withEcho x).tx = s.tx := rfl
@[simp] theorem State.withEcho_pending (x : Bool) : (s.withEcho x).pending = s.pending := rfl
@[simp] theorem State.withEcho_link (x : Bool) : (s.withEcho x).link = s.link := rfl
@[simp] theorem State.withEcho_ctrl (x : Bool) : (s.withEcho x).ctrl = s.ctrl := rfl
@[simp] theorem State.withEcho_host (x : Bool) : (s.withEcho x).host = s.host := rfl
@[simp] theorem State.withEcho_freeIndex (x : Bool) : (s.withEcho x).freeIndex = s.freeIndex := rfl

@[simp] theorem State.withHost_crc (h : HostState) : (s.withHost h).crc = s.crc := rfl
@[simp] theorem State.withHost_req (h : HostState) : (s.withHost h).req = s.req := rfl
@[simp] theorem State.withHost_rxb (h : HostState) : (s.withHost h).rxb = s.rxb := rfl
@[simp] theorem State.withHost_rxlen (h : HostState) : (s.withHost h).rxlen = s.rxlen := rfl
@[simp] theorem State.withHost_rxok (h : HostState) : (s.withHost h).rxok = s.rxok := rfl
@[simp] theorem State.withHost_db (h : HostState) : (s.withHost h).db = s.db := rfl
@[simp] theorem State.withHost_dbv (h : HostState) : (s.withHost h).dbv = s.dbv := rfl
@[simp] theorem State.withHost_status (h : HostState) : (s.withHost h).status = s.status := rfl
@[simp] theorem State.withHost_result (h : HostState) : (s.withHost h).result = s.result := rfl
@[simp] theorem State.withHost_tx (h : HostState) : (s.withHost h).tx = s.tx := rfl
@[simp] theorem State.withHost_pending (h : HostState) : (s.withHost h).pending = s.pending := rfl
@[simp] theorem State.withHost_link (h : HostState) : (s.withHost h).link = s.link := rfl
@[simp] theorem State.withHost_ctrl (h : HostState) : (s.withHost h).ctrl = s.ctrl := rfl
@[simp] theorem State.withHost_host (h : HostState) : (s.withHost h).host = h := rfl
@[simp] theorem State.withHost_freeIndex (h : HostState) : (s.withHost h).freeIndex = s.freeIndex := rfl

@[simp] theorem State.withLink_crc (l : Link) : (s.withLink l).crc = s.crc := rfl
@[simp] theorem State.withLink_req (l : Link) : (s.withLink l).req = s.req := rfl
@[simp] theorem State.withLink_rxb (l : Link) : (s.withLink l).rxb = s.rxb := rfl
@[simp] theorem State.withLink_rxlen (l : Link) : (s.withLink l).rxlen = s.rxlen := rfl
@[simp] theorem State.withLink_rxok (l : Link) : (s.withLink l).rxok = s.rxok := rfl
@[simp] theorem State.withLink_db (l : Link) : (s.withLink l).db = s.db := rfl
@[simp] theorem State.withLink_dbv (l : Link) : (s.withLink l).dbv = s.dbv := rfl
@[simp] theorem State.withLink_status (l : Link) : (s.withLink l).status = s.status := rfl
@[simp] theorem State.withLink_result (l : Link) : (s.withLink l).result = s.result := rfl
@[simp] theorem State.withLink_tx (l : Link) : (s.withLink l).tx = s.tx := rfl
@[simp] theorem State.withLink_pending (l : Link) : (s.withLink l).pending = s.pending := rfl
@[simp] theorem State.withLink_link (l : Link) : (s.withLink l).link = l := rfl
@[simp] theorem State.withLink_ctrl (l : Link) : (s.withLink l).ctrl = s.ctrl := rfl
@[simp] theorem State.withLink_host (l : Link) : (s.withLink l).host = s.host := rfl
@[simp] theorem State.withLink_freeIndex (l : Link) : (s.withLink l).freeIndex = s.freeIndex := rfl

end Sys2Proof.Machine
end

