-- ==== Sys2Proof/Laws/Ops.lean ====
section
/-! SUPPORT. One lemma per shared operation that says once everything it can do. -/

namespace Sys2Proof.Machine

/-! ## Outcomes -/

section
variable {α β : Type} {f : α → Host.Outcome β Fault Refusal}

@[simp] theorem andThen_next (a : α) : andThen (.next a) f = f a := rfl
@[simp] theorem andThen_fault (r : Fault) : andThen (.fault r) f = .fault r := rfl
@[simp] theorem andThen_refused (r : Refusal) : andThen (.refused r) f = .refused r := rfl

/-- A sequence answers next only through a next of its first part. -/
theorem andThen_eq_next {o : Host.Outcome α Fault Refusal} {b : β} :
    andThen o f = .next b ↔ ∃ a, o = .next a ∧ f a = .next b := by
  cases o <;> simp

theorem andThen_eq_refused {o : Host.Outcome α Fault Refusal} {r : Refusal} :
    andThen o f = .refused r ↔ o = .refused r ∨ ∃ a, o = .next a ∧ f a = .refused r := by
  cases o <;> simp

theorem andThen_eq_fault {o : Host.Outcome α Fault Refusal} {r : Fault} :
    andThen o f = .fault r ↔ o = .fault r ∨ ∃ a, o = .next a ∧ f a = .fault r := by
  cases o <;> simp
end

theorem finish_def (r : Result) (s : State) : finish r s = .next (s.ended 0x00 r) := rfl

theorem raiseError_def (e : ErrorCause) (s : State) : raiseError e s = .next (s.ended e.code (.error e)) := rfl

@[simp] theorem finish_eq_next {r : Result} {s t : State} : finish r s = .next t ↔ t = s.ended 0x00 r := by
  simp [finish_def, eq_comm]

@[simp] theorem raiseError_eq_next {e : ErrorCause} {s t : State} :
    raiseError e s = .next t ↔ t = s.ended e.code (.error e) := by
  simp [raiseError_def, eq_comm]

@[simp] theorem finish_ne_refused {r : Result} {s : State} {q : Refusal} : finish r s ≠ .refused q := by
  simp [finish_def]

@[simp] theorem raiseError_ne_refused {e : ErrorCause} {s : State} {q : Refusal} : raiseError e s ≠ .refused q := by
  simp [raiseError_def]

@[simp] theorem finish_ne_fault {r : Result} {s : State} {q : Fault} : finish r s ≠ .fault q := by
  simp [finish_def]

@[simp] theorem raiseError_ne_fault {e : ErrorCause} {s : State} {q : Fault} : raiseError e s ≠ .fault q := by
  simp [raiseError_def]

/-- No error has the code of a normal end (R181). -/
@[simp] theorem ErrorCause.code_ne_zero (e : ErrorCause) : e.code ≠ 0 := by cases e <;> decide

/-- Different causes have different codes (R181). -/
theorem ErrorCause.code_inj {e e' : ErrorCause} : e.code = e'.code → e = e' := by
  cases e <;> cases e' <;> decide

/-! ## The receive buffer -/

theorem getElem_storeBytes (rxb : Vector Byte 256) (b : List Byte) (i : Nat) (hi : i < 256) :
    (storeBytes rxb b)[i] = if h : i < b.length then b[i] else rxb[i] := by
  unfold storeBytes
  simp

/-- The stored bytes come back whole when they fit. -/
theorem take_storeBytes (rxb : Vector Byte 256) {b : List Byte} (h : b.length ≤ 256) :
    (storeBytes rxb b).toList.take b.length = b := by
  apply List.ext_getElem
  · simp [h]
  · intro i h1 h2
    simp [getElem_storeBytes, h2]

theorem toNat_rxlen_of_le {n : Nat} (h : n ≤ 256) : (BitVec.ofNat 9 n).toNat = n := by
  simp; omega

theorem rxBytes_keepResponse (s : State) {b : List Byte} (h : b.length ≤ 256) : (s.keepResponse b).rxBytes = b := by
  simp [State.rxBytes, h, take_storeBytes, Nat.mod_eq_of_lt (by omega : b.length < 512)]

@[simp] theorem rxBytes_ended (s : State) (e : Byte) (r : Result) : (s.ended e r).rxBytes = s.rxBytes := rfl

/-! ## ACCEPT -/

@[simp] theorem judging_req (s : State) (b : List Byte) : (s.judging b).req = s.req := by
  unfold State.judging; split <;> rfl
@[simp] theorem judging_rxb (s : State) (b : List Byte) : (s.judging b).rxb = s.rxb := by
  unfold State.judging; split <;> rfl
@[simp] theorem judging_rxok (s : State) (b : List Byte) : (s.judging b).rxok = false := by
  unfold State.judging; split <;> rfl
@[simp] theorem judging_rxlen (s : State) (b : List Byte) : (s.judging b).rxlen = 0 := by
  unfold State.judging; split <;> rfl
@[simp] theorem judging_db (s : State) (b : List Byte) : (s.judging b).db = s.db := by
  unfold State.judging; split <;> rfl
@[simp] theorem judging_dbv (s : State) (b : List Byte) : (s.judging b).dbv = s.dbv := by
  unfold State.judging; split <;> rfl
@[simp] theorem judging_status (s : State) (b : List Byte) : (s.judging b).status = s.status := by
  unfold State.judging; split <;> rfl
@[simp] theorem judging_result (s : State) (b : List Byte) : (s.judging b).result = s.result := by
  unfold State.judging; split <;> rfl
@[simp] theorem judging_tx (s : State) (b : List Byte) : (s.judging b).tx = s.tx := by
  unfold State.judging; split <;> rfl
@[simp] theorem judging_pending (s : State) (b : List Byte) : (s.judging b).pending = s.pending := by
  unfold State.judging; split <;> rfl
@[simp] theorem judging_link (s : State) (b : List Byte) : (s.judging b).link = s.link := by
  unfold State.judging; split <;> rfl
@[simp] theorem judging_ctrl (s : State) (b : List Byte) : (s.judging b).ctrl = s.ctrl := by
  unfold State.judging; split <;> rfl
@[simp] theorem judging_host (s : State) (b : List Byte) : (s.judging b).host = s.host := by
  unfold State.judging; split <;> rfl
@[simp] theorem judging_freeIndex (s : State) (b : List Byte) : (s.judging b).freeIndex = s.freeIndex := by
  unfold State.judging; split <;> rfl

theorem judging_crc (s : State) (b : List Byte) :
    (s.judging b).crc = if b.length < 4 then s.crc else crc16 (frameBody b) := by
  unfold State.judging minFrame; split <;> rfl

/-- A response passes exactly when its CRC validates and its first two bytes are the request's. -/
theorem acceptError_eq_none {r : Req} {b : List Byte} :
    acceptError r b = none ↔ validate b = true ∧ b[0]? = some r.unit ∧ b[1]? = some r.fn := by
  unfold acceptError
  constructor
  · intro h
    split at h; · cases h
    split at h; · cases h
    split at h; · cases h
    split at h; · cases h
    simp_all
  · rintro ⟨hv, h0, h1⟩
    have hl : minFrame ≤ b.length := by
      simp only [validate, Bool.and_eq_true, decide_eq_true_eq] at hv
      exact hv.1
    rw [if_neg (by omega), if_neg (by simp [hv]), if_neg (by simp [h0]), if_neg (by simp [h1])]

/-- Everything ACCEPT can do when it answers next (R98). -/
theorem acceptBytes_eq_next {b : List Byte} {s t : State} :
    acceptBytes b s = .next t ↔ s.req.valid = true ∧ b.length ≤ 256 ∧
      ((∃ e, acceptError s.req b = some e ∧ t = (s.judging b).ended e.code (.error e)) ∨
       (acceptError s.req b = none ∧ t = ((s.judging b).keepResponse b).ended 0x00 .ok)) := by
  unfold acceptBytes fbMax
  by_cases hv : s.req.valid = false
  · simp [hv]
  · by_cases hl : 256 < b.length
    · simp [hv, hl]
    · rw [if_neg hv, if_neg hl]
      cases he : acceptError s.req b with
      | some e => simp [Bool.not_eq_false _ ▸ hv, Nat.not_lt.1 hl]
      | none => simp [Bool.not_eq_false _ ▸ hv, Nat.not_lt.1 hl]

theorem acceptBytes_eq_refused {b : List Byte} {s : State} {r : Refusal} :
    acceptBytes b s = .refused r ↔
      (s.req.valid = false ∧ r = .noRequestOutstanding) ∨
      (s.req.valid = true ∧ 256 < b.length ∧ r = .responseTooLong) := by
  unfold acceptBytes fbMax
  by_cases hv : s.req.valid = false
  · simp [hv, eq_comm]
  · by_cases hl : 256 < b.length
    · simp [hv, hl, eq_comm]
    · rw [if_neg hv, if_neg hl]
      cases acceptError s.req b <;> simp [hv, hl]

theorem acceptBytes_ne_fault {b : List Byte} {s : State} {r : Fault} : acceptBytes b s ≠ .fault r := by
  unfold acceptBytes
  split; · simp
  split; · simp
  cases acceptError s.req b <;> simp

/-! ## Reading the response -/

/-- The three ways to read the data of a read response (R99), each under its own condition. -/
theorem readData_cases (s : State) :
    (s.hasResponse fnRead = false ∧ readData s = .refused .noAcceptedRead) ∨
    (s.hasResponse fnRead = true ∧ s.rxlen.toNat < 5 ∧ readData s = .error .decodeShort) ∨
    (s.hasResponse fnRead = true ∧ 5 ≤ s.rxlen.toNat ∧ (s.rxb[2]).toNat ≠ s.rxlen.toNat - 5 ∧
      readData s = .error .decodeCount) ∨
    (s.hasResponse fnRead = true ∧ 5 ≤ s.rxlen.toNat ∧ (s.rxb[2]).toNat = s.rxlen.toNat - 5 ∧
      readData s = .data ((s.rxb.toList.drop 3).take (s.rxb[2]).toNat)) := by
  unfold readData
  by_cases hr : s.hasResponse fnRead = false
  · exact .inl ⟨hr, if_pos hr⟩
  · have hr' : s.hasResponse fnRead = true := by rw [← Bool.not_eq_false]; exact hr
    rw [if_neg hr]
    by_cases hl : s.rxlen.toNat < 5
    · exact .inr (.inl ⟨hr', hl, if_pos hl⟩)
    · rw [if_neg hl]
      by_cases hc : (s.rxb[2]).toNat ≠ s.rxlen.toNat - 5
      · exact .inr (.inr (.inl ⟨hr', by omega, hc, if_pos hc⟩))
      · exact .inr (.inr (.inr ⟨hr', by omega, not_not.1 hc, if_neg hc⟩))

theorem readData_eq_data {s : State} {d : List Byte} (h : readData s = .data d) :
    s.hasResponse fnRead = true ∧ 5 ≤ s.rxlen.toNat ∧ (s.rxb[2]).toNat = s.rxlen.toNat - 5 ∧
      d = (s.rxb.toList.drop 3).take (s.rxb[2]).toNat := by
  rcases readData_cases s with ⟨_, hd⟩ | ⟨_, _, hd⟩ | ⟨_, _, _, hd⟩ | ⟨h1, h2, h3, hd⟩
  all_goals rw [hd] at h
  all_goals cases h
  exact ⟨h1, h2, h3, rfl⟩

theorem readData_eq_refused {s : State} {r : Refusal} :
    readData s = .refused r ↔ s.hasResponse fnRead = false ∧ r = .noAcceptedRead := by
  rcases readData_cases s with ⟨h1, hd⟩ | ⟨h1, _, hd⟩ | ⟨h1, _, _, hd⟩ | ⟨h1, _, _, hd⟩ <;> rw [hd, h1] <;> simp [eq_comm]

/-! ## Reading the decode buffer -/

theorem decodeWord_eq_next {s : State} {a w : Word} :
    decodeWord s a = .next w ↔ s.dbv = 0xF#4 ∧ a.toNat ≤ 0x016E ∧ s.db.readWord a.toNat = some w := by
  unfold decodeWord
  by_cases hd : s.dbv = 0xF#4
  · by_cases ha : 0x016E < a.toNat
    · simp [hd, ha]
    · cases hw : s.db.readWord a.toNat <;> simp [hd, ha, Nat.not_lt.1 ha]
  · simp [hd]

theorem decodeWord_eq_refused {s : State} {a : Word} {r : Refusal} :
    decodeWord s a = .refused r ↔
      (s.dbv ≠ 0xF#4 ∧ r = .decodeBufferIncomplete) ∨
      (s.dbv = 0xF#4 ∧ 0x016E < a.toNat ∧ r = .offsetOutOfRange) := by
  unfold decodeWord
  by_cases hd : s.dbv = 0xF#4
  · by_cases ha : 0x016E < a.toNat
    · simp [hd, ha, eq_comm]
    · cases hw : s.db.readWord a.toNat <;> simp [hd, ha]
  · simp [hd, eq_comm]

/-! ## The other shared operations -/

theorem scaleOrRefuse_eq_next {raw : Word} {f : Rat} {v : Number} :
    scaleOrRefuse raw f = .next v ↔ 0 ≤ f ∧ v = scaleNum raw f := by
  unfold scaleOrRefuse
  by_cases hf : f < 0
  · simp [hf]
  · simp [hf, not_lt.1 hf, eq_comm]

theorem withBit_eq_next {i : Byte} {r : Result} {s t : State} :
    withBit i r s = .next t ↔ i.toNat ≤ 15 ∧ t = s.ended 0x00 r := by
  unfold withBit
  by_cases hi : 15 < i.toNat
  · simp [hi]
  · simp [hi, Nat.not_lt.1 hi]

/-- A request on the wire always goes out; what the controller makes of it is free. -/
theorem sendRequest_eq_next {frame : List Byte} {after : Memory → Memory} {answer : Memory → Option (List Byte)}
    {s t : State} :
    sendRequest frame after answer s = .next t ↔
      t = (if Config.controllerServes s.freeIndex then
            s.transmitted frame (after (drift s.ctrl (Config.controllerDrift s.freeIndex)))
              ((Config.controllerOddAnswer s.freeIndex).or
                (answer (drift s.ctrl (Config.controllerDrift s.freeIndex))))
          else s.transmitted frame (drift s.ctrl (Config.controllerDrift s.freeIndex))
            (Config.controllerOddAnswer s.freeIndex)) := by
  unfold sendRequest
  dsimp only
  split <;> simp [eq_comm]

theorem wf_drift {m : Memory} (h : m.wf) (l : List (Word × Word)) : (drift m l).wf := by
  induction l generalizing m with
  | nil => exact h
  | cons x l ih => exact ih (Memory.wf_writeWord h _ _)

theorem below_drift {m : Memory} (h : m.below 0x20000) (l : List (Word × Word)) : (drift m l).below 0x20000 := by
  induction l generalizing m with
  | nil => exact h
  | cons x l ih =>
    have := x.1.isLt
    exact ih (Memory.below_writeWord h (by omega) _)

end Sys2Proof.Machine
end

