-- ==== Sys2Proof/Laws/Exec.lean ====
section
/-! SUPPORT. Everything `exec` can do when it answers next, said once: the named update, and which instruction makes
it. Frames, invariants and whole-machine rules are case analyses of `Effect`. -/

namespace Sys2Proof.Machine

/-- The byte string an instruction hands to ACCEPT, if it does so. -/
def acceptedBytes : Instr → Option (List Byte)
  | .accept b => some b
  | .rdrsp unit data crc => some (frameBytes unit fnRead (readPayload data) crc)
  | .wrrsp unit reg value crc => some (frameBytes unit fnWrite (payload16 reg value) crc)
  | _ => none

/-- Whether a result is an error. -/
def Result.isError : Result → Bool
  | .error _ => true
  | _ => false

/-- The effects of an instruction on a state, one case per shape of effect. -/
inductive Effect (i : Instr) (s : State) : State → Prop where
  /-- a value on the result interface and nothing else -/
  | value (r : Result) (hr : r.isError = false) : Effect i s (s.ended 0x00 r)
  /-- an error of PARSE.RD, PARSE.RD1 or LOADSEG -/
  | decodeError (e : ErrorCause) (hi : i = .parseRd ∨ i = .parseRd1 ∨ ∃ k, i = .loadseg k)
      (he : e = .decodeShort ∨ e = .decodeCount ∨ e = .decodeLen1 ∨ e = .decodeSegLen) :
      Effect i s (s.ended e.code (.error e))
  /-- CRC16 and VALIDATE -/
  | crc (d : List Byte) (r : Result) (hr : r.isError = false) (hi : i = .crc16 d ∨ ∃ b, i = .validate b) :
      Effect i s ((s.withCrc (crc16 d)).ended 0x00 r)
  /-- ENCODE -/
  | encode (unit fn : Byte) (p : List Byte) (hi : i = .encode unit fn p) :
      Effect i s (((s.withCrc (crc16 (unit :: fn :: p))).emit (encodeFrame unit fn p)).ended 0x00
        (.bytes (encodeFrame unit fn p)))
  /-- ENC.RD and ENC.WR -/
  | request (q : Req) (hq : q.valid = true) (hfn : q.fn = fnRead ∨ q.fn = fnWrite)
      (hi : (∃ u a n, i = .encRd u a n) ∨ ∃ u a v, i = .encWr u a v) :
      Effect i s ((((s.openRequest q).withCrc (crc16 (q.unit :: q.fn :: payload16 q.a q.b))).emit
        (encodeFrame q.unit q.fn (payload16 q.a q.b))).ended 0x00 (.bytes (encodeFrame q.unit q.fn (payload16 q.a q.b))))
  /-- ACCEPT, RDRSP and WRRSP: rejected -/
  | rejected (b : List Byte) (e : ErrorCause) (hi : acceptedBytes i = some b) (hv : s.req.valid = true)
      (hl : b.length ≤ 256) (he : acceptError s.req b = some e) :
      Effect i s ((s.judging b).ended e.code (.error e))
  /-- ACCEPT, RDRSP and WRRSP: accepted -/
  | accepted (b : List Byte) (hi : acceptedBytes i = some b) (hv : s.req.valid = true)
      (hl : b.length ≤ 256) (he : acceptError s.req b = none) :
      Effect i s (((s.judging b).keepResponse b).ended 0x00 .ok)
  /-- PARSE.WR -/
  | echo (hi : i = .parseWr) (hr : s.hasResponse fnWrite = true) :
      Effect i s ((s.withEcho (echoMatches s)).ended 0x00 (.bool (echoMatches s)))
  /-- CLRREQ -/
  | close (hi : i = .clrreq) : Effect i s (s.closeRequest.ended 0x00 .none)
  /-- DBCLR -/
  | clear (hi : i = .dbclr) : Effect i s (s.clearDecode.ended 0x00 .none)
  /-- LOADSEG -/
  | load (k : Byte) (start count : Word) (d : List Byte) (hi : i = .loadseg k)
      (hs : segmentOf k = some (start, count)) (ha : s.req.a = start) (hb : s.req.b = count)
      (hd : readData s = .data d) (hl : d.length = 2 * count.toNat) :
      Effect i s ((s.loadSegment k.toNat start d).ended 0x00 .none)
  /-- RDREQ and WRREQ: the frame goes out; the controller's registers are those it had after changes of its own, or
  with one register written -/
  | sent (f : List Byte) (m : Memory) (x : Option (List Byte))
      (hi : (∃ u a n c, i = .rdreq u a n c ∧ f = frameBytes u fnRead (payload16 a n) c) ∨
            ∃ u a v c, i = .wrreq u a v c ∧ f = frameBytes u fnWrite (payload16 a v) c)
      (hm : m = drift s.ctrl (Config.controllerDrift s.freeIndex) ∨
            ∃ a v : Word, m = (drift s.ctrl (Config.controllerDrift s.freeIndex)).writeWord a.toNat v) :
      Effect i s (s.transmitted f m x)

theorem acceptBytes_effect {i : Instr} {b : List Byte} {s t : State} (hi : acceptedBytes i = some b)
    (h : acceptBytes b s = .next t) : Effect i s t := by
  obtain ⟨hv, hl, ⟨e, he, rfl⟩ | ⟨he, rfl⟩⟩ := acceptBytes_eq_next.1 h
  · exact .rejected b e hi hv hl he
  · exact .accepted b hi hv hl he

theorem sendRequest_effect {i : Instr} {f : List Byte} {after : Memory → Memory}
    {answer : Memory → Option (List Byte)} {s t : State}
    (hi : (∃ u a n c, i = .rdreq u a n c ∧ f = frameBytes u fnRead (payload16 a n) c) ∨
          ∃ u a v c, i = .wrreq u a v c ∧ f = frameBytes u fnWrite (payload16 a v) c)
    (ha : (∀ m, after m = m) ∨ ∃ a v : Word, ∀ m, after m = m.writeWord a.toNat v)
    (h : sendRequest f after answer s = .next t) : Effect i s t := by
  rw [sendRequest_eq_next] at h
  subst h
  split
  · refine .sent f _ _ hi ?_
    rcases ha with ha | ⟨a, v, ha⟩
    · exact .inl (ha _)
    · exact .inr ⟨a, v, ha _⟩
  · exact .sent f _ _ hi (.inl rfl)

theorem readData_eq_error {s : State} {e : ErrorCause} (h : readData s = .error e) :
    e = .decodeShort ∨ e = .decodeCount ∨ e = .decodeLen1 ∨ e = .decodeSegLen := by
  rcases readData_cases s with ⟨_, hd⟩ | ⟨_, _, hd⟩ | ⟨_, _, _, hd⟩ | ⟨_, _, _, hd⟩ <;> rw [hd] at h <;> cases h <;> simp

theorem parseRd_effect {s t : State} (h : execParseRd s = .next t) : Effect .parseRd s t := by
  unfold execParseRd at h
  split at h
  · cases h
  · next hd => rw [raiseError_eq_next] at h; subst h; exact .decodeError _ (.inl rfl) (readData_eq_error hd)
  · rw [finish_eq_next] at h; subst h; exact .value _ rfl

theorem parseRd1_effect {s t : State} (h : execParseRd1 s = .next t) : Effect .parseRd1 s t := by
  unfold execParseRd1 at h
  split at h
  · cases h
  · next hd => rw [raiseError_eq_next] at h; subst h; exact .decodeError _ (.inr (.inl rfl)) (readData_eq_error hd)
  · split at h
    · rw [finish_eq_next] at h; subst h; exact .value _ rfl
    · rw [raiseError_eq_next] at h; subst h; exact .decodeError _ (.inr (.inl rfl)) (by simp)

theorem loadseg_effect {k : Byte} {s t : State} (h : execLoadseg k s = .next t) : Effect (.loadseg k) s t := by
  unfold execLoadseg at h
  split at h
  · cases h
  · next start count hs =>
    split at h
    · cases h
    · split at h
      · cases h
      · next hne =>
        rw [not_or, not_not, not_not] at hne
        split at h
        · cases h
        · next hd =>
          rw [raiseError_eq_next] at h
          subst h
          exact .decodeError _ (.inr (.inr ⟨k, rfl⟩)) (readData_eq_error hd)
        · next d hd =>
          split at h
          · rw [raiseError_eq_next] at h; subst h; exact .decodeError _ (.inr (.inr ⟨k, rfl⟩)) (by simp)
          · next hl =>
            rw [finish_eq_next] at h
            subst h
            exact .load k start count d rfl hs hne.1 hne.2 hd (not_not.1 hl)

theorem validate_effect {b : List Byte} {s t : State} (h : execValidate b s = .next t) : Effect (.validate b) s t := by
  unfold execValidate at h
  rw [finish_eq_next] at h
  subst h
  split
  · exact .value _ rfl
  · exact .crc (frameBody b) _ rfl (.inr ⟨b, rfl⟩)

/-- Every next state of every instruction is one of the effects. -/
theorem exec_effect {i : Instr} {s t : State} (h : exec i s = .next t) : Effect i s t := by
  cases i with
  | crc16 d => exact finish_eq_next.1 h ▸ .crc d _ rfl (.inl rfl)
  | validate b => exact validate_effect h
  | encode unit fn p => exact finish_eq_next.1 h ▸ .encode unit fn p rfl
  | encRd u a n =>
    exact finish_eq_next.1 h ▸ .request ⟨true, u, fnRead, a, n⟩ rfl (.inl rfl) (.inl ⟨u, a, n, rfl⟩)
  | encWr u a v =>
    exact finish_eq_next.1 h ▸ .request ⟨true, u, fnWrite, a, v⟩ rfl (.inr rfl) (.inr ⟨u, a, v, rfl⟩)
  | accept b => exact acceptBytes_effect rfl h
  | parseRd => exact parseRd_effect h
  | parseRd1 => exact parseRd1_effect h
  | parseWr =>
    change execParseWr s = .next t at h
    unfold execParseWr at h
    split at h
    · cases h
    · next hr => exact finish_eq_next.1 h ▸ .echo rfl (by simpa using hr)
  | clrreq => exact finish_eq_next.1 h ▸ .close rfl
  | dbclr => exact finish_eq_next.1 h ▸ .clear rfl
  | loadseg k => exact loadseg_effect h
  | xword a =>
    obtain ⟨w, -, h⟩ := andThen_eq_next.1 h
    exact finish_eq_next.1 h ▸ .value _ rfl
  | scale raw f =>
    obtain ⟨v, -, h⟩ := andThen_eq_next.1 h
    exact finish_eq_next.1 h ▸ .value _ rfl
  | wrap v => exact finish_eq_next.1 h ▸ .value _ rfl
  | getbit w i => exact finish_eq_next.1 h ▸ .value _ rfl
  | field a f =>
    obtain ⟨w, -, h⟩ := andThen_eq_next.1 h
    obtain ⟨v, -, h⟩ := andThen_eq_next.1 h
    exact finish_eq_next.1 h ▸ .value _ rfl
  | wrap65k v => exact finish_eq_next.1 h ▸ .value _ rfl
  | ambfix v => exact finish_eq_next.1 h ▸ .value _ rfl
  | lpfix v => exact finish_eq_next.1 h ▸ .value _ rfl
  | setbit w i => exact (withBit_eq_next.1 h).2 ▸ .value _ rfl
  | clrbit w i => exact (withBit_eq_next.1 h).2 ▸ .value _ rfl
  | fmode w40 w41 => exact finish_eq_next.1 h ▸ .value _ rfl
  | pumpon v => exact finish_eq_next.1 h ▸ .value _ rfl
  | antifrz x y z => exact finish_eq_next.1 h ▸ .value _ rfl
  | errint f1 f2 f3 f4 f5 f6 f7 => exact finish_eq_next.1 h ▸ .value _ rfl
  | rdreq u a n c =>
    unfold exec execRdreq at h
    exact sendRequest_effect (.inl ⟨u, a, n, c, rfl, rfl⟩) (.inl fun _ => rfl) h
  | rdrsp u d c => exact acceptBytes_effect rfl h
  | wrreq u a v c =>
    unfold exec execWrreq at h
    exact sendRequest_effect (.inr ⟨u, a, v, c, rfl, rfl⟩) (.inr ⟨a, v, fun _ => rfl⟩) h
  | wrrsp u a v c => exact acceptBytes_effect rfl h

/-- A transfer that decodes is executed. -/
theorem perform_of_decode {x : Transfer} {i : Instr} (h : decode x = .ok i) (s : State) : perform x s = exec i s := by
  unfold perform; rw [h]

/-- A frame of neither request format is carried to the link. -/
theorem perform_other_frame {f : List Byte} {why : DecodeReject} (h : decode (.transmit f) = .error why) (s : State) :
    perform (.transmit f) s = carryFrame f s := by
  unfold perform; rw [h]; rfl

/-- Every next state of a transfer is that of its instruction, or of a frame carried to the link. -/
theorem perform_next {x : Transfer} {s t : State} (h : perform x s = .next t) :
    (∃ i, decode x = .ok i ∧ exec i s = .next t) ∨
    ∃ f, x = .transmit f ∧ (∀ i, decode x ≠ .ok i) ∧
      t = s.transmitted f (drift s.ctrl (Config.controllerDrift s.freeIndex))
        (Config.controllerOddAnswer s.freeIndex) := by
  unfold perform at h
  split at h
  · next i hi => exact .inl ⟨i, hi, h⟩
  · next why hw =>
    cases x with
    | transmit f =>
      cases h
      exact .inr ⟨f, rfl, by simp [hw], rfl⟩
    | operation | receive => cases h

end Sys2Proof.Machine
end

