-- ==== Sys2Proof/Laws/Host.lean ====
section
/-! SUPPORT. The host's shared operations: what no instruction touches, sending a frame, and one lemma that says what
an attempt does to the host, the link and the request latch. -/

namespace Sys2Proof.Machine

open Sys2Proof.Config (HostParams)

/-- The block's own elements, which no host or link update touches. -/
def State.sameBlock (s t : State) : Prop :=
  t.crc = s.crc ∧ t.req = s.req ∧ t.rxb = s.rxb ∧ t.rxlen = s.rxlen ∧ t.rxok = s.rxok ∧ t.db = s.db ∧ t.dbv = s.dbv ∧
    t.status = s.status ∧ t.result = s.result ∧ t.tx = s.tx

/-- No instruction touches the host, the script of the link or the connection. -/
theorem exec_host {i : Instr} {s t : State} (h : exec i s = .next t) :
    t.host = s.host ∧ t.link.script = s.link.script ∧ t.link.connected = s.link.connected := by
  cases exec_effect h with
  | rejected => simp
  | accepted => simp
  | _ => exact ⟨rfl, rfl, rfl⟩

/-- Only the request frames touch the link. -/
theorem exec_link {i : Instr} {s t : State} (h : exec i s = .next t)
    (hi : ∀ u a n c, i ≠ .rdreq u a n c ∧ i ≠ .wrreq u a n c) : t.link = s.link := by
  cases exec_effect h with
  | rejected => simp
  | accepted => simp
  | sent f m x hf =>
    rcases hf with ⟨u, a, n, c, rfl, -⟩ | ⟨u, a, n, c, rfl, -⟩
    · exact absurd rfl (hi u a n c).1
    · exact absurd rfl (hi u a n c).2
  | _ => rfl

/-- Only ENC.RD, ENC.WR and CLRREQ touch the request latch. -/
theorem exec_req {i : Instr} {s t : State} (h : exec i s = .next t)
    (hi : (∀ u a n, i ≠ .encRd u a n ∧ i ≠ .encWr u a n) ∧ i ≠ .clrreq) : t.req = s.req := by
  cases exec_effect h with
  | rejected => simp
  | accepted => simp
  | request q hq hfn hf =>
    rcases hf with ⟨u, a, n, rfl⟩ | ⟨u, a, n, rfl⟩
    · exact absurd rfl (hi.1 u a n).1
    · exact absurd rfl (hi.1 u a n).2
  | close hf => exact absurd hf hi.2
  | _ => rfl

/-- A request frame with its CRC, for either function code, is sent whole. -/
theorem sendFrame_request {u : Byte} {fn : Byte} {a n : Word} (hfn : fn = fnRead ∨ fn = fnWrite) (s : State) :
    ∃ t, sendFrame (encodeFrame u fn (payload16 a n)) s = .next t ∧ t.sameBlock s ∧ t.host = s.host ∧
      t.link = { s.link with sent := s.link.sent ++ [encodeFrame u fn (payload16 a n)], answer := t.link.answer } := by
  have hd : ∀ c, decode (.transmit (frameBytes u fn (payload16 a n) c)) =
      .ok (if fn = fnRead then .rdreq u a n c else .wrreq u a n c) := by
    intro c
    rcases hfn with rfl | rfl <;> simp [decode, decodeTransmit, frameBytes, payload16, fnRead, fnWrite]
  unfold sendFrame encodeFrame
  rw [perform_of_decode (hd _)]
  rcases hfn with rfl | rfl
  · rw [if_pos rfl]
    unfold exec execRdreq
    refine ⟨_, sendRequest_eq_next.2 rfl, ?_⟩
    split <;> exact ⟨⟨rfl, rfl, rfl, rfl, rfl, rfl, rfl, rfl, rfl, rfl⟩, rfl, rfl⟩
  · rw [if_neg (by decide)]
    unfold exec execWrreq
    refine ⟨_, sendRequest_eq_next.2 rfl, ?_⟩
    split <;> exact ⟨⟨rfl, rfl, rfl, rfl, rfl, rfl, rfl, rfl, rfl, rfl⟩, rfl, rfl⟩

theorem exec_parse {i : Instr} {s t : State} (hi : isParse i) (h : exec i s = .next t) :
    t.host = s.host ∧ t.link = s.link ∧ t.req = s.req := by
  refine ⟨(exec_host h).1, exec_link h ?_, exec_req h ?_⟩ <;>
    rcases hi with rfl | rfl | rfl | ⟨k, rfl⟩ <;> simp

/-- Whether a reset of PWFC ended an attempt. -/
def Verdict.isAbandoned : Verdict → Bool
  | .success _ => false
  | .failure _ => false
  | .abandoned _ => true

@[simp] theorem Verdict.isAbandoned_success (r : Result) : (Verdict.success r).isAbandoned = false := rfl
@[simp] theorem Verdict.isAbandoned_failure (e : ErrorCause) : (Verdict.failure e).isAbandoned = false := rfl
@[simp] theorem Verdict.isAbandoned_abandoned (r : Result) : (Verdict.abandoned r).isAbandoned = true := rfl

theorem andThen_next_eta {α : Type} (o : HostOut α) : (andThen o fun (v, s) => .next (v, s)) = o := by
  cases o <;> rfl

theorem verdictOf_next {s t : State} {v : Verdict} (h : verdictOf s = .next (v, t)) :
    t = s ∧ v.isAbandoned = false := by
  unfold verdictOf at h
  split at h <;> cases h <;> exact ⟨rfl, rfl⟩

/-- Judging a response touches neither the host nor the link, and only a reset there abandons it. -/
theorem judge_next {b : List Byte} {parse : Instr} {r : Option ResetPoint} {s t : State} {v : Verdict}
    (hp : isParse parse) (h : judge b parse r s = .next (v, t)) :
    t.host = s.host ∧ t.link = s.link ∧ (v.isAbandoned = true → r ≠ none) := by
  obtain ⟨s1, h1, h⟩ := andThen_eq_next.1 h
  have e1 := (exec_host h1).1
  have e2 := exec_link h1 (by simp)
  split at h
  · cases h; exact ⟨e1, e2, by simp⟩
  · split at h
    · next hr => cases h; exact ⟨e1, e2, fun _ => by simp [hr]⟩
    · obtain ⟨s2, h2, h⟩ := andThen_eq_next.1 h
      obtain ⟨f1, f2, -⟩ := exec_parse hp h2
      obtain ⟨rfl, hv⟩ := verdictOf_next h
      exact ⟨f1.trans e1, f2.trans e2, fun hh => by simp [hv] at hh⟩

/-- Once the frame is sent, or cannot be, the rest of an attempt ends it and touches the link no more. -/
theorem respond_next {p : HostParams} {e : LinkEvent} {parse : Instr} {s t : State} {v : Verdict}
    (hp : isParse parse) (h : respond p e parse s = .next (v, t)) :
    (∃ k, t.host = (s.endAttempt p k).host ∧ t.link = (s.endAttempt p k).link) ∧
    (v.isAbandoned = true → e.reset ≠ none) := by
  have late : ∀ (c : ErrorCause) (k : Nat), linkFails p c k s = .next (v, t) →
      (∃ k, t.host = (s.endAttempt p k).host ∧ t.link = (s.endAttempt p k).link) ∧
        (v.isAbandoned = true → e.reset ≠ none) := by
    intro c k h
    cases h
    exact ⟨⟨k, rfl, rfl⟩, by simp⟩
  have received : ∀ d, receive p e d parse s = .next (v, t) →
      (∃ k, t.host = (s.endAttempt p k).host ∧ t.link = (s.endAttempt p k).link) ∧
        (v.isAbandoned = true → e.reset ≠ none) := by
    intro d h
    cases d with
    | none => exact late _ _ h
    | some b =>
      unfold receive inTime at h
      simp only at h
      split at h
      · exact late _ _ h
      · obtain ⟨g1, g2, g3⟩ := judge_next hp h
        exact ⟨⟨_, g1, g2⟩, g3⟩
  unfold respond at h
  split at h
  · exact late _ _ h
  · unfold inTime at h
    split at h <;> exact late _ _ h
  · exact received _ h
  · exact received _ h
  · exact received _ h

/-- What an attempt leaves that got past the gap (R160, R211, R215): it is recorded with its start and its end, at most
T_TIMEOUT later; its frame was sent once or not at all; its connection is closed. -/
structure Attempted (p : HostParams) (frame : List Byte) (s t : State) : Prop where
  host : ∃ d, d ≤ p.tTimeout ∧ t.host = { s.host with
    now := gapTime p s.host + d
    pairs := (gapTime p s.host, gapTime p s.host + d) :: s.host.pairs }
  sent : t.link.sent = s.link.sent ∨ t.link.sent = s.link.sent ++ [frame]
  closed : t.link.connected = false

/-- What an attempt leaves that a reset ended in the wait for the gap (R206): nothing was sent. -/
structure NotAttempted (p : HostParams) (s t : State) : Prop where
  host : t.host = { s.host with now := gapTime p s.host }
  sent : t.link.sent = s.link.sent
  connected : t.link.connected = s.link.connected

/-- What an attempt does: one event is used up, and only an event with a reset abandons it or keeps it from starting. -/
structure AttemptDone (p : HostParams) (frame : List Byte) (s t : State) (v : Verdict) : Prop where
  done : Attempted p frame s t ∨ (v = .abandoned .none ∧ NotAttempted p s t)
  script : t.link.script = s.link.script.tail
  reset : v.isAbandoned = true → ∃ e rest, s.link.script = e :: rest ∧ e.reset ≠ none

theorem endAttempt_attempted {p : HostParams} {frame : List Byte} {s s1 t : State} {k : Nat}
    (hh : s1.host = { s.host with now := gapTime p s.host })
    (hs : s1.link.sent = s.link.sent ∨ s1.link.sent = s.link.sent ++ [frame])
    (ht : t.host = (s1.endAttempt p k).host) (hl : t.link = (s1.endAttempt p k).link) : Attempted p frame s t := by
  refine ⟨⟨min k p.tTimeout, Nat.min_le_right _ _, ?_⟩, hl ▸ hs, hl ▸ rfl⟩
  rw [ht]
  simp [State.endAttempt, hh]

theorem exchange_attempted {p : HostParams} {u fn : Byte} {a n : Word} {parse : Instr} {e : LinkEvent}
    {s s1 t : State} {v : Verdict} (hfn : fn = fnRead ∨ fn = fnWrite) (hp : isParse parse)
    (hh : s1.host = { s.host with now := gapTime p s.host }) (hs : s1.link.sent = s.link.sent)
    (h : exchange p e (encodeFrame u fn (payload16 a n)) parse s1 = .next (v, t)) :
    Attempted p (encodeFrame u fn (payload16 a n)) s t ∧ t.link.script = s1.link.script ∧
      (v.isAbandoned = true → e.reset ≠ none) := by
  unfold exchange at h
  split at h
  · next hr =>
    cases h
    exact ⟨endAttempt_attempted hh (.inl hs) rfl rfl, rfl, fun _ => by simp [hr]⟩
  · split at h
    · obtain ⟨⟨k, g1, g2⟩, g3⟩ := respond_next hp h
      exact ⟨endAttempt_attempted hh (.inl hs) g1 g2, by rw [g2]; rfl, g3⟩
    · obtain ⟨s2, hs2, hb, hh2, hl2⟩ := sendFrame_request (u := u) (a := a) (n := n) hfn s1.connect
      have e1 : s2.host = { s.host with now := gapTime p s.host } := hh2.trans hh
      have e2 : s2.link.sent = s.link.sent ++ [encodeFrame u fn (payload16 a n)] := by
        rw [hl2]; simp [State.connect, hs]
      have e3 : s2.link.script = s1.link.script := by rw [hl2]; rfl
      rw [hs2, andThen_next] at h
      split at h
      · next hr =>
        cases h
        exact ⟨endAttempt_attempted e1 (.inr e2) rfl rfl, e3, fun _ => by simp [hr]⟩
      · obtain ⟨⟨k, g1, g2⟩, g3⟩ := respond_next hp h
        exact ⟨endAttempt_attempted e1 (.inr e2) g1 g2, by rw [g2]; exact e3, g3⟩

theorem nextEvent_of_cons {s : State} {e : LinkEvent} {rest : List LinkEvent} (h : s.link.script = e :: rest) :
    s.nextEvent = (e, s.withLink { s.link with script := rest }) := by
  unfold State.nextEvent; rw [h]

theorem nextEvent_of_nil {s : State} (h : s.link.script = []) :
    s.nextEvent = ({ fate := .silence, elapsed := 0, reset := none }, s) := by
  unfold State.nextEvent; rw [h]

theorem attempt_done {p : HostParams} {u fn : Byte} {a n : Word} {parse : Instr} {s t : State} {v : Verdict}
    (hfn : fn = fnRead ∨ fn = fnWrite) (hp : isParse parse)
    (h : attempt p (encodeFrame u fn (payload16 a n)) parse s = .next (v, t)) :
    AttemptDone p (encodeFrame u fn (payload16 a n)) s t v := by
  have key : ∀ (e : LinkEvent) (s1 : State), (s.waitGap p).nextEvent = (e, s1) →
      s1.host = { s.host with now := gapTime p s.host } → s1.link.sent = s.link.sent →
      s1.link.connected = s.link.connected → s1.link.script = s.link.script.tail →
      (e.reset ≠ none → ∃ rest, s.link.script = e :: rest) →
      AttemptDone p (encodeFrame u fn (payload16 a n)) s t v := by
    intro e s1 he hh hs hc hsc hr
    have reset : e.reset ≠ none → ∃ e rest, s.link.script = e :: rest ∧ e.reset ≠ none := fun hne =>
      let ⟨rest, hrest⟩ := hr hne
      ⟨e, rest, hrest, hne⟩
    unfold attempt at h
    rw [he] at h
    simp only at h
    split at h
    · next hw =>
      cases h
      exact ⟨.inr ⟨rfl, hh, hs, hc⟩, hsc, fun _ => reset (by simp [hw])⟩
    · obtain ⟨⟨v1, s2⟩, h2, h⟩ := andThen_eq_next.1 h
      obtain ⟨g1, g2, g3⟩ := exchange_attempted hfn hp hh hs h2
      simp only at h
      split at h
      · next hw =>
        cases h
        exact ⟨.inl ⟨g1.host, g1.sent, g1.closed⟩, g2.trans hsc, fun _ => reset (by simp [hw])⟩
      · cases h
        exact ⟨.inl g1, g2.trans hsc, fun hv => reset (g3 hv)⟩
  rcases hs : s.link.script with _ | ⟨e, rest⟩
  · exact key _ _ (nextEvent_of_nil (s := s.waitGap p) hs) rfl rfl rfl (show s.link.script = _ by rw [hs]; rfl) (by simp)
  · exact key _ _ (nextEvent_of_cons (s := s.waitGap p) hs) rfl rfl rfl (by rw [hs]; rfl) fun _ => ⟨rest, hs⟩

theorem State.sameBlock.trans {s t u : State} (h : s.sameBlock t) (h' : t.sameBlock u) : s.sameBlock u := by
  obtain ⟨a1, a2, a3, a4, a5, a6, a7, a8, a9, a10⟩ := h
  obtain ⟨b1, b2, b3, b4, b5, b6, b7, b8, b9, b10⟩ := h'
  exact ⟨b1.trans a1, b2.trans a2, b3.trans a3, b4.trans a4, b5.trans a5, b6.trans a6, b7.trans a7, b8.trans a8,
    b9.trans a9, b10.trans a10⟩

/-- An attempt in which the link delivers some bytes in time and no reset comes before ACCEPT: the frame is sent, the
connection closed, and then those bytes are judged in a state whose block is as it was. -/
theorem attempt_judges {p : HostParams} {u fn : Byte} {a n : Word} {parse : Instr} {s : State} {b : List Byte}
    {k : Nat} {r : Option ResetPoint} {rest : List LinkEvent} (hfn : fn = fnRead ∨ fn = fnWrite)
    (hs : s.link.script = ⟨.delivers b, k, r⟩ :: rest) (hk : k ≤ p.tTimeout)
    (hr : r = none ∨ r = some .accepted ∨ r = some .ended) :
    ∃ t, attempt p (encodeFrame u fn (payload16 a n)) parse s =
        (andThen (judge b parse r t) fun (v, s) => if r = some .ended then abandon v.given s else .next (v, s)) ∧
      t.sameBlock s ∧
      t.host = { s.host with
        now := gapTime p s.host + k
        pairs := (gapTime p s.host, gapTime p s.host + k) :: s.host.pairs } ∧
      t.link = {
        connected := false
        sent := s.link.sent ++ [encodeFrame u fn (payload16 a n)]
        answer := t.link.answer
        script := rest } := by
  have he : (s.waitGap p).nextEvent =
      (⟨.delivers b, k, r⟩, (s.waitGap p).withLink { s.link with script := rest }) :=
    nextEvent_of_cons hs
  obtain ⟨t, ht, hb, hh, hl⟩ := sendFrame_request (u := u) (a := a) (n := n) hfn
    ((s.waitGap p).withLink { s.link with script := rest }).connect
  refine ⟨t.endAttempt p k, ?_, ?_, ?_, ?_⟩
  · unfold attempt exchange
    rw [he]
    rcases hr with rfl | rfl | rfl <;>
      simp only [reduceCtorEq, Option.some.injEq, if_false, LinkFate.sends, ht, andThen_next, respond, receive, inTime,
        Nat.not_lt.2 hk]
  · exact State.sameBlock.trans (t := t) ⟨rfl, rfl, rfl, rfl, rfl, rfl, rfl, rfl, rfl, rfl⟩ hb
  · simp [State.endAttempt, hh, State.connect, State.waitGap, Nat.min_eq_left hk]
  · simp only [State.endAttempt, State.withHost_link, State.withLink_link]
    rw [hl]
    rfl

/-- The same with no reset: the attempt ends as the judging does. -/
theorem attempt_delivers {p : HostParams} {u fn : Byte} {a n : Word} {parse : Instr} {s : State} {b : List Byte}
    {k : Nat} {rest : List LinkEvent} (hfn : fn = fnRead ∨ fn = fnWrite)
    (hs : s.link.script = ⟨.delivers b, k, none⟩ :: rest) (hk : k ≤ p.tTimeout) :
    ∃ t, attempt p (encodeFrame u fn (payload16 a n)) parse s = judge b parse none t ∧ t.sameBlock s ∧
      t.host = { s.host with
        now := gapTime p s.host + k
        pairs := (gapTime p s.host, gapTime p s.host + k) :: s.host.pairs } ∧
      t.link = {
        connected := false
        sent := s.link.sent ++ [encodeFrame u fn (payload16 a n)]
        answer := t.link.answer
        script := rest } := by
  obtain ⟨t, ht, h⟩ := attempt_judges (u := u) (a := a) (n := n) (parse := parse) hfn hs hk (.inl rfl)
  exact ⟨t, ht.trans (andThen_next_eta _), h⟩

/-- Bytes that ACCEPT rejects make an attempt fail, and leave everything but CRC, the response and STATUS. -/
theorem judge_rejects {b : List Byte} {parse : Instr} {r : Option ResetPoint} {s : State} {e : ErrorCause}
    (hv : s.req.valid = true) (hl : b.length ≤ 256) (he : acceptError s.req b = some e) :
    judge b parse r s = .next (.failure e, (s.judging b).ended e.code (.error e)) := by
  have : exec (.accept b) s = .next ((s.judging b).ended e.code (.error e)) :=
    acceptBytes_eq_next.2 ⟨hv, hl, .inl ⟨e, he, rfl⟩⟩
  unfold judge
  rw [this]
  rfl

/-- Bytes that ACCEPT keeps are parsed, unless PWFC is reset in between. -/
theorem judge_accepts {b : List Byte} {parse : Instr} {r : Option ResetPoint} {s : State} (hv : s.req.valid = true)
    (hl : b.length ≤ 256) (he : acceptError s.req b = none) (hr : r ≠ some .accepted) :
    judge b parse r s = andThen (exec parse (((s.judging b).keepResponse b).ended 0x00 .ok)) verdictOf := by
  have : exec (.accept b) s = .next (((s.judging b).keepResponse b).ended 0x00 .ok) :=
    acceptBytes_eq_next.2 ⟨hv, hl, .inr ⟨he, rfl⟩⟩
  unfold judge
  rw [this]
  simp only [andThen_next, State.ended_result, hr, if_false]

/-- The bytes of a kept response, as RXB holds them. -/
theorem getElem_kept (s : State) (b : List Byte) (n : Nat) (hn : n < 256) (h : n < b.length) :
    (((s.judging b).keepResponse b).ended 0x00 .ok).rxb[n] = b[n] := by
  simp [State.keepResponse, getElem_storeBytes, h]

/-- ACCEPT keeps every encoded frame for the unit and the function code of the request (R98, R89). -/
theorem accept_encoded {unit fn : Byte} {d : List Byte} {s : State} (hv : s.req.valid = true) (hu : s.req.unit = unit)
    (hf : s.req.fn = fn) (hd : d.length ≤ 252) :
    exec (.accept (encodeFrame unit fn d)) s =
      .next (((s.judging (encodeFrame unit fn d)).keepResponse (encodeFrame unit fn d)).ended 0x00 .ok) := by
  have hb : frameBody (encodeFrame unit fn d) = unit :: fn :: d := frameBody_append (unit :: fn :: d) _
  have ht : frameTrailer (encodeFrame unit fn d) = trailer (crc16 (unit :: fn :: d)) := frameTrailer_append (unit :: fn :: d) _
  refine acceptBytes_eq_next.2 ⟨hv, by simp; omega, .inr ⟨acceptError_eq_none.2 ⟨?_, ?_, ?_⟩, rfl⟩⟩
  · unfold validate
    rw [hb, ht]
    simp [minFrame]
  · simp [encodeFrame, frameBytes, hu]
  · simp [encodeFrame, frameBytes, hf]

/-- The data of a kept read response is the data it was encoded with (R99). -/
theorem readData_kept {unit : Byte} {d : List Byte} {s : State} (hf : s.req.fn = fnRead) (hd : d.length ≤ 251) :
    readData (((s.judging (encodeFrame unit fnRead (readPayload d))).keepResponse
      (encodeFrame unit fnRead (readPayload d))).ended 0x00 .ok) = .data d := by
  set b := encodeFrame unit fnRead (readPayload d) with hb
  have hlen : b.length = 5 + d.length := by simp [b, readPayload]; omega
  have hdrop : b.drop 3 = d ++ trailer (crc16 (unit :: fnRead :: readPayload d)) := by
    simp [b, encodeFrame, frameBytes, readPayload]
    rfl
  have h2 : ((((s.judging b).keepResponse b).ended 0x00 .ok).rxb[2]).toNat = d.length := by
    rw [getElem_kept s b 2 (by omega) (by omega)]
    simp [b, encodeFrame, frameBytes, readPayload]
    omega
  have hl : (((s.judging b).keepResponse b).ended 0x00 .ok).rxlen.toNat = 5 + d.length := by
    simp [hlen]
    omega
  have hdata : ((((s.judging b).keepResponse b).ended 0x00 .ok).rxb.toList.drop 3).take d.length = d := by
    refine List.ext_getElem (by rw [List.length_take, List.length_drop, Vector.length_toList]; omega) ?_
    intro i _ hi
    simp only [List.getElem_take, List.getElem_drop, Vector.getElem_toList]
    rw [getElem_kept s b (3 + i) (by omega) (by omega),
      show b[3 + i]'(by omega) = (b.drop 3)[i]'(by simp; omega) by rw [List.getElem_drop]]
    simp only [hdrop]
    exact List.getElem_append_left hi
  unfold readData
  rw [if_neg (by simp [State.hasResponse, hf]), if_neg (by omega), if_neg (by omega), h2, hdata]

/-- A transaction is the attempts for the frame of its request, with that request in the latch. -/
theorem transaction_eq_tries {p : HostParams} {request : Instr} {u fn : Byte} {a b : Word} {s : State}
    (h : isRequest request u fn a b) :
    (fn = fnRead ∨ fn = fnWrite) ∧ ∃ t, (∀ parse reg isWrite, transaction p request parse reg isWrite s =
        tries p (encodeFrame u fn (payload16 a b)) parse reg isWrite 2 t) ∧
      t.req = ⟨true, u, fn, a, b⟩ ∧ t.link = s.link ∧ t.host = { s.host with attempts := 0 } ∧ t.ctrl = s.ctrl ∧
      t.db = s.db ∧ t.dbv = s.dbv ∧ t.freeIndex = s.freeIndex ∧ t.rxb = s.rxb := by
  rcases h with ⟨rfl, rfl⟩ | ⟨rfl, rfl⟩
  · exact ⟨.inl rfl, _, fun _ _ _ => rfl, rfl, rfl, rfl, rfl, rfl, rfl, rfl, rfl⟩
  · exact ⟨.inr rfl, _, fun _ _ _ => rfl, rfl, rfl, rfl, rfl, rfl, rfl, rfl, rfl⟩

end Sys2Proof.Machine
end

