-- ==== Sys2Proof/Laws/HostRun.lean ====
section
/-! SUPPORT. The induction over everything the host does, said once: what operations, attempts and the host's own
bookkeeping keep, every transaction, poll, command and event keeps. -/

namespace Sys2Proof.Machine

open Sys2Proof.Config (HostParams)

/-- Not one of the request frames. -/
def notFrame (i : Instr) : Prop := ∀ u a n c, i ≠ .rdreq u a n c ∧ i ≠ .wrreq u a n c

/-- A property of states that every operation, every attempt and every step of the host's own bookkeeping keeps. -/
structure HostClosed (p : HostParams) (Q : State → Prop) : Prop where
  operation : ∀ {i s t}, notFrame i → exec i s = .next t → Q s → Q t
  attempt : ∀ {u fn : Byte} {a n : Word} {parse s v t}, (fn = fnRead ∨ fn = fnWrite) → isParse parse →
    attempt p (encodeFrame u fn (payload16 a n)) parse s = .next (v, t) → Q s → Q t
  attempts : ∀ n {s}, Q s → Q (s.setAttempts n)
  logged : ∀ e {s}, Q s → Q (s.logged e)
  reported : ∀ r {s}, Q s → Q (s.reported r)
  enter : ∀ x {s}, Q s → Q (s.enter x)
  schedule : ∀ d {s}, Q s → Q (s.schedule d)
  later : ∀ {n : Nat} {s}, s.host.now ≤ n → Q s → Q (s.withHost { s.host with now := n })
  reset : ∀ {s}, Q s → Q s.resetEvent

namespace HostClosed

variable {p : HostParams} {Q : State → Prop} (C : HostClosed p Q)
include C

theorem tries {u fn : Byte} {a n : Word} {parse : Instr} (hfn : fn = fnRead ∨ fn = fnWrite) (hp : isParse parse)
    {reg : Word} {w : Bool} {k : Nat} {s t : State} {r : TxnResult}
    (h : tries p (encodeFrame u fn (payload16 a n)) parse reg w k s = .next (r, t)) (hq : Q s) : Q t := by
  induction k generalizing s with
  | zero =>
    obtain ⟨s2, h2, h⟩ := andThen_eq_next.1 h
    cases h
    exact C.operation (by simp [notFrame]) h2 hq
  | succ k ih =>
    obtain ⟨⟨v, s1⟩, h1, h⟩ := andThen_eq_next.1 h
    have hq1 := C.attempt hfn hp h1 (C.attempts _ hq)
    cases v with
    | success x =>
      obtain ⟨s2, h2, h⟩ := andThen_eq_next.1 h
      cases h
      exact C.operation (by simp [notFrame]) h2 hq1
    | failure e => exact ih h (C.logged _ hq1)
    | abandoned seen =>
      obtain ⟨s2, h2, h⟩ := andThen_eq_next.1 h
      cases h
      exact C.operation (by simp [notFrame]) h2 (C.logged _ hq1)

theorem readTransaction {u : Byte} {a n : Word} {parse : Instr} {reg w s t r} (hp : isParse parse)
    (h : transaction p (.encRd u a n) parse reg w s = .next (r, t)) (hq : Q s) : Q t := by
  obtain ⟨s1, h1, h⟩ := andThen_eq_next.1 h
  have hq1 := C.operation (by simp [notFrame]) h1 hq
  have htx : s1.tx = encodeFrame u fnRead (payload16 a n) := by rw [finish_eq_next.1 h1]; rfl
  rw [htx] at h
  exact C.tries (.inl rfl) hp h (C.attempts _ hq1)

theorem writeTransaction {u : Byte} {a v : Word} {parse : Instr} {reg w s t r} (hp : isParse parse)
    (h : transaction p (.encWr u a v) parse reg w s = .next (r, t)) (hq : Q s) : Q t := by
  obtain ⟨s1, h1, h⟩ := andThen_eq_next.1 h
  have hq1 := C.operation (by simp [notFrame]) h1 hq
  have htx : s1.tx = encodeFrame u fnWrite (payload16 a v) := by rw [finish_eq_next.1 h1]; rfl
  rw [htx] at h
  exact C.tries (.inr rfl) hp h (C.attempts _ hq1)

theorem write {u : Byte} {a v : Word} {s t r} (h : wrSingle p u a v s = .next (r, t)) (hq : Q s) : Q t := by
  obtain ⟨⟨r1, s1⟩, h1, h⟩ := andThen_eq_next.1 h
  have := C.writeTransaction (.inr (.inr (.inl rfl))) h1 hq
  simp only at h
  split at h <;> cases h
  · exact C.logged _ this
  · exact this

theorem run {i s t r} (hi : notFrame i) (h : run i s = .next (r, t)) (hq : Q s) : Q t := by
  obtain ⟨s1, h1, h⟩ := andThen_eq_next.1 h
  cases h
  exact C.operation hi h1 hq

theorem words {l : List Word} {s t r} (h : extractWords l s = .next (r, t)) (hq : Q s) : Q t := by
  induction l generalizing s r with
  | nil => cases h; exact hq
  | cons a l ih =>
    obtain ⟨⟨r1, s1⟩, h1, h⟩ := andThen_eq_next.1 h
    have q1 := C.run (by simp [notFrame]) h1 hq
    simp only at h
    split at h
    · obtain ⟨⟨r2, s2⟩, h2, h⟩ := andThen_eq_next.1 h
      cases h
      exact ih h2 q1
    · cases h; exact q1

theorem onField {a f next s t r} (hn : ∀ v, notFrame (next v)) (h : onField a f next s = .next (r, t)) (hq : Q s) :
    Q t := by
  obtain ⟨⟨r1, s1⟩, h1, h⟩ := andThen_eq_next.1 h
  have q1 := C.run (by simp [notFrame]) h1 hq
  simp only at h
  split at h
  · exact C.run (hn _) h q1
  · cases h; exact q1

theorem field {f} {s t r} (h : decodeField p f s = .next (r, t)) (hq : Q s) : Q t := by
  cases f with
  | number a factor => exact C.run (by simp [notFrame]) h hq
  | suctionOrCoil | ambient | lowPressure | pumpOn => exact C.onField (by simp [notFrame]) h hq
  | flag a i =>
    obtain ⟨⟨r1, s1⟩, h1, h⟩ := andThen_eq_next.1 h
    have q1 := C.run (by simp [notFrame]) h1 hq
    simp only at h
    split at h
    · exact C.run (by simp [notFrame]) h q1
    · cases h; exact q1
  | frequencyMode | antiFreeze =>
    obtain ⟨⟨r1, s1⟩, h1, h⟩ := andThen_eq_next.1 h
    exact C.run (by simp [notFrame]) h (C.words h1 hq)
  | errors a1 a2 a3 a4 a5 a6 a7 =>
    obtain ⟨⟨r1, s1⟩, h1, h⟩ := andThen_eq_next.1 h
    have q1 := C.words h1 hq
    simp only at h
    split at h
    · exact C.run (by simp [notFrame]) h q1
    · cases h; exact q1

theorem sample {l} {s t r} (h : decodeSample p l s = .next (r, t)) (hq : Q s) : Q t := by
  induction l generalizing s r with
  | nil => cases h; exact hq
  | cons x l ih =>
    obtain ⟨⟨r1, s1⟩, h1, h⟩ := andThen_eq_next.1 h
    obtain ⟨⟨r2, s2⟩, h2, h⟩ := andThen_eq_next.1 h
    cases h
    exact ih h2 (C.field h1 hq)

theorem segments {l : List (Word × Word)} {k : Nat} {s t r} (h : readSegments p k l s = .next (r, t)) (hq : Q s) :
    Q t := by
  induction l generalizing k s with
  | nil => cases h; exact hq
  | cons x l ih =>
    obtain ⟨⟨r1, s1⟩, h1, h⟩ := andThen_eq_next.1 h
    have q1 := C.readTransaction (.inr (.inr (.inr ⟨_, rfl⟩))) h1 hq
    simp only at h
    split at h
    · cases h; exact q1
    · exact ih h q1

theorem poll {s t} (h : poll p s = .next t) (hq : Q s) : Q t := by
  obtain ⟨s1, h1, h⟩ := andThen_eq_next.1 h
  have q1 := C.operation (by simp [notFrame]) h1 (C.enter _ hq)
  obtain ⟨⟨r2, s2⟩, h2, h⟩ := andThen_eq_next.1 h
  have q2 := C.segments h2 q1
  simp only at h
  split at h
  · obtain ⟨⟨r3, s3⟩, h3, h⟩ := andThen_eq_next.1 h
    cases h
    exact C.enter _ (C.schedule _ (C.reported _ (C.enter _ (C.sample h3 (C.enter _ q2)))))
  · cases h
    exact C.enter _ (C.schedule _ (C.reported _ (C.enter _ q2)))

theorem edits {l} {w s t r} (h : applyEdits l w s = .next (r, t)) (hq : Q s) : Q t := by
  induction l generalizing w s with
  | nil => cases h; exact hq
  | cons e l ih =>
    obtain ⟨⟨r1, s1⟩, h1, h⟩ := andThen_eq_next.1 h
    have q1 := C.run (by cases e <;> simp [notFrame]) h1 hq
    simp only at h
    split at h
    · exact ih h q1
    · cases h; exact q1

theorem writes {c l s t r} (h : writeAll p c l s = .next (r, t)) (hq : Q s) : Q t := by
  induction l generalizing s with
  | nil => cases h; exact C.enter _ (C.reported _ hq)
  | cons x l ih =>
    obtain ⟨⟨r1, s1⟩, h1, h⟩ := andThen_eq_next.1 h
    have q1 := C.write h1 hq
    simp only at h
    split at h
    · cases h; exact C.enter _ (C.reported _ (C.logged _ q1))
    · exact ih h q1

theorem test {i w s t r} (h : alreadySet i w s = .next (r, t)) (hq : Q s) : Q t := by
  unfold alreadySet at h
  cases i with
  | none => cases h; exact hq
  | some i =>
    obtain ⟨⟨r1, s1⟩, h1, h⟩ := andThen_eq_next.1 h
    cases h
    exact C.run (by simp [notFrame]) h1 hq

theorem carryOut {c s t r} (h : carryOut p c s = .next (r, t)) (hq : Q s) : Q t := by
  unfold Machine.carryOut at h
  split at h
  · exact C.writes h (C.enter _ hq)
  · obtain ⟨⟨r1, s1⟩, h1, h⟩ := andThen_eq_next.1 h
    have q1 := C.readTransaction (.inr (.inl rfl)) h1 (C.enter _ hq)
    simp only at h
    split at h
    · obtain ⟨⟨skip, s2⟩, h2, h⟩ := andThen_eq_next.1 h
      have q2 := C.test h2 (C.enter _ q1)
      simp only at h
      split at h
      · exact C.writes h (C.enter _ q2)
      · obtain ⟨⟨r3, s3⟩, h3, h⟩ := andThen_eq_next.1 h
        exact C.writes h (C.enter _ (C.edits h3 q2))
    · cases h; exact C.enter _ (C.reported _ (C.logged _ q1))

theorem command {c s t r} (h : command p c s = .next (r, t)) (hq : Q s) : Q t := by
  unfold Machine.command at h
  split at h
  · exact C.carryOut h hq
  · cases h; exact C.reported _ (C.logged _ hq)

theorem event {e s t} (h : hostStep p e s = .next t) (hq : Q s) : Q t := by
  cases e with
  | tick => exact C.poll h (C.later (le_max_left _ _) hq)
  | rmw | write | heating =>
    obtain ⟨⟨r, s1⟩, h1, h⟩ := andThen_eq_next.1 h
    cases h
    exact C.command h1 hq
  | reset => cases h; exact C.reset hq
  | elapse ms => cases h; exact C.later (Nat.le_add_right _ _) hq

/-- A closed property is kept by every run of events. -/
theorem events {l s t} (h : hostRun p l s = .next t) (hq : Q s) : Q t := by
  induction l generalizing s with
  | nil => cases h; exact hq
  | cons e l ih =>
    obtain ⟨s1, h1, h⟩ := andThen_eq_next.1 h
    exact ih h (C.event h1 hq)

end HostClosed

end Sys2Proof.Machine
end

