-- ==== Sys2Proof/Laws/Number.lean ====
section
/-! SUPPORT. The number steps (R121 to R132), each under its own condition. -/

namespace Sys2Proof.Machine

theorem wrapAbove_of_lt {threshold : Rat} {v : Number} (h : threshold < v.val) :
    wrapAbove threshold v = ⟨v.val - 65535, v.form⟩ := by
  unfold wrapAbove subtrahend; rw [if_pos h]

theorem wrapAbove_of_le {threshold : Rat} {v : Number} (h : v.val ≤ threshold) : wrapAbove threshold v = v := by
  unfold wrapAbove; rw [if_neg (not_lt.2 h)]

theorem rewrap_of_lt {unscale rescale : Rat} {v : Number} (h : 65000 < v.val * unscale) :
    rewrap unscale rescale v = ⟨round1 ((v.val * unscale - 65535) * rescale), .oneDecimal⟩ := by
  unfold rewrap tSentField subtrahend; rw [if_pos h]

theorem rewrap_of_le {unscale rescale : Rat} {v : Number} (h : v.val * unscale ≤ 65000) :
    rewrap unscale rescale v = v := by
  unfold rewrap tSentField; rw [if_neg (not_lt.2 h)]

theorem scaleNum_of_pos (raw : Word) {f : Rat} (h : 0 < f) :
    scaleNum raw f = ⟨round1 ((raw.toNat : Rat) * f), .oneDecimal⟩ := by
  unfold scaleNum; rw [if_neg (ne_of_gt h)]

theorem scaleNum_zero (raw : Word) : scaleNum raw 0 = ⟨(raw.toNat : Rat), .integer⟩ := rfl

/-- Whatever the tie rule, round1 gives one of the two tenths around its argument. -/
theorem round1_cases (x : Rat) : round1 x = (⌊10 * x⌋ : Rat) / 10 ∨ round1 x = ((⌊10 * x⌋ : Rat) + 1) / 10 := by
  unfold round1
  simp only
  split
  · exact .inl rfl
  · split
    · exact .inr rfl
    · split
      · exact .inr rfl
      · exact .inl rfl

end Sys2Proof.Machine
end

