-- ==== Sys2Proof/Laws/PerInstr.lean ====
section
/-! SUPPORT. Statements made per instruction: RoundTrip, the decoder reads back what the encoder wrote. -/

namespace Sys2Proof.Laws.RoundTrip

/-- Decoding the transfer that encodes an instruction gives the instruction, every operand at every value the encoding
admits. -/
def Statement (i : Instr) : Prop := i.encodable = true → decode (Sys2Proof.encode i) = .ok i

theorem crc16 (d : List Byte) : Statement (.crc16 d) := fun _ => rfl
theorem validate (b : List Byte) : Statement (.validate b) := fun _ => rfl
theorem encode (unit fn : Byte) (payload : List Byte) : Statement (.encode unit fn payload) := fun _ => rfl
theorem encRd (unit : Byte) (start count : Word) : Statement (.encRd unit start count) := fun _ => rfl
theorem encWr (unit : Byte) (reg value : Word) : Statement (.encWr unit reg value) := fun _ => rfl
theorem accept (b : List Byte) : Statement (.accept b) := fun _ => rfl
theorem parseRd : Statement .parseRd := fun _ => rfl
theorem parseRd1 : Statement .parseRd1 := fun _ => rfl
theorem parseWr : Statement .parseWr := fun _ => rfl
theorem clrreq : Statement .clrreq := fun _ => rfl
theorem dbclr : Statement .dbclr := fun _ => rfl
theorem loadseg (k : Byte) : Statement (.loadseg k) := fun _ => rfl
theorem xword (a : Word) : Statement (.xword a) := fun _ => rfl
theorem scale (raw : Word) (f : Rat) : Statement (.scale raw f) := fun _ => rfl
theorem wrap (v : Number) : Statement (.wrap v) := fun _ => rfl
theorem getbit (w : Option Word) (i : Byte) : Statement (.getbit w i) := fun _ => rfl
theorem field (a : Word) (f : Rat) : Statement (.field a f) := fun _ => rfl
theorem wrap65k (v : Number) : Statement (.wrap65k v) := fun _ => rfl
theorem ambfix (v : Number) : Statement (.ambfix v) := fun _ => rfl
theorem lpfix (v : Number) : Statement (.lpfix v) := fun _ => rfl
theorem setbit (w : Word) (i : Byte) : Statement (.setbit w i) := fun _ => rfl
theorem clrbit (w : Word) (i : Byte) : Statement (.clrbit w i) := fun _ => rfl
theorem fmode (w40 w41 : Option Word) : Statement (.fmode w40 w41) := fun _ => rfl
theorem pumpon (speed : Number) : Statement (.pumpon speed) := fun _ => rfl
theorem antifrz (crank sec lvl1 : Bool) : Statement (.antifrz crank sec lvl1) := fun _ => rfl
theorem errint (f1 f2 f3 f4 f5 f6 f7 : Word) : Statement (.errint f1 f2 f3 f4 f5 f6 f7) := fun _ => rfl

theorem rdreq (unit : Byte) (start count crc : Word) : Statement (.rdreq unit start count crc) := fun _ => by
  simp [Sys2Proof.encode, decode, decodeTransmit, frameBytes, payload16]

theorem wrreq (unit : Byte) (reg value crc : Word) : Statement (.wrreq unit reg value crc) := fun _ => by
  simp [Sys2Proof.encode, decode, decodeTransmit, frameBytes, payload16, Machine.fnRead, Machine.fnWrite]

theorem rdrsp (unit : Byte) (data : List Byte) (crc : Word) : Statement (.rdrsp unit data crc) := fun h => by
  have hlen : (BitVec.ofNat 8 data.length).toNat = data.length := by
    have : data.length ≤ 255 := by simpa [Instr.encodable] using h
    simp; omega
  simp [Sys2Proof.encode, decode, decodeReceive, asReadResponse, frameBytes, readPayload, hlen]

theorem wrrsp (unit : Byte) (reg value crc : Word) : Statement (.wrrsp unit reg value crc) := fun _ => by
  simp [Sys2Proof.encode, decode, decodeReceive, asReadResponse, asWriteResponse, frameBytes, payload16,
    Machine.fnRead, Machine.fnWrite]

end Sys2Proof.Laws.RoundTrip
end

