-- ==== Sys2Proof/Tests/Slice0.lean ====
section
/-! SUPPORT. The model's own tests. Expected values come from the spec: 95_test_vectors.md, cited by the ids of its
tables (T-..., S...), 30_encoding.md's tables, and the worked examples of the rules. The last part has, for every
statement with hypotheses, a state and operands that meet them. -/

namespace Sys2Proof.Tests

set_option Elab.async false

open Sys2Proof Sys2Proof.Machine

/-! ## Helpers -/

/-- The result a next outcome carries. -/
def resultOf : Out → Option Result
  | .next s => some s.result
  | _ => none

/-- A field of the next state. -/
def after {α : Type} (f : State → α) : Out → Option α
  | .next s => some (f s)
  | _ => none

/-- The reason of a refusal. -/
def refusalOf : Out → Option Refusal
  | .refused r => some r
  | _ => none

/-- Whether there is a next state. -/
def ran {α : Type} : Host.Outcome α Fault Refusal → Bool
  | .next _ => true
  | _ => false

/-- The value a host function answers. -/
def valueOf {α : Type} : HostOut α → Option α
  | .next (a, _) => some a
  | _ => none

theorem ran_next {α : Type} {o : Host.Outcome α Fault Refusal} (h : ran o = true) : ∃ a, o = .next a := by
  cases o with
  | next a => exact ⟨a, rfl⟩
  | fault r => cases h
  | refused r => cases h

/-- The request latch after ENC.RD or ENC.WR, no response yet. -/
def requested (fn : Byte) (a b : Word) : State :=
  { State.reset with req := { valid := true, unit := 0x01, fn := fn, a := a, b := b } }

/-- A request with an accepted response. -/
def answered (fn : Byte) (a b : Word) (frame : List Byte) : State := (requested fn a b).keepResponse frame

/-- A complete decode buffer: one register with a word, every other 0. -/
def buffer (a : Nat) (w : Word) : State :=
  { State.reset with
    db := (List.range 734).map fun n => (n, if n = 2 * a then hi8 w else if n = 2 * a + 1 then lo8 w else 0)
    dbv := 0b1111 }

/-! ## WellFormed: one ill-formed term for each check -/

theorem test_wf_accept : Instr.wellFormed (.accept (List.replicate 257 0)) = false := by decide +kernel
theorem test_wf_loadseg : Instr.wellFormed (.loadseg 4) = false := by decide
theorem test_wf_xword : Instr.wellFormed (.xword 0x016F) = false := by decide
theorem test_wf_scale : Instr.wellFormed (.scale 250 (-1)) = false := by decide
theorem test_wf_field_address : Instr.wellFormed (.field 0x016F 1) = false := by decide
theorem test_wf_field_factor : Instr.wellFormed (.field 0x0012 (-1)) = false := by decide
theorem test_wf_setbit : Instr.wellFormed (.setbit 0 16) = false := by decide
theorem test_wf_clrbit : Instr.wellFormed (.clrbit 0 16) = false := by decide
theorem test_wf_rdrsp : Instr.wellFormed (.rdrsp 1 (List.replicate 256 0) 0) = false := by decide +kernel
theorem test_wf_in_range : Instr.wellFormed (.accept (List.replicate 256 0)) = true ∧
    Instr.wellFormed (.loadseg 3) = true ∧ Instr.wellFormed (.xword 0x016E) = true ∧
    Instr.wellFormed (.field 0x016E 0) = true ∧ Instr.wellFormed (.setbit 0 15) = true ∧
    Instr.wellFormed (.rdrsp 1 (List.replicate 255 0) 0) = true := by decide +kernel

/-! ## Decoding: every select code of R62 written out bit by bit, and the frames of R61 (95: T-ENC, T-ACC) -/

theorem test_decode_crc16 (d) : decode (.operation 0b0000_0000 [.bytes d]) = .ok (.crc16 d) := rfl
theorem test_decode_validate (b) : decode (.operation 0b0000_0001 [.bytes b]) = .ok (.validate b) := rfl
theorem test_decode_encode (u f p) :
    decode (.operation 0b0001_0000 [.u8 u, .u8 f, .bytes p]) = .ok (.encode u f p) := rfl
theorem test_decode_encRd (u a n) :
    decode (.operation 0b0001_0001 [.u8 u, .u16 a, .u16 n]) = .ok (.encRd u a n) := rfl
theorem test_decode_encWr (u a v) :
    decode (.operation 0b0001_0010 [.u8 u, .u16 a, .u16 v]) = .ok (.encWr u a v) := rfl
theorem test_decode_accept (b) : decode (.operation 0b0001_0011 [.bytes b]) = .ok (.accept b) := rfl
theorem test_decode_parse : decode (.operation 0b0001_0100 []) = .ok .parseRd ∧
    decode (.operation 0b0001_0101 []) = .ok .parseRd1 ∧ decode (.operation 0b0001_0110 []) = .ok .parseWr ∧
    decode (.operation 0b0001_0111 []) = .ok .clrreq := ⟨rfl, rfl, rfl, rfl⟩
theorem test_decode_dbclr : decode (.operation 0b0010_0000 []) = .ok .dbclr := rfl
theorem test_decode_loadseg (k) : decode (.operation 0b0010_0001 [.u8 k]) = .ok (.loadseg k) := rfl
theorem test_decode_xword (a) : decode (.operation 0b0010_0010 [.u16 a]) = .ok (.xword a) := rfl
theorem test_decode_scale (r f) : decode (.operation 0b0010_0011 [.u16 r, .factor f]) = .ok (.scale r f) := rfl
theorem test_decode_wrap (v) : decode (.operation 0b0010_0100 [.num v]) = .ok (.wrap v) := rfl
theorem test_decode_getbit (w i) : decode (.operation 0b0010_0101 [.optword w, .u8 i]) = .ok (.getbit w i) := rfl
theorem test_decode_field (a f) : decode (.operation 0b0010_0110 [.u16 a, .factor f]) = .ok (.field a f) := rfl
theorem test_decode_fixes (v) : decode (.operation 0b0010_0111 [.num v]) = .ok (.wrap65k v) ∧
    decode (.operation 0b0010_1000 [.num v]) = .ok (.ambfix v) ∧
    decode (.operation 0b0010_1001 [.num v]) = .ok (.lpfix v) := ⟨rfl, rfl, rfl⟩
theorem test_decode_setbit (w i) : decode (.operation 0b0011_0000 [.u16 w, .u8 i]) = .ok (.setbit w i) := rfl
theorem test_decode_clrbit (w i) : decode (.operation 0b0011_0001 [.u16 w, .u8 i]) = .ok (.clrbit w i) := rfl
theorem test_decode_fmode (x y) : decode (.operation 0b0100_0000 [.optword x, .optword y]) = .ok (.fmode x y) := rfl
theorem test_decode_pumpon (v) : decode (.operation 0b0100_0001 [.num v]) = .ok (.pumpon v) := rfl
theorem test_decode_antifrz (x y z) :
    decode (.operation 0b0100_0010 [.bool x, .bool y, .bool z]) = .ok (.antifrz x y z) := rfl
theorem test_decode_errint (a b c d e f g) :
    decode (.operation 0b0100_0011 [.u16 a, .u16 b, .u16 c, .u16 d, .u16 e, .u16 f, .u16 g]) =
      .ok (.errint a b c d e f g) := rfl
theorem test_decode_rdreq : decode (.transmit [0x01, 0x03, 0x01, 0x68, 0x00, 0x07, 0x84, 0x28]) =
    .ok (.rdreq 0x01 0x0168 0x0007 0x2884) := by decide
theorem test_decode_wrreq : decode (.transmit [0x01, 0x06, 0x00, 0x43, 0x00, 0x01, 0xB9, 0xDE]) =
    .ok (.wrreq 0x01 0x0043 0x0001 0xDEB9) := by decide
theorem test_decode_rdrsp : decode (.receive [0x01, 0x03, 0x01, 0x90, 0xF0, 0x24]) =
    .ok (.rdrsp 0x01 [0x90] 0x24F0) := by decide
theorem test_decode_wrrsp : decode (.receive [0x01, 0x06, 0x00, 0x3F, 0x00, 0x91, 0x78, 0x6A]) =
    .ok (.wrrsp 0x01 0x003F 0x0091 0x6A78) := by decide
theorem test_decode_garbled : decode (.receive [0x01, 0x83, 0x02, 0xC0, 0xF1]) =
    .ok (.accept [0x01, 0x83, 0x02, 0xC0, 0xF1]) := by decide
theorem test_decode_rejects : decode (.operation 0x02 []) = .error (.reservedSelect 0x02) ∧
    decode (.operation 0x13 []) = .error (.operandForms 0x13) ∧
    decode (.transmit [1, 4, 0, 0, 0, 1, 0, 0]) = .error (.notRequest [1, 4, 0, 0, 0, 1, 0, 0]) ∧
    decode (.transmit [1, 3]) = .error (.notRequest [1, 3]) := by decide

/-- The words of opcode_table.json: a row of each length, with zeros beside it. -/
theorem test_table_words : decodeTableWord 8 0x21 = some (.loadseg 0) ∧ decodeTableWord 8 0x26 = some (.field 0 0) ∧
    decodeTableWord 24 0x010302 = some (.rdrsp 0x01 [0, 0] 0) ∧
    decodeTableWord 64 0x010301680007_8428 = some (.rdreq 0x01 0x0168 0x0007 0x2884) ∧
    decodeTableWord 64 0x010600430001_B9DE = some (.wrreq 0x01 0x0043 0x0001 0xDEB9) ∧
    decodeTableWord 8 0x44 = none := by decide
theorem test_withFetchWord : resultOf (step (State.reset.withFetchWord 8 0x30)) = some (.word 0x0001) := by decide

/-! ## The CRC unit (T-CRC, T-VAL) -/

theorem test_crc16 : crc16 [0x00] = 0x40BF ∧ crc16 [0xFF] = 0x00FF ∧ crc16 [0x01, 0x03] = 0x2140 ∧
    crc16 [0x01, 0x03, 0x00, 0x00, 0x00, 0x78] = 0xE845 := by decide +kernel
theorem test_crc16_state : after (fun s => (s.crc, s.status.err)) (exec (.crc16 [0x01]) State.reset) =
    some (0x807E, 0x00) := by decide +kernel
theorem test_validate : validate [0x01, 0x03, 0x40, 0x21] = true ∧ validate [0x01, 0x03, 0x40] = false ∧
    validate [] = false ∧ validate [0x01, 0x03, 0x02, 0x00, 0xA4, 0xB8, 0x33] = false ∧
    validate [0x01, 0x03, 0x00, 0x00, 0x00, 0x78, 0xE8, 0x45] = false := by decide +kernel
theorem test_validate_state : after (fun s => (s.crc, s.result))
    (exec (.validate [0x01, 0x03, 0x02, 0x00, 0xA4, 0xB8, 0x33]) State.reset) = some (0xFFB9, .bool false) := by
  decide +kernel

/-! ## The framer (T-ENC, T-ACC, T-PRS) -/

theorem test_encode : resultOf (exec (.encode 0x11 0x03 [0x00, 0x6B, 0x00, 0x03]) State.reset) =
    some (.bytes [0x11, 0x03, 0x00, 0x6B, 0x00, 0x03, 0x76, 0x87]) := by decide +kernel
theorem test_encode_opens_nothing : after (fun s => s.req.valid) (exec (.encode 0x01 0x03 []) State.reset) =
    some false := by decide +kernel
theorem test_encRd : after (fun s => (s.result, s.req)) (exec (.encRd 0x01 0x0012 0x0001) State.reset) =
    some (.bytes [0x01, 0x03, 0x00, 0x12, 0x00, 0x01, 0x24, 0x0F], ⟨true, 0x01, 0x03, 0x0012, 0x0001⟩) := by
  decide +kernel
theorem test_encWr : after (fun s => (s.tx, s.req)) (exec (.encWr 0x01 0x003F 0x0091) State.reset) =
    some ([0x01, 0x06, 0x00, 0x3F, 0x00, 0x91, 0x78, 0x6A], ⟨true, 0x01, 0x06, 0x003F, 0x0091⟩) := by
  decide +kernel
theorem test_accept : after (fun s => (s.rxok, s.rxlen, s.status.err, s.crc))
    (exec (.accept [0x01, 0x03, 0x02, 0x00, 0xB4, 0xB8, 0x33]) (requested 0x03 0x0012 0x0001)) =
      some (true, 7, 0x00, 0x33B8) := by decide +kernel
theorem test_accept_errors :
    resultOf (exec (.accept [0x01, 0x03, 0x02, 0x00, 0xB4, 0xB8, 0x32]) (requested 0x03 0x0012 1)) =
      some (.error .protocolCrc) ∧
    resultOf (exec (.accept [0x02, 0x03, 0x02, 0x00, 0xB4, 0xFC, 0x33]) (requested 0x03 0x0012 1)) =
      some (.error .protocolUnit) ∧
    resultOf (exec (.accept [0x01, 0x06, 0x02, 0x00, 0xB4, 0xB8, 0xFF]) (requested 0x03 0x0012 1)) =
      some (.error .protocolFn) ∧
    resultOf (exec (.accept [0x01, 0x03, 0x40]) (requested 0x03 0x0012 1)) = some (.error .protocolShort) ∧
    refusalOf (exec (.accept [0x01, 0x03, 0x02, 0x00, 0xB4, 0xB8, 0x33]) State.reset) =
      some .noRequestOutstanding := by decide +kernel
theorem test_rdrsp : after (fun s => (s.rxok, s.rxlen)) (exec (.rdrsp 0x01 [0x90] 0x24F0) (requested 0x03 0x003F 1)) =
    some (true, 6) := by decide +kernel
theorem test_wrrsp : after (fun s => (s.rxok, s.rxlen))
    (exec (.wrrsp 0x01 0x003F 0x0001 0x0678) (requested 0x06 0x003F 0x0001)) = some (true, 8) := by decide +kernel
theorem test_parseRd : resultOf (exec .parseRd (answered 0x03 0x0012 1 [0x01, 0x03, 0x02, 0x00, 0xB4, 0xB8, 0x33])) =
    some (.bytes [0x00, 0xB4]) := by decide +kernel
theorem test_parseRd_errors :
    resultOf (exec .parseRd (answered 0x03 0x003F 1 [0x01, 0x03, 0x40, 0x21])) = some (.error .decodeShort) ∧
    resultOf (exec .parseRd (answered 0x03 0x003F 1 [0x01, 0x03, 0x02, 0x00, 0xB4, 0x00, 0x33, 0x72])) =
      some (.error .decodeCount) ∧
    resultOf (exec .parseRd (answered 0x03 0x003F 1 [0x01, 0x03, 0x00, 0x20, 0xF0])) = some (.bytes []) := by
  decide +kernel
theorem test_parseRd1 :
    resultOf (exec .parseRd1 (answered 0x03 0x003F 1 [0x01, 0x03, 0x02, 0x00, 0x90, 0xB8, 0x28])) =
      some (.word 0x0090) ∧
    resultOf (exec .parseRd1 (answered 0x03 0x003F 1 [0x01, 0x03, 0x01, 0x90, 0xF0, 0x24])) =
      some (.word 0x0090) := by decide +kernel
theorem test_parseRd1_len1 : after (fun s => s.status.err)
    (exec .parseRd1 (answered 0x03 0x003F 1 [0x01, 0x03, 0x03, 0x01, 0x02, 0x03, 0x55, 0x2F])) = some 0x33 := by
  decide +kernel
theorem test_parseWr : after (fun s => s.status)
    (exec .parseWr (answered 0x06 0x003F 0x0001 [0x01, 0x06, 0x00, 0x3F, 0x00, 0x01, 0x78, 0x06])) =
      some ⟨0x00, true, false⟩ := by decide +kernel
theorem test_parseWr_warns :
    after (fun s => s.status)
      (exec .parseWr (answered 0x06 0x003F 0x0001 [0x01, 0x06, 0x00, 0x3F, 0x00, 0x91, 0x78, 0x6A])) =
        some ⟨0x00, false, true⟩ ∧
    after (fun s => s.status)
      (exec .parseWr (answered 0x06 0x003F 0x0001 [0x01, 0x06, 0x00, 0x3F, 0x00, 0x01, 0x00, 0x06, 0x22])) =
        some ⟨0x00, false, true⟩ := by decide +kernel
theorem test_clrreq : after (fun s => (s.req.valid, s.rxok, s.rxlen))
    (exec .clrreq (answered 0x03 0x0012 1 [0x01, 0x03, 0x02, 0x00, 0xB4, 0xB8, 0x33])) = some (false, false, 0) := by
  decide +kernel

/-! ## The decoder (T-XW, T-SC, T-WR, T-W65, T-AMB, T-LP, T-GB, T-FD) -/

theorem test_dbclr : after (fun s => s.dbv) (exec .dbclr (buffer 0 0)) = some 0b0000 := by decide +kernel
theorem test_loadseg : after (fun s => (s.dbv, s.db.readWord 0x168, s.db.readWord 0x16E, s.db.readWord 0x167))
    (exec (.loadseg 3) (answered 0x03 0x0168 0x0007 [0x01, 0x03, 0x0E, 0x01, 0x00, 0x01, 0x01, 0x01, 0x02, 0x01, 0x03,
      0x01, 0x04, 0x01, 0x05, 0x01, 0x06, 0xCC, 0xFC])) = some (0b1000, some 0x0100, some 0x0106, none) := by
  decide +kernel
theorem test_loadseg_seglen : after (fun s => (s.status.err, s.dbv))
    (exec (.loadseg 3) (answered 0x03 0x0168 0x0007 [0x01, 0x03, 0x02, 0x00, 0xB4, 0xB8, 0x33])) =
      some (0x34, 0b0000) := by decide +kernel
theorem test_xword : resultOf (exec (.xword 0x0012) (buffer 0x12 0x00B4)) = some (.word 0x00B4) := by decide +kernel
theorem test_xword_edges : resultOf (exec (.xword 0x016E) (buffer 0x16E 0xFFFF)) = some (.word 0xFFFF) ∧
    refusalOf (exec (.xword 0x016F) (buffer 0 0)) = some .offsetOutOfRange ∧
    refusalOf (exec (.xword 0x0012) { buffer 0 0 with dbv := 0b0111 }) = some .decodeBufferIncomplete := by
  decide +kernel
theorem test_xwordHex : xwordHex (List.replicate 56 '0' ++ ['0', '0', '1', '2'] ++ List.replicate 8 '0') addrExample.toNat =
    some 18 := by decide
theorem test_scale : resultOf (exec (.scale 250 (1 / 10)) State.reset) = some (.num ⟨25, .oneDecimal⟩) ∧
    resultOf (exec (.scale 250 0) State.reset) = some (.num ⟨250, .integer⟩) := by decide +kernel
theorem test_scale_nearest : (scaleNum 124 (1 / 100)).val = 12 / 10 ∧ (scaleNum 126 (1 / 100)).val = 13 / 10 ∧
    (scaleNum 65535 (1 / 2)).val = 327675 / 10 ∧
    refusalOf (exec (.scale 250 (-1 / 10)) State.reset) = some .negativeFactor := by decide +kernel
theorem test_wrap : resultOf (exec (.wrap ⟨65300, .integer⟩) State.reset) = some (.num ⟨-235, .integer⟩) ∧
    resultOf (exec (.wrap ⟨100, .integer⟩) State.reset) = some (.num ⟨100, .integer⟩) := by decide +kernel
theorem test_wrap_edges : (wrapAbove tSent ⟨65280, .integer⟩).val = 65280 ∧
    (wrapAbove tSent ⟨65281, .integer⟩).val = -254 ∧ (wrapAbove tSent ⟨65534, .integer⟩).val = -1 ∧
    (wrapAbove tSent ⟨65535, .integer⟩).val = 0 := by decide +kernel
theorem test_getbit : resultOf (exec (.getbit (some 0x0090) 4) State.reset) = some (.bit true) ∧
    resultOf (exec (.getbit (some 0x0090) 3) State.reset) = some (.bit false) := by decide
theorem test_getbit_edges : getBit (some 0x8000) 15 = true ∧ getBit (some 0xFFFF) 16 = false ∧
    getBit none 0 = false := by decide
theorem test_field : resultOf (exec (.field 0x0012 (1 / 10)) (buffer 0x12 0x00B4)) =
    some (.num ⟨18, .oneDecimal⟩) := by decide +kernel
theorem test_field_wraps : resultOf (exec (.field 0x0100 0) (buffer 0x100 0xFF14)) = some (.num ⟨-235, .integer⟩) ∧
    resultOf (exec (.field 0x0100 (1 / 10)) (buffer 0x100 0xFFF5)) = some (.num ⟨65525 / 10, .oneDecimal⟩) := by
  decide +kernel
theorem test_wrap65k : resultOf (exec (.wrap65k ⟨65001, .integer⟩) State.reset) = some (.num ⟨-534, .integer⟩) ∧
    resultOf (exec (.wrap65k ⟨65000, .integer⟩) State.reset) = some (.num ⟨65000, .integer⟩) := by decide +kernel
theorem test_ambfix : resultOf (exec (.ambfix ⟨65525 / 2, .oneDecimal⟩) State.reset) =
      some (.num ⟨-5, .oneDecimal⟩) ∧
    resultOf (exec (.ambfix ⟨32500, .oneDecimal⟩) State.reset) = some (.num ⟨32500, .oneDecimal⟩) := by
  decide +kernel
theorem test_lpfix : resultOf (exec (.lpfix ⟨65001 / 10, .oneDecimal⟩) State.reset) =
      some (.num ⟨-534 / 10, .oneDecimal⟩) ∧
    resultOf (exec (.lpfix ⟨6500, .oneDecimal⟩) State.reset) = some (.num ⟨6500, .oneDecimal⟩) := by decide +kernel

/-! ## The flag unit and the derived values (T-FL, T-FM, T-PU, T-AF, T-ER) -/

theorem test_setbit : resultOf (exec (.setbit 0x0090 0) State.reset) = some (.word 0x0091) ∧
    refusalOf (exec (.setbit 0x0000 16) State.reset) = some .noSuchBit := by decide
theorem test_clrbit : resultOf (exec (.clrbit 0x0030 5) State.reset) = some (.word 0x0010) ∧
    resultOf (exec (.clrbit 0xFFFF 15) State.reset) = some (.word 0x7FFF) := by decide
theorem test_fmode : (freqMode (some 0x0030) (some 0x0000)).number = 30 ∧
    (freqMode (some 0x0020) (some 0x0002)).number = 40 ∧ (freqMode (some 0x0010) (some 0x0000)).number = 20 ∧
    (freqMode (some 0xFFCF) (some 0xFFFD)).number = 10 ∧ (freqMode none none).number = 10 := by decide
theorem test_pumpon : resultOf (exec (.pumpon ⟨35, .integer⟩) State.reset) = some (.bool true) ∧
    resultOf (exec (.pumpon ⟨0, .integer⟩) State.reset) = some (.bool false) := by decide +kernel
theorem test_antifrz : resultOf (exec (.antifrz false false true) State.reset) = some (.bool true) ∧
    resultOf (exec (.antifrz false false false) State.reset) = some (.bool false) := by decide

/-- The catalogue that T-ER-2 to T-ER-5 invent. -/
def cat : Nat → List Config.CatEntry
  | 1 => [⟨0, .hardwareFault, "A"⟩, ⟨3, .hardwareFault, "B"⟩]
  | 6 => [⟨0, .antiFreezeNotice, "Secondary anti-freezing"⟩]
  | _ => []

theorem test_errint_first_entry : interpretErrors cat (fun _ => "U") "N" [0x0009, 0, 0, 0, 0, 0, 0] = (4, "A") ∧
    interpretErrors cat (fun _ => "U") "N" [0x0008, 0, 0, 0, 0, 0, 0] = (4, "B") := by decide
theorem test_errint_last_register :
    interpretErrors cat (fun _ => "U") "N" [0x0001, 0, 0, 0, 0, 0x8000, 0] = (3, "U") ∧
    interpretErrors cat (fun _ => "U") "N" [0x0001, 0, 0, 0, 0, 0x0001, 0] = (2, "Secondary anti-freezing") := by
  decide

/-! ## Witnesses: a state and operands that meet the hypotheses of each statement

Names: `witness_<statement>_<clause>`. -/

theorem witness_step_decodes : ∃ (s : State) (x : Transfer) (rest : List Transfer) (i : Instr),
    s.pending = x :: rest ∧ decode x = .ok i :=
  ⟨State.reset.withPending [.operation 0x17 []], .operation 0x17 [], [], .clrreq, rfl, rfl⟩
theorem witness_step_idle : State.reset.pending = [] := rfl
theorem witness_encodable : Instr.encodable (.rdrsp 1 (List.replicate 255 0) 0) = true := by decide +kernel
theorem witness_decoded : decode (.receive [0x01, 0x03]) = .ok (.accept [0x01, 0x03]) := by decide
theorem witness_reserved : (State.reset.withPending [.operation 0x44 []]).pending = [.operation 0x44 []] ∧
    (0x44 : Byte).toNat ∉ [0x00, 0x01, 0x10, 0x11, 0x12, 0x13, 0x14, 0x15, 0x16, 0x17, 0x20, 0x21, 0x22, 0x23, 0x24,
      0x25, 0x26, 0x27, 0x28, 0x29, 0x30, 0x31, 0x40, 0x41, 0x42, 0x43] := ⟨rfl, by decide⟩
theorem witness_received : (State.reset.withPending [.receive []]).pending = .receive [] :: [] := rfl
theorem witness_validate_short : ([1, 2, 3] : List Byte).length < 4 := by decide
theorem witness_validate_body : 2 ≤ ([1, 3] : List Byte).length := by decide
theorem witness_flip_trailer : (encodeFrame 0x01 0x03 [])[3]? = some 0x21 := by decide +kernel
theorem witness_flip_body : (encodeFrame 0x01 0x03 [])[0]? = some 0x01 := by decide +kernel
theorem witness_residue : 4 ≤ ([0x01, 0x03, 0x40, 0x21] : List Byte).length := by decide
theorem witness_accept_shortest : (requested 0x03 0 1).req.valid = true ∧ 2 ≤ ([1, 3] : List Byte).length ∧
    ([1, 3] : List Byte).length ≤ 254 ∧ ([1, 3] : List Byte)[0]? = some (requested 0x03 0 1).req.unit ∧
    ([1, 3] : List Byte)[1]? = some (requested 0x03 0 1).req.fn := by decide +kernel
theorem witness_accept_longest : (1 :: 3 :: List.replicate 252 (0 : Byte)).length = 254 := by decide +kernel
theorem witness_reject_short : (requested 0x03 0 1).req.valid = true ∧ ([] : List Byte).length < 4 := by
  decide +kernel
theorem witness_reject_crc : ¬ ((0x40 : Byte) = lo8 (crc16 [1, 3]) ∧ (0x20 : Byte) = hi8 (crc16 [1, 3])) := by
  decide +kernel
theorem witness_reject_unit : (lo8 (crc16 [2, 3]) = lo8 (crc16 [2, 3]) ∧ hi8 (crc16 [2, 3]) = hi8 (crc16 [2, 3])) ∧
    ([2, 3] : List Byte)[0]? ≠ some (requested 0x03 0 1).req.unit := by decide +kernel
theorem witness_reject_fn : ([1, 6] : List Byte)[0]? = some (requested 0x03 0 1).req.unit ∧
    ([1, 6] : List Byte)[1]? ≠ some (requested 0x03 0 1).req.fn := by decide +kernel
theorem witness_response_read : (requested 0x03 0 1).req.valid = true ∧ (requested 0x03 0 1).req.fn = 0x03 ∧
    (List.replicate 251 (0 : Byte)).length ≤ 251 := by decide +kernel
theorem witness_response_write : (requested 0x06 0 1).req.valid = true ∧ (requested 0x06 0 1).req.fn = 0x06 := by
  decide +kernel

/-- What the read-response statements ask of a state. -/
def readShape (s : State) (len bc : Nat) : Bool :=
  s.rxok && (s.req.fn == 0x03) && (s.rxlen.toNat == len) && ((s.rxb[2]).toNat == bc)

theorem witness_parse_short : readShape (answered 0x03 0 1 [1, 3, 0x40, 0x21]) 4 0x40 = true := by decide +kernel
theorem witness_parse_count : readShape (answered 0x03 0 1 [1, 3, 1, 0, 0]) 5 1 = true := by decide +kernel
theorem witness_parse_empty : readShape (answered 0x03 0 1 [1, 3, 0, 0x20, 0xF0]) 5 0 = true := by decide +kernel
theorem witness_parse_longest :
    readShape (answered 0x03 0 1 (1 :: 3 :: 251 :: List.replicate 253 0)) 256 251 = true := by decide +kernel
theorem witness_parse_two : readShape (answered 0x03 0 1 [1, 3, 2, 0, 0x90, 0xB8, 0x28]) 7 2 = true := by
  decide +kernel
theorem witness_parse_one : readShape (answered 0x03 0 1 [1, 3, 1, 0x90, 0xF0, 0x24]) 6 1 = true := by decide +kernel
theorem witness_echo : let s := answered 0x06 0x3F 1 [0x01, 0x06, 0x00, 0x3F, 0x00, 0x01, 0x78, 0x06]
    s.Inv ∧ s.rxok = true ∧ s.req.fn = 0x06 := by decide +kernel
theorem witness_load_first : let s := answered 0x03 0x0000 0x0078 (1 :: 3 :: 240 :: List.replicate 242 0)
    readShape s 245 240 = true ∧ s.req.a = 0x0000 ∧ s.req.b = 0x0078 ∧ s.rxlen.toNat = 5 + 2 * (0x0078 : Word).toNat ∧
    ((0 : Byte).toNat, (0x0000 : Word), (0x0078 : Word)) ∈ [(0, 0x0000, 0x0078), (1, 0x0078, 0x0078),
      (2, 0x00F0, 0x0078), (3, 0x0168, 0x0007)] := by decide +kernel
theorem witness_load_last : let s := answered 0x03 0x0168 0x0007 (1 :: 3 :: 14 :: List.replicate 16 0)
    readShape s 19 14 = true ∧ s.req.a = 0x0168 ∧ s.req.b = 0x0007 := by decide +kernel
theorem witness_load_short : readShape (answered 0x03 0x0168 0x0007 [1, 3, 0x40, 0x21]) 4 0x40 = true := by
  decide +kernel
theorem witness_load_count : readShape (answered 0x03 0x0168 0x0007 [1, 3, 1, 0, 0]) 5 1 = true := by decide +kernel
theorem witness_load_seglen : readShape (answered 0x03 0x0168 0x0007 [1, 3, 0, 0x20, 0xF0]) 5 0 = true := by
  decide +kernel

/-- A run of cells reads as the function that fills it. -/
theorem read_run (f : Nat → Byte) (k n i : Nat) (h : i < n) :
    Memory.read ((List.range' k n).map fun x => (x, f x)) (k + i) = some (f (k + i)) := by
  induction n generalizing k i with
  | zero => omega
  | succ n ih =>
    simp only [List.range'_succ, List.map_cons, Memory.read]
    rcases i with _ | i
    · simp
    · rw [if_neg (by omega), show k + (i + 1) = (k + 1) + i by omega]
      exact ih (k + 1) i (by omega)

theorem run_wf (f : Nat → Byte) (n : Nat) : Memory.wf ((List.range n).map fun x => (x, f x)) :=
  List.pairwise_map.2 List.pairwise_lt_range
theorem run_below (f : Nat → Byte) (n : Nat) : Memory.below ((List.range n).map fun x => (x, f x)) n := by
  intro c hc
  obtain ⟨m, hm, rfl⟩ := List.mem_map.1 hc
  exact List.mem_range.1 hm

/-- A complete decode buffer meets the invariant. -/
theorem buffer_inv (a : Nat) (w : Word) : (buffer a w).Inv := by
  refine ⟨Nat.zero_le _, ?_, fun _ => rfl, ?_, ?_, ?_, ?_, rfl, List.Pairwise.nil, ?_⟩
  · intro h; cases h
  · intro h; cases h
  · simp only [buffer]
    exact run_wf (fun n => if n = 2 * a then hi8 w else if n = 2 * a + 1 then lo8 w else 0) 734
  · simp only [buffer]
    exact run_below (fun n => if n = 2 * a then hi8 w else if n = 2 * a + 1 then lo8 w else 0) 734
  · intro k _ i hi
    have hk : ∀ k : Fin 4, 2 * (segments[k]).1.toNat + 2 * (segments[k]).2.toNat ≤ 734 := by decide
    have := hk k
    have hr := read_run (fun n => if n = 2 * a then hi8 w else if n = 2 * a + 1 then lo8 w else 0) 0 734
      (2 * (segments[k]).1.toNat + i) (by omega)
    rw [Nat.zero_add, ← List.range_eq_range'] at hr
    simp only [buffer]
    rw [hr]
    rfl
  · intro c hc; cases hc

theorem witness_xword_last : (buffer 0x16E 1).Inv ∧ (buffer 0x16E 1).dbv = 0b1111 ∧ (0x016E : Word).toNat ≤ 0x016E :=
  ⟨buffer_inv _ _, rfl, by decide⟩
theorem mapM_isSome {α β : Type} (f : α → Option β) (l : List α) (h : ∀ a ∈ l, (f a).isSome = true) :
    ∃ bs, l.mapM f = some bs := by
  induction l with
  | nil => exact ⟨[], rfl⟩
  | cons a l ih =>
    obtain ⟨b, hb⟩ := Option.isSome_iff_exists.1 (h a (by simp))
    obtain ⟨bs, hbs⟩ := ih fun x hx => h x (by simp [hx])
    exact ⟨b :: bs, by simp [List.mapM_cons, hb, hbs]⟩
theorem witness_hex_view : ∃ h, hexView (buffer 0x0E 0x0012) = some h := by
  have hr := read_run (fun n => if n = 2 * 0x0E then hi8 0x0012 else if n = 2 * 0x0E + 1 then lo8 0x0012 else 0) 0 734
  rw [← List.range_eq_range'] at hr
  obtain ⟨ws, hws⟩ := mapM_isSome (fun a => (buffer 0x0E 0x0012).db.readWord a) (List.range dbRegs) (by
    intro a ha
    have ha : a < 367 := List.mem_range.1 ha
    have h1 := hr (2 * a) (by omega)
    have h2 := hr (2 * a + 1) (by omega)
    rw [Nat.zero_add] at h1 h2
    simp only [buffer, Memory.readWord]
    rw [h1, h2]
    rfl)
  exact ⟨_, by unfold hexView; rw [hws]; rfl⟩
theorem witness_hex_payload : 2 * 1 + 2 ≤ ([0, 0, 0, 0x12] : List Byte).length := by decide
theorem witness_factors : (0 : Rat) < 1 / 10 ∧ (-1 / 10 : Rat) < 0 ∧ (0 : Rat) ≤ 0 := by decide +kernel
theorem witness_wrap : (65280 : Rat) < 65281 ∧ (65280 : Rat) ≤ 65280 := by decide +kernel
theorem witness_bit_index : 15 < (16 : Byte).toNat ∧ (15 : Byte).toNat ≤ 15 := by decide
theorem witness_field : (buffer 0x16E 1).Inv ∧ (buffer 0x16E 1).dbv = 0b1111 ∧ (0x016E : Word).toNat ≤ 0x016E ∧
    (0 : Rat) ≤ 0 := ⟨buffer_inv _ _, rfl, by decide, le_refl _⟩
/-- The greatest factor of R129, on the greatest word. -/
theorem witness_small_factor : ∃ v,
    resultOf (exec (.field 0 (65280 / 65535)) (buffer 0 0xFFFF)) = some (.num v) ∧ v.val = 65280 :=
  ⟨⟨65280, .oneDecimal⟩, by decide +kernel, rfl⟩
theorem witness_factor_zero : resultOf (exec (.field 0 0) (buffer 0 0xFF01)) = some (.num ⟨-254, .integer⟩) := by
  decide +kernel
theorem witness_wrap65k : (65000 : Rat) < 65001 ∧ (65000 : Rat) ≤ 65000 := by decide +kernel
theorem witness_wrap65k_chain : resultOf (exec (.wrap ⟨65281, .integer⟩) State.reset) = some (.num ⟨-254, .integer⟩) ∧
    ran (exec (.wrap65k ⟨-254, .integer⟩) State.reset) = true := by decide +kernel
theorem witness_ambfix : (65000 : Rat) < 65001 / 2 * 2 ∧ (32500 : Rat) * 2 ≤ 65000 := by decide +kernel
theorem witness_ambfix_chain :
    resultOf (exec (.field 7 (1 / 2)) (buffer 7 0xFFF5)) = some (.num ⟨65525 / 2, .oneDecimal⟩) ∧
    (buffer 7 0xFFF5).db.readWord 7 = some 0xFFF5 := by decide +kernel
theorem witness_lpfix : (65000 : Rat) < 65001 / 10 * 10 ∧ (6500 : Rat) * 10 ≤ 65000 := by decide +kernel
theorem witness_lpfix_chain :
    resultOf (exec (.field 7 (1 / 10)) (buffer 7 0xFFF5)) = some (.num ⟨65525 / 10, .oneDecimal⟩) ∧
    (buffer 7 0xFFF5).db.readWord 7 = some 0xFFF5 := by decide +kernel
theorem witness_bit_already_set : (0x0091 : Word).getLsbD (0 : Byte).toNat = true ∧
    (0x0090 : Word).getLsbD (0 : Byte).toNat = false := by decide
theorem witness_other_bit : (15 : Nat) ≤ 15 ∧ (15 : Nat) ≠ (0 : Byte).toNat := by decide
theorem witness_flag_laws : (0 : Byte).toNat ≤ 15 ∧ (15 : Byte).toNat ≤ 15 ∧ (0 : Byte) ≠ 15 := by decide
theorem witness_pump : (0 : Rat) < 35 ∧ (0 : Rat) ≤ 0 := by decide +kernel
theorem witness_errint_entry : ([1, 0, 0, 0, 0, 1, 0] : List Word)[5]? = some 1 ∧ (1 : Word) ≠ 0 ∧
    (∀ m v, 5 < m → ([1, 0, 0, 0, 0, 1, 0] : List Word)[m]? = some v → v = 0) ∧
    cat (5 + 1) = [] ++ ⟨0, .antiFreezeNotice, "Secondary anti-freezing"⟩ :: [] ∧ (1 : Word).getLsbD 0 = true := by
  refine ⟨rfl, by decide, ?_, rfl, by decide⟩
  intro m v hm h
  rcases Nat.lt_or_ge m 7 with h7 | h7
  · obtain rfl : m = 6 := by omega
    simpa using h.symm
  · rw [List.getElem?_eq_none (by simpa using h7)] at h
    cases h
theorem witness_errint_unknown : ∀ x ∈ cat (5 + 1), (0x8000 : Word).getLsbD x.bit.val = false := by decide
theorem witness_refusals : State.reset.Inv ∧ exec .parseRd State.reset = .refused .noAcceptedRead := by
  refine ⟨by decide +kernel, rfl⟩
theorem witness_next : ∃ t, exec .clrreq State.reset = .next t := ⟨_, rfl⟩
theorem witness_fault : exec (.xword 0) { State.reset with dbv := 0b1111 } = .fault .unloadedDecodeByte := rfl
theorem witness_inv_step : State.reset.Inv ∧ ∃ t, step State.reset = .next t := ⟨by decide +kernel, _, rfl⟩
theorem witness_inv_accepted :
    (answered 0x03 0x0012 1 [0x01, 0x03, 0x02, 0x00, 0xB4, 0xB8, 0x33]).Inv := by decide +kernel
theorem witness_reset_segments : (3 : Byte).toNat ≤ 3 := by decide

/-! ### The host -/

/-- The parameters of the tests (the spec's default times, R8). -/
def params : Config.HostParams where
  unit := 0x01
  hostName := ""
  port := 502
  tTimeout := 2000
  tGap := 200
  tPoll := 30000
  tPollRetry := 10000
  otherFields := [("suction gas", .suctionOrCoil 0x016E 0), ("anti-freeze", .antiFreeze [0x0000])]
  otherPacked := [0x0050, 0x0043]
  antiFreezeInputs := fun _ => (false, false, false)
  heatingSkips := false

/-- A state whose link has a script. -/
def withScript (l : List LinkEvent) : State :=
  State.reset.withLink { State.reset.link with script := l }

/-- Two attempts that cannot connect. -/
def deadLink : State := withScript [⟨.noConnect, 5, none⟩, ⟨.noConnect, 3000, none⟩]

theorem test_gap_and_budget : after (fun s => (s.host.pairs, s.host.now)) (hostStep params .tick deadLink) =
    some ([(205, 2205), (0, 5)], 2205) := by decide +kernel
theorem test_poll_fails : after (fun s => (s.host.trail, s.host.reports, s.host.nextTick))
    (hostStep params .tick deadLink) = some ([.reading, .failed, .idle], [.pollFailed], 12205) := by decide +kernel
/-- R160, R181: a socket failure later than T_TIMEOUT is a timeout. -/
theorem test_late_socket_failure : after (fun s => s.host.log) (hostStep params .tick
    (withScript [⟨.socketFailure false, 2000, none⟩, ⟨.socketFailure false, 2001, none⟩])) =
      some [.failedAttempt 0x0000 false 1 .transportSocket, .failedAttempt 0x0000 false 2 .transportTimeout] := by
  decide +kernel
/-- R166: a failed command is logged and reported. -/
theorem test_command_fails : after (fun s => (s.host.reports, s.host.log, s.host.phase))
    (hostStep params (.write 0x0043 1) deadLink) =
      some ([.commandFailed ⟨none, [(0x0043, 1)], none⟩],
        [.failedAttempt 0x0043 true 1 .transportConnect, .failedAttempt 0x0043 true 2 .transportConnect,
         .failedCommand 0x0043 true], .idle) := by decide +kernel
/-- R142: a value for a packed register is not written without a read. -/
theorem test_packed_write : writeCommand params 0x003F 0x0001 = rmwCommand 0x003F (wholeEdits 0x0001) ∧
    writeCommand params 0x0043 0x0001 = ⟨none, [(0x0043, 0x0001)], none⟩ := by decide +kernel
/-- R25 (3): ENCODE's frame with an empty payload goes on the link. -/
theorem test_other_frame : after (fun s => s.link.sent)
    (step { State.reset with pending := [.transmit [0x01, 0x03, 0x40, 0x21]] }) =
      some [[0x01, 0x03, 0x40, 0x21]] := by decide +kernel
theorem witness_other_frame : ([0x01, 0x03, 0x40, 0x21] : List Byte).length ≠ 8 ∧
    ([1, 4, 0, 0, 0, 1, 0, 0] : List Byte)[1]? ≠ some 0x03 ∧
    ([1, 4, 0, 0, 0, 1, 0, 0] : List Byte)[1]? ≠ some 0x06 := by decide
theorem witness_request : isRequest (.encRd 1 0x003F 1) 1 0x03 0x003F 1 ∧ isRequest (.encWr 1 0x003F 1) 1 0x06 0x003F 1 ∧
    isParse .parseRd1 ∧ isParse (.loadseg 3) :=
  ⟨.inl ⟨rfl, rfl⟩, .inr ⟨rfl, rfl⟩, .inr (.inl rfl), .inr (.inr (.inr ⟨3, rfl⟩))⟩
theorem witness_transaction : deadLink.link.connected = false ∧
    (∀ e ∈ deadLink.link.script.take 2, e.reset = none) ∧
    valueOf (transaction params (.encRd 1 0x003F 1) .parseRd1 0x003F false deadLink) = some .failed :=
  ⟨rfl, by decide, by decide +kernel⟩
/-- R162: `RDRANGE 0x01, 0x0168, 0x0007` sends this frame. -/
theorem test_rdrange_gives_the_data : ∃ t, rdRange params 0x01 0x0168 0x0007
    (withScript [⟨.delivers (encodeFrame 0x01 0x03 (readPayload [0x12, 0x34])), 9, none⟩]) =
      .next (.success (.bytes [0x12, 0x34]), t) ∧
    t.link.sent = [[0x01, 0x03, 0x01, 0x68, 0x00, 0x07, 0x84, 0x28]] := by
  obtain ⟨hfn, s0, hs0, hr, hl, -⟩ := transaction_eq_tries (p := params)
    (s := withScript [⟨.delivers (encodeFrame 0x01 0x03 (readPayload [0x12, 0x34])), 9, none⟩])
    (Or.inl ⟨rfl, rfl⟩ : isRequest (.encRd 0x01 0x0168 0x0007) 0x01 0x03 0x0168 0x0007)
  obtain ⟨t, ht, hb, -, hlt⟩ := attempt_delivers (p := params) (parse := .parseRd) (s := s0.setAttempts (s0.host.attempts + 1))
    (u := 0x01) (a := 0x0168) (n := 0x0007) hfn (congrArg Link.script hl) (by decide)
  have hq : t.req = ⟨true, 0x01, 0x03, 0x0168, 0x0007⟩ := hb.2.1.symm.trans hr
  have sent : (t.judging (encodeFrame 0x01 0x03 (readPayload [0x12, 0x34]))).link.sent =
      [[0x01, 0x03, 0x01, 0x68, 0x00, 0x07, 0x84, 0x28]] := by
    rw [judging_link, hlt, show (s0.setAttempts (s0.host.attempts + 1)).link = s0.link from rfl, hl]
    exact congrArg (fun f => [f]) (by decide +kernel : encodeFrame 0x01 0x03 (payload16 0x0168 0x0007) = _)
  unfold rdRange
  rw [hs0]
  unfold tries
  rw [ht]
  unfold judge
  rw [accept_encoded (by rw [hq]) (by rw [hq]) (by rw [hq]) (by decide)]
  simp only [andThen_next, State.ended_result, reduceCtorEq, if_false]
  unfold exec execParseRd
  have hd := readData_kept (unit := 0x01) (d := [0x12, 0x34]) (s := t) (by rw [hq]; rfl) (by decide)
  change readData _ = _ at hd
  erw [hd]
  exact ⟨_, rfl, sent⟩
theorem witness_rdrange : (List.replicate 251 (0 : Byte)).length ≤ 251 ∧ ∃ s : State, s.link.script =
    [⟨.delivers (encodeFrame 0x01 0x03 (readPayload (List.replicate 251 0))), 2000, none⟩] ∧ 2000 ≤ params.tTimeout :=
  ⟨List.length_replicate.le, withScript _, rfl, by decide⟩
theorem witness_first_rejected :
    acceptError { valid := true, unit := 0x01, fn := 0x03, a := 0x003F, b := 0x0001 } [1, 3, 0x40, 0x20] =
      some .protocolCrc ∧ [1, 3, 0x40, 0x20].length ≤ 256 ∧ ∃ s : State, s.link.script =
    [⟨.delivers [1, 3, 0x40, 0x20], 2000, none⟩,
      ⟨.delivers (encodeFrame 0x01 0x03 [2, hi8 0x0090, lo8 0x0090]), 0, none⟩] ∧ 2000 ≤ params.tTimeout :=
  ⟨by decide +kernel, by decide, withScript _, rfl, by decide⟩
/-- A write of 0x0091 to 0x003F: no connection first, then the echo. -/
theorem witness_second_attempt (s : State) :
    let latch : Req := { valid := true, unit := 0x01, fn := 0x06, a := 0x003F, b := 0x0091 }
    failsWith params (encodeFrame 0x01 0x06 (payload16 0x003F 0x0091)) .parseWr ⟨.noConnect, 5, none⟩
      { s with req := latch } .transportConnect ∧
    (∀ u : State, u.req = latch → ∃ v w,
      exec (.accept (encodeFrame 0x01 0x06 (payload16 0x003F 0x0091))) u = .next v ∧ v.result = .ok ∧
      exec .parseWr v = .next w ∧ w.result = .bool true) ∧ ∀ cause, Result.bool true ≠ .error cause := by
  refine ⟨rfl, fun u hu => ?_, by simp⟩
  let b : List Byte := encodeFrame 0x01 0x06 (payload16 0x003F 0x0091)
  let v := ((u.judging b).keepResponse b).ended 0x00 .ok
  have hb : b = [0x01, 0x06, 0x00, 0x3F, 0x00, 0x91, 0x78, 0x6A] := by decide +kernel
  have hv : v.req = u.req := by simp [v]
  have he : echoMatches v = true := by
    have hget := fun n hn h => getElem_kept u b n hn h
    have h2 : v.rxb[2] = 0x00 := (hget 2 (by omega) (by simp [b])).trans (by simp [hb])
    have h3 : v.rxb[3] = 0x3F := (hget 3 (by omega) (by simp [b])).trans (by simp [hb])
    have h4 : v.rxb[4] = 0x00 := (hget 4 (by omega) (by simp [b])).trans (by simp [hb])
    have h5 : v.rxb[5] = 0x91 := (hget 5 (by omega) (by simp [b])).trans (by simp [hb])
    unfold echoMatches
    rw [h2, h3, h4, h5, hv, hu]
    simp [v, b]
    decide
  refine ⟨v, (v.withEcho true).ended 0x00 (.bool true), accept_encoded (by rw [hu]) (by rw [hu]) (by rw [hu]) (by simp),
    rfl, ?_, rfl⟩
  unfold exec execParseWr
  rw [if_neg (by simp [State.hasResponse, hv, hu, fnWrite]; simp [v]), he]
  rfl
theorem witness_fails_late : failsWith params [] .parseWr ⟨.delivers [], 2001, none⟩ State.reset .transportTimeout :=
  rfl
/-- A link in whose first attempt PWFC is reset. -/
def resetAt (q : ResetPoint) (fate : LinkFate) : State := withScript [⟨fate, 7, some q⟩]
theorem test_reset_during_poll : ∀ q ∈ [ResetPoint.waiting, .opening],
    after (fun s => (s.host.reports, s.host.log, s.req.valid, s.dbv))
      (hostStep params .tick (resetAt q .silence)) =
        some ([.pollFailed], [.abandoned 0x0000 false 1 .none], false, 0b0000) := by decide +kernel
/-- R192: the cause of an attempt that had failed before the reset is in the log. -/
theorem test_reset_keeps_the_cause : after (fun s => s.host.log) (hostStep params .tick (resetAt .ended .noConnect)) =
    some [.abandoned 0x0000 false 1 (.error .transportConnect)] := by decide +kernel
theorem witness_reset_late : params.tTimeout < 2001 := by decide
theorem witness_reset_crc : 4 ≤ ([1, 3, 0x40, 0x20] : List Byte).length ∧ validate [1, 3, 0x40, 0x20] = false ∧
    ∃ t, transaction params (.encRd 1 0x003F 1) .parseRd1 0x003F false
      (resetAt .ended (.delivers [1, 3, 0x40, 0x20])) = .next (.failed, t) := by
  refine ⟨by decide, by decide +kernel, ?_⟩
  obtain ⟨hfn, s0, hs0, hr, hl, -⟩ := transaction_eq_tries (p := params)
    (s := resetAt .ended (.delivers [1, 3, 0x40, 0x20])) (Or.inl ⟨rfl, rfl⟩ : isRequest (.encRd 1 0x003F 1) 1 0x03 0x003F 1)
  obtain ⟨t, ht, hb, -⟩ := attempt_judges (p := params) (parse := .parseRd1) (s := s0.setAttempts (s0.host.attempts + 1))
    (u := 1) (a := 0x003F) (n := 1) hfn (congrArg Link.script hl) (by decide) (.inr (.inr rfl))
  have hq : t.req = ⟨true, 1, 0x03, 0x003F, 1⟩ := hb.2.1.symm.trans hr
  rw [hs0]
  unfold tries
  rw [ht, judge_rejects (e := .protocolCrc) (by rw [hq]) (by simp) (by rw [hq]; decide +kernel)]
  exact ⟨_, rfl⟩
theorem witness_reset_points : (resetAt .ended .noConnect).link.connected = false ∧
    (resetAt .ended .noConnect).link.script = [⟨.noConnect, 7, some .ended⟩] ∧ LinkFate.silence.sends = true ∧
    ran (transaction params (.encRd 1 0x003F 1) .parseRd1 0x003F false (resetAt .ended .noConnect)) = true := by
  decide +kernel
/-- The state that ACCEPT sees in a transaction that reads 0x003F: the request in the latch. -/
def asked : State := { State.reset with req := ⟨true, 1, 0x03, 0x003F, 1⟩ }
theorem witness_reset_accepted : 7 ≤ params.tTimeout ∧
    arriving (encodeFrame 1 0x03 (payload16 0x003F 1)) ⟨.delivers [1, 3, 0x40, 0x21], 7, some .accepted⟩
      (resetAt .accepted (.delivers [1, 3, 0x40, 0x21])) = some [1, 3, 0x40, 0x21] ∧
    after (fun u => u.result) (exec (.accept [1, 3, 0x40, 0x21]) asked) = some .ok := ⟨by decide, rfl, by decide +kernel⟩
theorem witness_reset_rejected : after (fun u => u.result) (exec (.accept [1, 3, 0x40, 0x20]) asked) =
    some (.error .protocolCrc) := by decide +kernel
theorem witness_reset_unanswered : LinkFate.silence.sends = true ∧
    arriving (encodeFrame 1 0x03 (payload16 0x003F 1)) ⟨.silence, 7, some .ended⟩ State.reset = none ∧
    ∀ sent, LinkFate.silence ≠ .socketFailure sent := ⟨rfl, rfl, by simp⟩
theorem witness_reset_parsed : after (fun u => after (fun v => v.result) (exec .parseRd1 u))
      (exec (.accept [1, 3, 0x40, 0x21]) asked) = some (some (.error .decodeShort)) ∧
    ∃ t, transaction params (.encRd 1 0x003F 1) .parseRd1 0x003F false
      (resetAt .ended (.delivers [1, 3, 0x40, 0x21])) = .next (.failed, t) := by
  refine ⟨by decide +kernel, ?_⟩
  obtain ⟨hfn, s0, hs0, hr, hl, -⟩ := transaction_eq_tries (p := params)
    (s := resetAt .ended (.delivers [1, 3, 0x40, 0x21])) (Or.inl ⟨rfl, rfl⟩ : isRequest (.encRd 1 0x003F 1) 1 0x03 0x003F 1)
  obtain ⟨t, ht, hb, -⟩ := attempt_judges (p := params) (parse := .parseRd1) (s := s0.setAttempts (s0.host.attempts + 1))
    (u := 1) (a := 0x003F) (n := 1) hfn (congrArg Link.script hl) (by decide) (.inr (.inr rfl))
  have hq : t.req = ⟨true, 1, 0x03, 0x003F, 1⟩ := hb.2.1.symm.trans hr
  have hd : readData (((t.judging [1, 3, 0x40, 0x21]).keepResponse [1, 3, 0x40, 0x21]).ended 0x00 .ok) =
      .error .decodeShort := by
    unfold readData
    rw [if_neg (by simp [State.hasResponse, hq, fnRead]), if_pos (by simp)]
  rw [hs0]
  unfold tries
  rw [ht, judge_accepts (by rw [hq]) (by simp) (by rw [hq]; decide +kernel) (by decide)]
  unfold exec execParseRd1
  rw [hd]
  exact ⟨_, rfl⟩
/-- A write for which no connection can be opened fails. -/
theorem no_connection {s : State} {reg value : Word} {n m : Nat} {rest : List LinkEvent}
    (hs : s.link.script = ⟨.noConnect, n, none⟩ :: ⟨.noConnect, m, none⟩ :: rest) :
    ∃ t, wrSingle params params.unit reg value s = .next (.failed, t) := by
  have one : ∀ (f : List Byte) (s : State) (n : Nat) (rest : List LinkEvent),
      s.link.script = ⟨.noConnect, n, none⟩ :: rest →
      ∃ t, attempt params f .parseWr s = .next (.failure .transportConnect, t) ∧ t.link.script = rest := by
    intro f s n rest hs
    have he : (s.waitGap params).nextEvent =
        (⟨.noConnect, n, none⟩, (s.waitGap params).withLink { s.link with script := rest }) := nextEvent_of_cons hs
    unfold attempt
    rw [he]
    exact ⟨_, rfl, rfl⟩
  obtain ⟨hfn, s0, hs0, -, hl, -⟩ := transaction_eq_tries (p := params) (s := s)
    (Or.inr ⟨rfl, rfl⟩ : isRequest (.encWr params.unit reg value) params.unit 0x06 reg value)
  obtain ⟨t1, h1, l1⟩ := one (encodeFrame params.unit 0x06 (payload16 reg value))
    (s0.setAttempts (s0.host.attempts + 1)) n _ ((congrArg Link.script hl).trans hs)
  obtain ⟨t2, h2, -⟩ := one (encodeFrame params.unit 0x06 (payload16 reg value))
    ((t1.logged (.failedAttempt reg true t1.host.attempts .transportConnect)).setAttempts (t1.host.attempts + 1)) m _ l1
  unfold wrSingle
  rw [hs0]
  unfold tries
  rw [h1]
  simp only [andThen_next]
  unfold tries
  erw [h2]
  exact ⟨_, rfl⟩
theorem witness_read_fails : (rmwCommand 0x003F [.set 0]).legal params = true ∧ deadLink.link.connected = false ∧
    valueOf (rdSingle params params.unit 0x003F (deadLink.enter .readCurrent)) = some .failed :=
  ⟨by decide, rfl, by decide +kernel⟩
theorem witness_plain_write_fails : isPacked params 0x0043 = false ∧
    valueOf (wrSingle params params.unit 0x0043 1 (deadLink.enter .write)) = some .failed :=
  ⟨by decide, by decide +kernel⟩
theorem witness_write_fails : ∃ (s t1 t2 t3 t4 : State),
    rdSingle params params.unit 0x003F (s.enter .readCurrent) = .next (.success (.word 0x0090), t1) ∧
    alreadySet (rmwCommand 0x003F [.set 0]).skipIf 0x0090 (t1.enter .computeTarget) = .next (false, t2) ∧
    applyEdits [.set 0] 0x0090 t2 = .next (0x0091, t3) ∧
    wrSingle params params.unit 0x003F 0x0091 (t3.enter .write) = .next (.failed, t4) := by
  let b : List Byte := encodeFrame 1 0x03 [1, 0x90]
  obtain ⟨hfn, s0, hs0, hr, hl, -⟩ := transaction_eq_tries (p := params)
    (s := (withScript [⟨.delivers b, 7, none⟩, ⟨.noConnect, 5, none⟩, ⟨.noConnect, 5, none⟩]).enter .readCurrent)
    (Or.inl ⟨rfl, rfl⟩ : isRequest (.encRd params.unit 0x003F 1) params.unit 0x03 0x003F 1)
  obtain ⟨t, ht, hb, -, hlt⟩ := attempt_delivers (p := params) (parse := .parseRd1)
    (s := s0.setAttempts (s0.host.attempts + 1)) (u := params.unit) (a := 0x003F) (n := 1) hfn
    (congrArg Link.script hl) (by decide)
  have hq : t.req = ⟨true, 1, 0x03, 0x003F, 1⟩ := hb.2.1.symm.trans hr
  have hd : readData (((t.judging b).keepResponse b).ended 0x00 .ok) = .data [0x90] :=
    readData_kept (d := [0x90]) (by rw [hq]; rfl) (by decide)
  have hread : rdSingle params params.unit 0x003F ((withScript [⟨.delivers b, 7, none⟩, ⟨.noConnect, 5, none⟩,
      ⟨.noConnect, 5, none⟩]).enter .readCurrent) = .next (.success (.word 0x0090),
        ((((t.judging b).keepResponse b).ended 0x00 .ok).ended 0x00 (.word 0x0090)).closeRequest.ended 0x00 .none) := by
    unfold rdSingle
    rw [hs0]
    unfold tries
    rw [ht, judge_accepts (by rw [hq]) (by simp [b]) (by rw [hq]; decide +kernel) (by decide)]
    unfold exec execParseRd1
    rw [hd]
    rfl
  obtain ⟨t4, h4⟩ := no_connection (reg := 0x003F) (value := 0x0091) (n := 5) (m := 5) (rest := [])
    (s := (((((((t.judging b).keepResponse b).ended 0x00 .ok).ended 0x00 (.word 0x0090)).closeRequest.ended 0x00
      .none).enter .computeTarget).ended 0x00 (.word 0x0091)).enter .write)
    (by
      show (t.judging b).link.script = _
      rw [judging_link, hlt])
  exact ⟨_, _, _, _, t4, hread, rfl, rfl, h4⟩
theorem witness_attempt : ran (attempt params (encodeFrame 1 0x03 (payload16 0x003F 1)) .parseRd1 deadLink) = true := by
  decide +kernel
theorem witness_packed : isPacked params 0x003F = true ∧ isPacked params 0x0043 = false := by decide
/-- R144: no read of a register that is not packed. -/
theorem test_turned_away : after (fun s => (s.link.sent, s.link.script, s.host.log, s.host.reports))
    (hostStep params (.rmw 0x0043 [.set 0]) deadLink) =
      some ([], deadLink.link.script, [.turnedAway (rmwCommand 0x0043 [.set 0])],
        [.commandFailed (rmwCommand 0x0043 [.set 0])]) := by decide +kernel
theorem witness_rmw : (∃ u, applyEdits [.set 0] 0x0090 State.reset = .next (0x0091, u)) ∧ ∃ s : State,
    s.link.script = [⟨.delivers (encodeFrame params.unit 0x03 [2, hi8 0x0090, lo8 0x0090]), 1, none⟩,
      ⟨.delivers (encodeFrame params.unit 0x06 (payload16 0x003F 0x0091)), 2000, none⟩] ∧ 2000 ≤ params.tTimeout :=
  ⟨⟨_, rfl⟩, withScript _, rfl, by decide⟩
theorem witness_rmw_one_byte : (∃ u, applyEdits [.set 0, .clear 7] 0x0090 State.reset = .next (0x0011, u)) ∧
    ([1, 0x90] : List Byte) = [1, 0x90] ∧ (0x0090 : Word) = (0x90 : Byte).setWidth 16 ∧
    (∀ e ∈ [Edit.set 0, .clear 7], ∃ i : Byte, i.toNat ≤ 7 ∧ (e = .set i ∨ e = .clear i)) ∧ ∃ s : State,
    s.link.script = [⟨.delivers (encodeFrame params.unit 0x03 [1, 0x90]), 1, none⟩,
      ⟨.delivers (encodeFrame params.unit 0x06 (payload16 0x003F 0x0011)), 2000, none⟩] ∧ 2000 ≤ params.tTimeout :=
  ⟨⟨_, rfl⟩, rfl, by decide, by
    intro e he
    simp only [List.mem_cons, List.not_mem_nil, or_false] at he
    rcases he with rfl | rfl
    · exact ⟨0, by decide, .inl rfl⟩
    · exact ⟨7, by decide, .inr rfl⟩, withScript _, rfl, by decide⟩
theorem witness_plain_write : ∃ s : State,
    s.link.script = [⟨.delivers (encodeFrame params.unit 0x06 (payload16 0x0043 0x0001)), 0, none⟩] ∧
    0 ≤ params.tTimeout := ⟨withScript _, rfl, by decide⟩
theorem witness_poll_succeeds : (∀ f ∈ params.otherFields, legalField f.2 = true) ∧
    (List.replicate 240 (0 : Byte)).length = 240 ∧ (List.replicate 14 (0 : Byte)).length = 14 ∧
    ∃ s : State, s.link.script = [
      ⟨.delivers (encodeFrame params.unit 0x03 (readPayload (List.replicate 240 0))), 2000, none⟩,
      ⟨.delivers (encodeFrame params.unit 0x03 (readPayload (List.replicate 240 0))), 0, none⟩,
      ⟨.delivers (encodeFrame params.unit 0x03 (readPayload (List.replicate 240 0))), 0, none⟩,
      ⟨.delivers (encodeFrame params.unit 0x03 (readPayload (List.replicate 14 0))), 0, none⟩] ∧
    2000 ≤ params.tTimeout := by
  exact ⟨by decide +kernel, List.length_replicate, List.length_replicate, withScript _, rfl, by decide⟩
theorem witness_retry : validate [0x01, 0x03, 0x02, 0x00, 0xB4, 0xB8, 0x32] = false ∧
    validate [0x01, 0x03, 0x02, 0x00, 0xA4, 0xB8, 0x33] = false ∧
    (withScript [⟨.delivers [0x01, 0x03, 0x02, 0x00, 0xB4, 0xB8, 0x32], 0, none⟩,
      ⟨.delivers [0x01, 0x03, 0x02, 0x00, 0xA4, 0xB8, 0x33], 2000, none⟩]).link.script =
        [⟨.delivers [0x01, 0x03, 0x02, 0x00, 0xB4, 0xB8, 0x32], 0, none⟩,
         ⟨.delivers [0x01, 0x03, 0x02, 0x00, 0xA4, 0xB8, 0x33], 2000, none⟩] ∧ 2000 ≤ params.tTimeout := by
  decide +kernel
theorem witness_read : ∃ s : State,
    s.link.script = [⟨.delivers (encodeFrame 0x01 0x03 [2, hi8 0x0090, lo8 0x0090]), 2000, none⟩] ∧
    2000 ≤ params.tTimeout := ⟨withScript _, rfl, by decide⟩
theorem witness_read_byte : ∃ s : State,
    s.link.script = [⟨.delivers (encodeFrame 0x01 0x03 [1, 0x90]), 0, none⟩] ∧ 0 ≤ params.tTimeout :=
  ⟨withScript _, rfl, by decide⟩
theorem witness_write : ∃ s : State,
    s.link.script = [⟨.delivers (encodeFrame 0x01 0x06 (payload16 0x003F 0x0091)), 0, none⟩] ∧ 0 ≤ params.tTimeout :=
  ⟨withScript _, rfl, by decide⟩
theorem witness_poll : ∃ t, poll params deadLink = .next t :=
  ran_next (by decide +kernel)
theorem witness_edits : ∀ e ∈ [Edit.set 15, Edit.clear 0], ∃ i : Byte, i.toNat ≤ 15 ∧ (e = .set i ∨ e = .clear i) := by
  intro e he
  simp only [List.mem_cons, List.not_mem_nil, or_false] at he
  rcases he with rfl | rfl
  · exact ⟨15, by decide, .inl rfl⟩
  · exact ⟨0, by decide, .inr rfl⟩
theorem witness_heating : getBit (some 0x0090) 0 = false ∧ ∃ s : State,
    s.link.script = [⟨.delivers (encodeFrame params.unit 0x03 [2, hi8 0x0090, lo8 0x0090]), 1, none⟩,
      ⟨.delivers (encodeFrame params.unit 0x06 (payload16 0x003F (setBit 0x0090 0))), 1, none⟩,
      ⟨.delivers (encodeFrame params.unit 0x06 (payload16 0x0043 0x0001)), 1, none⟩] ∧ 1 ≤ params.tTimeout :=
  ⟨by decide, withScript _, rfl, by decide⟩
theorem witness_heating_fails : ∃ s : State,
    s.link.script = [⟨.delivers (encodeFrame params.unit 0x03 [2, hi8 0x0090, lo8 0x0090]), 1, none⟩,
      ⟨.delivers (encodeFrame params.unit 0x06 (payload16 0x003F (setBit 0x0090 0))), 1, none⟩,
      ⟨.silence, 0, none⟩, ⟨.silence, 3000, none⟩] := ⟨withScript _, rfl⟩
theorem witness_host_run : deadLink.host.Gapped params.tGap ∧ deadLink.Inv ∧ deadLink.link.connected = false ∧
    ∃ t, hostRun params [.elapse 7, .tick, .reset] deadLink = .next t :=
  ⟨⟨trivial, fun q hq => nomatch hq⟩, by decide +kernel, rfl, ran_next (by decide +kernel)⟩

end Sys2Proof.Tests
end

namespace Sys2Proof.Machine

variable {s t : State} {i : Instr}

/-! ## What keeps the invariant of the block (R17 to R20, R46) -/

/-! ### Updates of what the invariant does not speak of -/

theorem State.Inv.withCrc (h : s.Inv) (c : Word) : (s.withCrc c).Inv := h

theorem State.Inv.emit (h : s.Inv) (frame : List Byte) : (s.emit frame).Inv := h

theorem State.Inv.withPending (h : s.Inv) (p : List Transfer) : (s.withPending p).Inv := h

theorem State.Inv.withHost (h : s.Inv) (x : HostState) : (s.withHost x).Inv := h

theorem State.Inv.withLink (h : s.Inv) (l : Link) : (s.withLink l).Inv := h

theorem State.Inv.ended (h : s.Inv) (code : Byte) (r : Result) : (s.ended code r).Inv := h

/-! ### Updates of the latch and of the response -/

theorem State.Inv.openRequest (h : s.Inv) {q : Req} (hq : q.fn = fnRead ∨ q.fn = fnWrite) :
    (s.openRequest q).Inv := by
  obtain ⟨-, -, -, -, hdb, hdbBelow, hdbv, hst, hctrl, hctrlBelow⟩ := h
  exact ⟨by simp, nofun, fun _ => rfl, fun _ => hq, hdb, hdbBelow, hdbv, hst, hctrl, hctrlBelow⟩

theorem State.Inv.closeRequest (h : s.Inv) : s.closeRequest.Inv := by
  obtain ⟨-, -, -, -, hdb, hdbBelow, hdbv, hst, hctrl, hctrlBelow⟩ := h
  exact ⟨by simp, nofun, fun _ => rfl, nofun, hdb, hdbBelow, hdbv, hst, hctrl, hctrlBelow⟩

theorem State.Inv.dropResponse (h : s.Inv) : s.dropResponse.Inv := by
  obtain ⟨-, -, -, hreq, hdb, hdbBelow, hdbv, hst, hctrl, hctrlBelow⟩ := h
  exact ⟨by simp, nofun, fun _ => rfl, hreq, hdb, hdbBelow, hdbv, hst, hctrl, hctrlBelow⟩

theorem State.Inv.judging (h : s.Inv) (b : List Byte) : (s.judging b).Inv := by
  unfold State.judging
  split
  · exact h.dropResponse
  · exact h.dropResponse.withCrc _

/-- R98: what passes ACCEPT's tests is what RXOK = 1 says of RXB (R18). -/
theorem State.Inv.keepResponse (h : s.Inv) {b : List Byte} (hv : s.req.valid = true) (hl : b.length ≤ 256)
    (ha : acceptError s.req b = none) : (s.keepResponse b).Inv := by
  obtain ⟨-, -, -, hreq, hdb, hdbBelow, hdbv, hst, hctrl, hctrlBelow⟩ := h
  obtain ⟨hcrc, hunit, hfn⟩ := acceptError_eq_none.1 ha
  have hok : (s.keepResponse b).responseOk := by
    unfold State.responseOk
    rw [rxBytes_keepResponse s hl]
    exact ⟨hv, hcrc, hunit, hfn⟩
  have hlen : (s.keepResponse b).rxlen.toNat ≤ 256 := by
    rw [State.keepResponse_rxlen, toNat_rxlen_of_le hl]; exact hl
  exact ⟨hlen, fun _ => hok, nofun, hreq, hdb, hdbBelow, hdbv, hst, hctrl, hctrlBelow⟩

/-- R101: WARN is the complement of ECHO. -/
theorem State.Inv.withEcho (h : s.Inv) (x : Bool) : (s.withEcho x).Inv := by
  obtain ⟨hlen, hok, hzero, hreq, hdb, hdbBelow, hdbv, -, hctrl, hctrlBelow⟩ := h
  exact ⟨hlen, hok, hzero, hreq, hdb, hdbBelow, hdbv, by simp, hctrl, hctrlBelow⟩

/-! ### Updates of the decode buffer -/

theorem State.Inv.clearDecode (h : s.Inv) : s.clearDecode.Inv := by
  obtain ⟨hlen, hok, hzero, hreq, -, -, -, hst, hctrl, hctrlBelow⟩ := h
  exact ⟨hlen, hok, hzero, hreq, .nil, nofun, by simp, hst, hctrl, hctrlBelow⟩

/-- Writing bytes leaves no byte without a value that had one. -/
theorem Memory.isSome_read_writeBytes {m : Memory} {a : Nat} (h : (m.read a).isSome = true) (start : Nat)
    (d : List Byte) : ((m.writeBytes start d).read a).isSome = true := by
  rw [Memory.read_writeBytes]
  split
  · rfl
  · exact h

/-- R45: every segment lies within the decode buffer. -/
theorem segment_within (k : Fin 4) : 2 * (segments[k]).1.toNat + 2 * (segments[k]).2.toNat ≤ 2 * dbRegs := by
  revert k; decide

theorem segmentOf_eq_some {k : Byte} {seg : Word × Word} (h : segmentOf k = some seg) :
    ∃ j : Fin 4, j.val = k.toNat ∧ segments[j] = seg := by
  obtain ⟨hk, hseg⟩ := List.getElem?_eq_some_iff.1 h
  exact ⟨⟨k.toNat, hk⟩, rfl, hseg⟩

/-- Setting one valid bit sets no other. -/
theorem getLsbD_of_or_bit {v : BitVec 4} {j k : Fin 4} (hk : (v ||| (1#4 <<< j.val)).getLsbD k = true)
    (hkj : k ≠ j) : v.getLsbD k = true := by
  have hother : (1#4 <<< j.val).getLsbD k = false := by
    rw [BitVec.getLsbD_shiftLeft, BitVec.getLsbD_one]
    have : k.val ≠ j.val := Fin.val_ne_of_ne hkj
    simp
    omega
  rwa [BitVec.getLsbD_or, hother, Bool.or_false] at hk

/-- R117: with a segment's whole data written, its valid bit says the truth (R19). -/
theorem State.Inv.loadSegment (h : s.Inv) (j : Fin 4) {d : List Byte}
    (hl : d.length = 2 * (segments[j]).2.toNat) : (s.loadSegment j (segments[j]).1 d).Inv := by
  obtain ⟨hlen, hok, hzero, hreq, hdb, hdbBelow, hdbv, hst, hctrl, hctrlBelow⟩ := h
  have hloaded : ∀ k : Fin 4, (s.dbv ||| (1#4 <<< j.val)).getLsbD k = true →
      (s.db.writeBytes (2 * (segments[j]).1.toNat) d).loaded segments[k] := by
    intro k hk x hx
    by_cases hkj : k = j
    · subst hkj
      rw [Memory.read_writeBytes, dif_pos ⟨Nat.le_add_right _ _, by omega⟩]
      rfl
    · exact Memory.isSome_read_writeBytes (hdbv k (getLsbD_of_or_bit hk hkj) x hx) _ _
  have hbelow : (s.db.writeBytes (2 * (segments[j]).1.toNat) d).below (2 * dbRegs) :=
    Memory.below_writeBytes hdbBelow (hl ▸ segment_within j)
  exact ⟨hlen, hok, hzero, hreq, Memory.wf_writeBytes hdb _ _, hbelow, hloaded, hst, hctrl, hctrlBelow⟩

/-! ### Frames and the reset -/

theorem State.Inv.transmitted (h : s.Inv) (f : List Byte) {m : Memory} (hw : m.wf) (hb : m.below 0x20000)
    (x : Option (List Byte)) : (s.transmitted f m x).Inv := by
  obtain ⟨hlen, hok, hzero, hreq, hdb, hdbBelow, hdbv, hst, -, -⟩ := h
  exact ⟨hlen, hok, hzero, hreq, hdb, hdbBelow, hdbv, hst, hw, hb⟩

/-- The registers of a controller after changes of its own are in canonical form and in range. -/
theorem State.Inv.drift (h : s.Inv) (l : List (Word × Word)) :
    (Machine.drift s.ctrl l).wf ∧ (Machine.drift s.ctrl l).below 0x20000 := by
  obtain ⟨-, -, -, -, -, -, -, -, hctrl, hctrlBelow⟩ := h
  exact ⟨wf_drift hctrl l, below_drift hctrlBelow l⟩

/-- R27: the reset event gives the block the invariant whatever stood in it. -/
theorem State.resetEvent_inv (hw : s.ctrl.wf) (hb : s.ctrl.below 0x20000) : s.resetEvent.Inv :=
  ⟨by simp [State.resetEvent, State.reset], nofun, fun _ => rfl, nofun, .nil, nofun,
    by simp [State.resetEvent, State.reset], rfl, hw, hb⟩

theorem State.Inv.resetEvent (h : s.Inv) : s.resetEvent.Inv := by
  obtain ⟨-, -, -, -, -, -, -, -, hctrl, hctrlBelow⟩ := h
  exact State.resetEvent_inv hctrl hctrlBelow

/-! ### Instructions, transfers and steps -/

theorem State.Inv.effect (h : s.Inv) (e : Effect i s t) : t.Inv := by
  cases e with
  | value => exact h.ended _ _
  | decodeError => exact h.ended _ _
  | crc => exact (h.withCrc _).ended _ _
  | encode => exact ((h.withCrc _).emit _).ended _ _
  | request q hq hfn => exact (((h.openRequest hfn).withCrc _).emit _).ended _ _
  | rejected b => exact (h.judging b).ended _ _
  | accepted b hi hv hl he =>
    have hk := (h.judging b).keepResponse (b := b) (by simpa using hv) hl (by simpa using he)
    exact hk.ended _ _
  | echo => exact (h.withEcho _).ended _ _
  | close => exact h.closeRequest.ended _ _
  | clear => exact h.clearDecode.ended _ _
  | load k start count d hi hs ha hb hd hl =>
    obtain ⟨j, hj, hseg⟩ := segmentOf_eq_some hs
    have hload := h.loadSegment j (d := d) (by rw [hseg]; exact hl)
    rw [hseg, hj] at hload
    exact hload.ended _ _
  | sent f m x hi hm =>
    obtain ⟨hw, hb⟩ := h.drift (Config.controllerDrift s.freeIndex)
    rcases hm with rfl | ⟨a, v, rfl⟩
    · exact h.transmitted f hw hb x
    · have ha := a.isLt
      exact h.transmitted f (Memory.wf_writeWord hw _ _) (Memory.below_writeWord hb (by omega) _) x

theorem exec_keeps_inv (hx : exec i s = .next t) (h : s.Inv) : t.Inv := h.effect (exec_effect hx)

theorem perform_keeps_inv {x : Transfer} (hx : perform x s = .next t) (h : s.Inv) : t.Inv := by
  rcases perform_next hx with ⟨i, -, hi⟩ | ⟨f, -, -, rfl⟩
  · exact exec_keeps_inv hi h
  · obtain ⟨hw, hb⟩ := h.drift (Config.controllerDrift s.freeIndex)
    exact h.transmitted f hw hb _

/-- With nothing presented a step keeps the state (R195). -/
theorem step_of_pending_nil (h : s.pending = []) : step s = .next s := by
  unfold step fetch; rw [h]

/-- A step takes the oldest transfer off the interface and performs it (R25). -/
theorem step_of_pending_cons {x : Transfer} {rest : List Transfer} (h : s.pending = x :: rest) :
    step s = perform x (s.withPending rest) := by
  unfold step fetch; rw [h]

/-- Settles O49: each named update keeps the invariant, and every next state is made of them (`Effect`). -/
theorem stepKeepsTheInvariant : Obligations.StepKeepsTheInvariant := by
  intro s t h hstep
  cases hp : s.pending with
  | nil =>
    rw [step_of_pending_nil hp] at hstep
    cases hstep
    exact h
  | cons x rest =>
    rw [step_of_pending_cons hp] at hstep
    exact perform_keeps_inv hstep (h.withPending rest)

/-- Settles O48: the reset state is the reset event of a state whose controller has written nothing yet. -/
theorem resetHasTheInvariant : Obligations.ResetHasTheInvariant :=
  State.resetEvent_inv (s := State.reset) .nil nofun

end Sys2Proof.Machine

namespace Sys2Proof.Machine

open Sys2Proof.Config (HostParams)

variable {s t : State} {p : HostParams} {parse : Instr} {e : LinkEvent} {v : Verdict}

/-! ## The host keeps the invariant: an attempt, part by part (R160, R206) -/

theorem State.Inv.endAttempt (h : s.Inv) (p : HostParams) (k : Nat) : (s.endAttempt p k).Inv := h

theorem State.Inv.nextEvent (h : s.Inv) : s.nextEvent.2.Inv := by
  unfold State.nextEvent
  split
  · exact h
  · exact h.withLink _

theorem linkFails_keeps_inv {c : ErrorCause} {k : Nat} (hx : linkFails p c k s = .next (v, t)) (h : s.Inv) :
    t.Inv := by
  cases hx
  exact h.endAttempt p k

theorem abandon_keeps_inv {r : Result} (hx : abandon r s = .next (v, t)) (h : s.Inv) : t.Inv := by
  cases hx
  exact h.resetEvent

theorem judge_keeps_inv {b : List Byte} {r : Option ResetPoint} (hx : judge b parse r s = .next (v, t))
    (h : s.Inv) : t.Inv := by
  obtain ⟨s1, h1, hx⟩ := andThen_eq_next.1 hx
  have inv1 := exec_keeps_inv h1 h
  split at hx
  · cases hx
    exact inv1
  · split at hx
    · exact abandon_keeps_inv hx inv1
    · obtain ⟨s2, h2, hx⟩ := andThen_eq_next.1 hx
      obtain ⟨rfl, -⟩ := verdictOf_next hx
      exact exec_keeps_inv h2 inv1

theorem inTime_keeps_inv {f : State → HostOut Verdict} (hx : inTime p e f s = .next (v, t)) (h : s.Inv)
    (hf : f s = .next (v, t) → t.Inv) : t.Inv := by
  unfold inTime at hx
  split at hx
  · exact linkFails_keeps_inv hx h
  · exact hf hx

theorem receive_keeps_inv {d : Option (List Byte)} (hx : receive p e d parse s = .next (v, t)) (h : s.Inv) :
    t.Inv := by
  unfold receive at hx
  split at hx
  · exact linkFails_keeps_inv hx h
  · exact inTime_keeps_inv hx h fun hj => judge_keeps_inv hj (h.endAttempt p _)

theorem respond_keeps_inv (hx : respond p e parse s = .next (v, t)) (h : s.Inv) : t.Inv := by
  unfold respond at hx
  split at hx
  · exact linkFails_keeps_inv hx h
  · exact inTime_keeps_inv hx h fun hl => linkFails_keeps_inv hl h
  · exact receive_keeps_inv hx h
  · exact receive_keeps_inv hx h
  · exact receive_keeps_inv hx h

theorem exchange_keeps_inv {frame : List Byte} (hx : exchange p e frame parse s = .next (v, t)) (h : s.Inv) :
    t.Inv := by
  unfold exchange at hx
  split at hx
  · exact abandon_keeps_inv hx (h.endAttempt p _)
  · split at hx
    · exact respond_keeps_inv hx h
    · obtain ⟨s1, h1, hx⟩ := andThen_eq_next.1 hx
      have inv1 : s1.Inv := perform_keeps_inv h1 (h.withLink _)
      split at hx
      · exact abandon_keeps_inv hx (inv1.endAttempt p _)
      · exact respond_keeps_inv hx inv1

theorem attempt_keeps_inv {frame : List Byte} (hx : attempt p frame parse s = .next (v, t)) (h : s.Inv) :
    t.Inv := by
  have inv1 : (s.waitGap p).nextEvent.2.Inv := State.Inv.nextEvent (h.withHost _)
  unfold attempt at hx
  simp only at hx
  split at hx
  · exact abandon_keeps_inv hx inv1
  · obtain ⟨⟨v1, s1⟩, h1, hx⟩ := andThen_eq_next.1 hx
    have inv2 := exchange_keeps_inv h1 inv1
    simp only at hx
    split at hx
    · exact abandon_keeps_inv hx inv2
    · cases hx
      exact inv2

/-- R215: an attempt that finds no connection open leaves none open. -/
theorem attempt_disconnected {u fn : Byte} {a n : Word} (hfn : fn = fnRead ∨ fn = fnWrite) (hp : isParse parse)
    (hx : attempt p (encodeFrame u fn (payload16 a n)) parse s = .next (v, t)) (h : s.link.connected = false) :
    t.link.connected = false := by
  rcases (attempt_done hfn hp hx).done with hdone | ⟨-, hnot⟩
  · exact hdone.closed
  · exact hnot.connected.trans h

/-- What the host keeps between its events: the invariant of the block, and no connection open (R215). -/
def State.Quiet (s : State) : Prop := s.Inv ∧ s.link.connected = false

theorem quiet_hostClosed (p : HostParams) : HostClosed p State.Quiet where
  operation := fun _ hx ⟨h, hc⟩ => ⟨exec_keeps_inv hx h, (exec_host hx).2.2.trans hc⟩
  attempt := fun hfn hp hx ⟨h, hc⟩ => ⟨attempt_keeps_inv hx h, attempt_disconnected hfn hp hx hc⟩
  attempts := fun _ _ h => h
  logged := fun _ _ h => h
  reported := fun _ _ h => h
  enter := fun _ _ h => h
  schedule := fun _ _ h => h
  later := fun _ h => h
  reset := fun ⟨h, hc⟩ => ⟨h.resetEvent, hc⟩

/-- Settles O60: the induction over the host's run (`HostClosed.events`), for `State.Quiet`. -/
theorem hostKeepsTheInvariant : Obligations.HostKeepsTheInvariant :=
  fun p _ _ _ h hc hrun => (quiet_hostClosed p).events hrun ⟨h, hc⟩

end Sys2Proof.Machine

namespace Sys2Proof

/-! ## Steps: presented transfers and received frames (R25) -/

/-- R64: a read response that is recognised is the frame of its instruction. -/
theorem asReadResponse_eq_some {b : List Byte} {i : Instr} (h : asReadResponse b = some i) :
    ∃ u d c, i = .rdrsp u d c ∧ b = frameBytes u Machine.fnRead (readPayload d) c := by
  unfold asReadResponse at h
  split at h
  · next u fn count rest =>
    split at h
    · next hfn =>
      split at h
      · next c0 c1 hdrop =>
        cases h
        have hlen : (rest.take count.toNat).length = count.toNat := by
          have := congrArg List.length hdrop
          simp at this ⊢
          omega
        refine ⟨_, _, _, rfl, ?_⟩
        rw [hfn, frameBytes, readPayload, hlen, lo8_be16, hi8_be16, BitVec.ofNat_toNat, BitVec.setWidth_eq,
          List.cons_append, ← hdrop, List.take_append_drop]
      · cases h
    · cases h
  · cases h

/-- R66: a write response that is recognised is the frame of its instruction. -/
theorem asWriteResponse_eq_some {b : List Byte} {i : Instr} (h : asWriteResponse b = some i) :
    ∃ u a v c, i = .wrrsp u a v c ∧ b = frameBytes u Machine.fnWrite (payload16 a v) c := by
  unfold asWriteResponse at h
  split at h
  · split at h
    · next hfn =>
      cases h
      refine ⟨_, _, _, _, rfl, ?_⟩
      simp [frameBytes, payload16, hfn]
    · cases h
  · cases h

namespace Machine

variable {s : State} {x : Transfer} {rest : List Transfer}

/-- An instruction that hands bytes to ACCEPT does what ACCEPT does with them. -/
theorem exec_of_acceptedBytes {i : Instr} {b : List Byte} (h : acceptedBytes i = some b) (s : State) :
    exec i s = exec (.accept b) s := by
  unfold acceptedBytes at h
  split at h <;> cases h <;> rfl

/-- R25 (4): received bytes are what their instruction hands to ACCEPT, whatever their form. -/
theorem acceptedBytes_decodeReceive (b : List Byte) : acceptedBytes (decodeReceive b) = some b := by
  unfold decodeReceive
  split
  · next hi =>
    obtain ⟨u, d, c, rfl, rfl⟩ := asReadResponse_eq_some hi
    rfl
  · split
    · next hi =>
      obtain ⟨u, a, v, c, rfl, rfl⟩ := asWriteResponse_eq_some hi
      rfl
    · rfl

/-- Settles O1: the two cases of `fetch`. -/
theorem stepRunsTheDecodedInstruction : Obligations.StepRunsTheDecodedInstruction :=
  ⟨fun _ _ _ _ hp hd => (step_of_pending_cons hp).trans (perform_of_decode hd _), fun _ => step_of_pending_nil⟩

/-- Settles O6: both response formats hand their whole frame to ACCEPT, and any other bytes are ACCEPT's already. -/
theorem receivedBytesAreAccepted : Obligations.ReceivedBytesAreAccepted := by
  intro s b rest hp
  calc step s = exec (decodeReceive b) (s.withPending rest) :=
        (step_of_pending_cons hp).trans (perform_of_decode rfl _)
    _ = exec (.accept b) (s.withPending rest) := exec_of_acceptedBytes (acceptedBytes_decodeReceive b) _

/-! ## What the reset event refuses to read (R27, R205) -/

theorem accept_refused (h : s.req.valid = false) (b : List Byte) :
    exec (.accept b) s = .refused .noRequestOutstanding :=
  acceptBytes_eq_refused.2 (.inl ⟨h, rfl⟩)

theorem readData_refused (h : s.rxok = false) : readData s = .refused .noAcceptedRead :=
  readData_eq_refused.2 ⟨by simp [State.hasResponse, h], rfl⟩

theorem parseRd_refused (h : s.rxok = false) : exec .parseRd s = .refused .noAcceptedRead := by
  change execParseRd s = _
  unfold execParseRd
  rw [readData_refused h]

theorem parseRd1_refused (h : s.rxok = false) : exec .parseRd1 s = .refused .noAcceptedRead := by
  change execParseRd1 s = _
  unfold execParseRd1
  rw [readData_refused h]

theorem parseWr_refused (h : s.rxok = false) : exec .parseWr s = .refused .noAcceptedWrite :=
  if_pos (by simp [State.hasResponse, h])

theorem loadseg_refused (h : s.rxok = false) {k : Byte} (hk : k.toNat ≤ 3) :
    exec (.loadseg k) s = .refused .noAcceptedRead := by
  have hseg : segmentOf k = some (segments[k.toNat]'(Nat.lt_succ_of_le hk)) := List.getElem?_eq_getElem _
  change execLoadseg k s = _
  unfold execLoadseg
  rw [hseg]
  exact if_pos (by simp [State.hasResponse, h])

theorem xword_refused (h : s.dbv ≠ 0xF#4) (a : Word) : exec (.xword a) s = .refused .decodeBufferIncomplete :=
  andThen_eq_refused.2 (.inl (decodeWord_eq_refused.2 (.inl ⟨h, rfl⟩)))

theorem field_refused (h : s.dbv ≠ 0xF#4) (a : Word) (f : Rat) :
    exec (.field a f) s = .refused .decodeBufferIncomplete :=
  andThen_eq_refused.2 (.inl (decodeWord_eq_refused.2 (.inl ⟨h, rfl⟩)))

/-- Settles O50: the reset values, and with them the refusal of every operation that reads what reset leaves
unwritten. -/
theorem resetEventLeavesNothingReadable : Obligations.ResetEventLeavesNothingReadable := by
  intro s
  have hdbv : s.resetEvent.dbv ≠ 0xF#4 := show 0#4 ≠ 0xF#4 by decide
  exact ⟨rfl, rfl, rfl, rfl, rfl, rfl, rfl, rfl, rfl, accept_refused rfl, parseRd_refused rfl, parseRd1_refused rfl,
    parseWr_refused rfl, fun _ => loadseg_refused rfl, xword_refused hdbv, field_refused hdbv⟩

end Machine

end Sys2Proof

namespace Sys2Proof.Machine

variable {s t : State} {i : Instr}

/-! ## Who writes each element (R16 to R20)

Each lemma goes through the effects (`exec_effect`): an effect that writes the element names its instruction. -/

/-- Only ACCEPT and the two response frames hand bytes to ACCEPT. -/
theorem acceptedBytes_eq_none (ha : ∀ b, i ≠ .accept b) (hr : ∀ u d c, i ≠ .rdrsp u d c)
    (hw : ∀ u a v c, i ≠ .wrrsp u a v c) : acceptedBytes i = none := by
  unfold acceptedBytes
  split
  · exact absurd rfl (ha _)
  · exact absurd rfl (hr _ _ _)
  · exact absurd rfl (hw _ _ _ _)
  · rfl

/-- R16: CRC. -/
theorem exec_crc (h : exec i s = .next t) (hc : ∀ d, i ≠ .crc16 d) (hv : ∀ b, i ≠ .validate b)
    (he : ∀ u f p, i ≠ .encode u f p) (hr : ∀ u a n, i ≠ .encRd u a n) (hw : ∀ u a v, i ≠ .encWr u a v)
    (ha : acceptedBytes i = none) : t.crc = s.crc := by
  cases exec_effect h with
  | crc d r _ hi =>
    rcases hi with rfl | ⟨b, rfl⟩
    · exact absurd rfl (hc d)
    · exact absurd rfl (hv b)
  | encode u f p hi => exact absurd hi (he u f p)
  | request q _ _ hi =>
    rcases hi with ⟨u, a, n, rfl⟩ | ⟨u, a, v, rfl⟩
    · exact absurd rfl (hr u a n)
    · exact absurd rfl (hw u a v)
  | rejected b e hi => simp [ha] at hi
  | accepted b hi => simp [ha] at hi
  | _ => rfl

/-- R18: RXB, RXLEN and RXOK. -/
theorem exec_response (h : exec i s = .next t) (hr : ∀ u a n, i ≠ .encRd u a n) (hw : ∀ u a v, i ≠ .encWr u a v)
    (hc : i ≠ .clrreq) (ha : acceptedBytes i = none) : t.rxb = s.rxb ∧ t.rxlen = s.rxlen ∧ t.rxok = s.rxok := by
  cases exec_effect h with
  | request q _ _ hi =>
    rcases hi with ⟨u, a, n, rfl⟩ | ⟨u, a, v, rfl⟩
    · exact absurd rfl (hr u a n)
    · exact absurd rfl (hw u a v)
  | rejected b e hi => simp [ha] at hi
  | accepted b hi => simp [ha] at hi
  | close hi => exact absurd hi hc
  | _ => exact ⟨rfl, rfl, rfl⟩

/-- R18, R98: bytes of RXB are written only where a response is accepted. -/
theorem exec_rxb (h : exec i s = .next t) (ht : t.rxok = false) : t.rxb = s.rxb := by
  cases exec_effect h with
  | rejected b => exact judging_rxb s b
  | accepted => cases ht
  | _ => rfl

/-- R19: DB and DBV. -/
theorem exec_decodeBuffer (h : exec i s = .next t) (hc : i ≠ .dbclr) (hl : ∀ k, i ≠ .loadseg k) :
    t.db = s.db ∧ t.dbv = s.dbv := by
  cases exec_effect h with
  | rejected => simp
  | accepted => simp
  | clear hi => exact absurd hi hc
  | load k _ _ _ hi => exact absurd hi (hl k)
  | _ => exact ⟨rfl, rfl⟩

/-- R20: ECHO and WARN. -/
theorem exec_echo (h : exec i s = .next t) (hp : i ≠ .parseWr) :
    t.status.echo = s.status.echo ∧ t.status.warn = s.status.warn := by
  cases exec_effect h with
  | rejected => simp
  | accepted => simp
  | echo hi => exact absurd hi hp
  | _ => exact ⟨rfl, rfl⟩

/-- R13 (4): the controller, which only a request frame reaches. -/
theorem exec_controller (h : exec i s = .next t) (hi : notFrame i) : t.ctrl = s.ctrl ∧ t.freeIndex = s.freeIndex := by
  cases exec_effect h with
  | rejected => simp
  | accepted => simp
  | sent f m x hf =>
    rcases hf with ⟨u, a, n, c, rfl, -⟩ | ⟨u, a, n, c, rfl, -⟩
    · exact absurd rfl (hi u a n c).1
    · exact absurd rfl (hi u a n c).2
  | _ => exact ⟨rfl, rfl⟩

/-- R25: what is still presented. -/
theorem exec_pending (h : exec i s = .next t) : t.pending = s.pending := by
  cases exec_effect h with
  | rejected => simp
  | accepted => simp
  | _ => rfl

/-- Settles O46: one lemma for each element. -/
theorem everyElementHasItsWriters : Obligations.EveryElementHasItsWriters := by
  intro i s t h
  refine ⟨fun hc hv he hr hw ha hrr hwr => exec_crc h hc hv he hr hw (acceptedBytes_eq_none ha hrr hwr),
    fun hr hw hc => exec_req h ⟨fun u a n => ⟨hr u a n, hw u a n⟩, hc⟩,
    fun hr hw hc ha hrr hwr => exec_response h hr hw hc (acceptedBytes_eq_none ha hrr hwr),
    exec_rxb h, fun hc hl => ?_, exec_echo h, fun hr hw => ?_, (exec_host h).1, exec_pending h⟩
  · obtain ⟨hdb, hdbv⟩ := exec_decodeBuffer h hc hl
    exact ⟨fun a => by rw [hdb], hdbv⟩
  · have hi : notFrame i := fun u a n c => ⟨hr u a n c, hw u a n c⟩
    obtain ⟨hctrl, hfree⟩ := exec_controller h hi
    exact ⟨fun a => by rw [hctrl], exec_link h hi, hfree⟩

end Sys2Proof.Machine

namespace Sys2Proof.Machine

/-! ## CRC and STATUS are not inputs (R16, R20, R92) -/

/-- The state with other contents in CRC and STATUS. -/
def State.withFlags (s : State) (c : Word) (st : Status) : State := { s with crc := c, status := st }

/-- The second state differs from the first in CRC and STATUS at most. -/
def State.agrees (s s' : State) : Prop := ∃ c st, s' = s.withFlags c st

/-- Two outcomes are the same end, and next states differ in CRC and STATUS at most. -/
inductive OutAgrees : Out → Out → Prop where
  | next {t t' : State} (h : t.agrees t') : OutAgrees (.next t) (.next t')
  | fault (r : Fault) : OutAgrees (.fault r) (.fault r)
  | refused (r : Refusal) : OutAgrees (.refused r) (.refused r)

theorem OutAgrees.of_next {o o' : Out} {t : State} (h : OutAgrees o o') (ho : o = .next t) :
    ∃ t', o' = .next t' ∧ t.agrees t' := by
  subst ho
  cases h with
  | next ht => exact ⟨_, rfl, ht⟩

theorem OutAgrees.of_fault {o o' : Out} {r : Fault} (h : OutAgrees o o') (ho : o = .fault r) : o' = .fault r := by
  subst ho
  cases h
  rfl

theorem OutAgrees.of_refused {o o' : Out} {r : Refusal} (h : OutAgrees o o') (ho : o = .refused r) :
    o' = .refused r := by
  subst ho
  cases h
  rfl

variable {s s' : State} {c : Word} {st : Status}

theorem finish_agrees (h : s.agrees s') (r : Result) : OutAgrees (finish r s) (finish r s') := by
  obtain ⟨c, st, rfl⟩ := h
  exact .next ⟨_, _, rfl⟩

theorem raiseError_agrees (h : s.agrees s') (e : ErrorCause) : OutAgrees (raiseError e s) (raiseError e s') := by
  obtain ⟨c, st, rfl⟩ := h
  exact .next ⟨_, _, rfl⟩

theorem State.agrees.withCrc (h : s.agrees s') (c : Word) : (s.withCrc c).agrees (s'.withCrc c) := by
  obtain ⟨_, st, rfl⟩ := h
  exact ⟨_, st, rfl⟩

theorem State.agrees.keepResponse (h : s.agrees s') (b : List Byte) :
    (s.keepResponse b).agrees (s'.keepResponse b) := by
  obtain ⟨c, st, rfl⟩ := h
  exact ⟨c, st, rfl⟩

theorem State.agrees.judging (h : s.agrees s') (b : List Byte) : (s.judging b).agrees (s'.judging b) := by
  obtain ⟨c, st, rfl⟩ := h
  unfold State.judging
  split
  · exact ⟨c, st, rfl⟩
  · exact ⟨_, st, rfl⟩

/-- What goes on with the value of one and the same outcome. -/
theorem andThen_agrees {α : Type} (o : Host.Outcome α Fault Refusal) {f f' : α → Out}
    (h : ∀ a, OutAgrees (f a) (f' a)) : OutAgrees (andThen o f) (andThen o f') := by
  cases o with
  | next a => exact h a
  | fault r => exact .fault r
  | refused r => exact .refused r

theorem withBit_agrees (h : s.agrees s') (i : Byte) (r : Result) : OutAgrees (withBit i r s) (withBit i r s') := by
  unfold withBit
  split
  · exact .refused _
  · exact finish_agrees h r

theorem execValidate_agrees (h : s.agrees s') (b : List Byte) :
    OutAgrees (execValidate b s) (execValidate b s') := by
  refine finish_agrees ?_ _
  split
  · exact h
  · exact h.withCrc _

theorem acceptBytes_agrees (h : s.agrees s') (b : List Byte) : OutAgrees (acceptBytes b s) (acceptBytes b s') := by
  have hreq : s'.req = s.req := by obtain ⟨c, st, rfl⟩ := h; rfl
  unfold acceptBytes
  rw [hreq]
  split
  · exact .refused _
  · split
    · exact .refused _
    · split
      · exact raiseError_agrees (h.judging b) _
      · exact finish_agrees ((h.judging b).keepResponse b) _

theorem readData_withFlags : readData (s.withFlags c st) = readData s := rfl

theorem execParseRd_agrees : OutAgrees (execParseRd s) (execParseRd (s.withFlags c st)) := by
  unfold execParseRd
  rw [readData_withFlags]
  split
  · exact .refused _
  · exact raiseError_agrees ⟨c, st, rfl⟩ _
  · exact finish_agrees ⟨c, st, rfl⟩ _

theorem execParseRd1_agrees : OutAgrees (execParseRd1 s) (execParseRd1 (s.withFlags c st)) := by
  unfold execParseRd1
  rw [readData_withFlags]
  split
  · exact .refused _
  · exact raiseError_agrees ⟨c, st, rfl⟩ _
  · split
    · exact finish_agrees ⟨c, st, rfl⟩ _
    · exact raiseError_agrees ⟨c, st, rfl⟩ _

theorem execParseWr_agrees : OutAgrees (execParseWr s) (execParseWr (s.withFlags c st)) := by
  have hresp : (s.withFlags c st).hasResponse fnWrite = s.hasResponse fnWrite := rfl
  unfold execParseWr
  rw [hresp]
  split
  · exact .refused _
  · exact .next ⟨c, _, rfl⟩

theorem execLoadseg_agrees (k : Byte) : OutAgrees (execLoadseg k s) (execLoadseg k (s.withFlags c st)) := by
  have hresp : (s.withFlags c st).hasResponse fnRead = s.hasResponse fnRead := rfl
  have hreq : (s.withFlags c st).req = s.req := rfl
  unfold execLoadseg
  rw [readData_withFlags, hresp, hreq]
  split
  · exact .refused _
  · split
    · exact .refused _
    · split
      · exact .refused _
      · split
        · exact .refused _
        · exact raiseError_agrees ⟨c, st, rfl⟩ _
        · split
          · exact raiseError_agrees ⟨c, st, rfl⟩ _
          · exact .next ⟨c, _, rfl⟩

theorem sendRequest_agrees (frame : List Byte) (after : Memory → Memory) (answer : Memory → Option (List Byte)) :
    OutAgrees (sendRequest frame after answer s) (sendRequest frame after answer (s.withFlags c st)) := by
  have hfree : (s.withFlags c st).freeIndex = s.freeIndex := rfl
  unfold sendRequest
  rw [hfree]
  dsimp only
  split
  · exact .next ⟨c, st, rfl⟩
  · exact .next ⟨c, st, rfl⟩

/-- With other contents in CRC and STATUS every instruction ends the same way. -/
theorem exec_agrees (i : Instr) (s : State) (c : Word) (st : Status) :
    OutAgrees (exec i s) (exec i (s.withFlags c st)) := by
  have same : s.agrees (s.withFlags c st) := ⟨c, st, rfl⟩
  cases i with
  | crc16 d => exact finish_agrees (same.withCrc _) _
  | validate b => exact execValidate_agrees same b
  | encode | encRd | encWr => exact .next ⟨_, _, rfl⟩
  | accept | rdrsp | wrrsp => exact acceptBytes_agrees same _
  | parseRd => exact execParseRd_agrees
  | parseRd1 => exact execParseRd1_agrees
  | parseWr => exact execParseWr_agrees
  | clrreq | dbclr => exact .next ⟨_, _, rfl⟩
  | loadseg k => exact execLoadseg_agrees k
  | xword a => exact andThen_agrees (decodeWord s a) fun _ => finish_agrees same _
  | scale raw f => exact andThen_agrees (scaleOrRefuse raw f) fun _ => finish_agrees same _
  | field a f =>
    exact andThen_agrees (decodeWord s a) fun raw =>
      andThen_agrees (scaleOrRefuse raw f) fun _ => finish_agrees same _
  | setbit | clrbit => exact withBit_agrees same _ _
  | wrap | getbit | wrap65k | ambfix | lpfix | fmode | pumpon | antifrz | errint => exact finish_agrees same _
  | rdreq =>
    unfold exec execRdreq
    exact sendRequest_agrees _ _ _
  | wrreq =>
    unfold exec execWrreq
    exact sendRequest_agrees _ _ _

/-- Settles O47: the three ends of an instruction, by `exec_agrees`. -/
theorem crcAndStatusAreNotInputs : Obligations.CrcAndStatusAreNotInputs := by
  intro i s c st
  have hagree := exec_agrees i s c st
  refine ⟨fun _ => hagree.of_refused, fun _ => hagree.of_fault, fun t h => ?_⟩
  obtain ⟨_, ht, _, _, rfl⟩ := hagree.of_next h
  exact ⟨_, ht, rfl⟩

end Sys2Proof.Machine

namespace Sys2Proof

open Sys2Proof.Laws

variable {i : Instr} {select : Byte} {operands : List Operand} {frame : List Byte}

/-! ## The decoder and the encoder agree (R61, R62) -/

/-- Settles O3: the round trip of each row of the table. -/
theorem decodingInvertsEncoding : Obligations.DecodingInvertsEncoding := by
  intro i
  cases i with
  | crc16 d => exact RoundTrip.crc16 d
  | validate b => exact RoundTrip.validate b
  | encode unit fn payload => exact RoundTrip.encode unit fn payload
  | encRd unit start count => exact RoundTrip.encRd unit start count
  | encWr unit reg value => exact RoundTrip.encWr unit reg value
  | accept b => exact RoundTrip.accept b
  | parseRd => exact RoundTrip.parseRd
  | parseRd1 => exact RoundTrip.parseRd1
  | parseWr => exact RoundTrip.parseWr
  | clrreq => exact RoundTrip.clrreq
  | dbclr => exact RoundTrip.dbclr
  | loadseg k => exact RoundTrip.loadseg k
  | xword a => exact RoundTrip.xword a
  | scale raw f => exact RoundTrip.scale raw f
  | wrap v => exact RoundTrip.wrap v
  | getbit w n => exact RoundTrip.getbit w n
  | field a f => exact RoundTrip.field a f
  | wrap65k v => exact RoundTrip.wrap65k v
  | ambfix v => exact RoundTrip.ambfix v
  | lpfix v => exact RoundTrip.lpfix v
  | setbit w n => exact RoundTrip.setbit w n
  | clrbit w n => exact RoundTrip.clrbit w n
  | fmode w40 w41 => exact RoundTrip.fmode w40 w41
  | pumpon speed => exact RoundTrip.pumpon speed
  | antifrz crank sec lvl1 => exact RoundTrip.antifrz crank sec lvl1
  | errint f1 f2 f3 f4 f5 f6 f7 => exact RoundTrip.errint f1 f2 f3 f4 f5 f6 f7
  | rdreq unit start count crc => exact RoundTrip.rdreq unit start count crc
  | rdrsp unit data crc => exact RoundTrip.rdrsp unit data crc
  | wrreq unit reg value crc => exact RoundTrip.wrreq unit reg value crc
  | wrrsp unit reg value crc => exact RoundTrip.wrrsp unit reg value crc

/-- R62: an operation that decodes is the select code and the operands of its instruction. -/
theorem encode_of_decodeOperation (h : decodeOperation select operands = .ok i) :
    encode i = .operation select operands := by
  have hcode : ∀ {n : Nat}, select.toNat = n → BitVec.ofNat 8 n = select := by
    rintro _ rfl
    simp
  unfold decodeOperation at h
  split at h
  case h_27 => cases h
  all_goals
    split at h
    · cases h
      exact congrArg (Transfer.operation · _) (hcode ‹_›)
    · cases h

/-- R63, R65: a byte string that decodes to a request is the frame of that request. -/
theorem encode_of_decodeTransmit (h : decodeTransmit frame = .ok i) : encode i = .transmit frame := by
  unfold decodeTransmit at h
  split at h
  · split at h
    · next hfn =>
      cases h
      simp [encode, frameBytes, payload16, hfn]
    · split at h
      · next hfn =>
        cases h
        simp [encode, frameBytes, payload16, hfn]
      · cases h
  · cases h

/-- R64, R66: received bytes are the frame of a response, or of neither format and the operand of ACCEPT. -/
theorem encode_decodeReceive (frame : List Byte) :
    encode (decodeReceive frame) = .receive frame ∨
      decodeReceive frame = .accept frame ∧ asReadResponse frame = none ∧ asWriteResponse frame = none := by
  unfold decodeReceive
  split
  · next hread =>
    obtain ⟨u, d, c, rfl, rfl⟩ := asReadResponse_eq_some hread
    exact .inl rfl
  · next hread =>
    split
    · next hwrite =>
      obtain ⟨u, a, v, c, rfl, rfl⟩ := asWriteResponse_eq_some hwrite
      exact .inl rfl
    · next hwrite => exact .inr ⟨rfl, hread, hwrite⟩

/-- Settles O4: one lemma for each interface a transfer can stand on. -/
theorem encodingInvertsDecoding : Obligations.EncodingInvertsDecoding := by
  intro x i h
  cases x with
  | operation select operands => exact .inl (encode_of_decodeOperation h)
  | transmit frame => exact .inl (encode_of_decodeTransmit h)
  | receive frame =>
    cases h
    rcases encode_decodeReceive frame with hframe | ⟨haccept, hread, hwrite⟩
    · exact .inl hframe
    · exact .inr ⟨frame, rfl, haccept, hread, hwrite⟩

/-- R71: a select code that is not listed decodes to no instruction. -/
theorem decodeOperation_reserved
    (h : select.toNat ∉ [0x00, 0x01, 0x10, 0x11, 0x12, 0x13, 0x14, 0x15, 0x16, 0x17, 0x20, 0x21, 0x22, 0x23, 0x24,
      0x25, 0x26, 0x27, 0x28, 0x29, 0x30, 0x31, 0x40, 0x41, 0x42, 0x43]) (operands : List Operand) :
    decodeOperation select operands = .error (.reservedSelect select) := by
  unfold decodeOperation
  split
  case h_27 => rfl
  all_goals
    next hcode =>
      rw [hcode] at h
      exact absurd (by decide) h

/-- R69: a byte string of neither request format decodes to no instruction. -/
theorem decodeTransmit_other
    (h : frame.length ≠ 8 ∨ (frame[1]? ≠ some Machine.fnRead ∧ frame[1]? ≠ some Machine.fnWrite)) :
    decodeTransmit frame = .error (.notRequest frame) := by
  unfold decodeTransmit
  split
  · obtain hlength | ⟨hread, hwrite⟩ := h
    · exact absurd rfl hlength
    · rw [if_neg fun hfn => hread (congrArg some hfn), if_neg fun hfn => hwrite (congrArg some hfn)]
  · rfl

/-- Settles O2: the decoder run on each word. -/
theorem tableWordsDecode : Obligations.TableWordsDecode :=
  ⟨fun _ => rfl, fun _ _ _ => rfl, fun _ => rfl, fun _ _ => rfl, fun _ => rfl, rfl, rfl, rfl, rfl⟩

namespace Machine

variable {s : State}

/-- Settles O5: the decoder gives no instruction, and such an operation is refused. -/
theorem reservedSelectCodesAreRefused : Obligations.ReservedSelectCodesAreRefused := by
  intro s select operands rest hp hselect
  have hdecode : decode (.operation select operands) = .error (.reservedSelect select) :=
    decodeOperation_reserved hselect operands
  rw [step_of_pending_cons hp]
  unfold perform
  rw [hdecode]
  rfl

/-! ## Responses that pass (R98) -/

theorem length_append_trailer (body : List Byte) (c : Word) : (body ++ trailer c).length = body.length + 2 :=
  List.length_append

/-- R88: a body with its own CRC behind it validates. -/
theorem validate_append_trailer {body : List Byte} (h : 2 ≤ body.length) :
    validate (body ++ trailer (crc16 body)) = true := by
  have hmin : minFrame ≤ (body ++ trailer (crc16 body)).length := by
    rw [length_append_trailer]
    exact Nat.add_le_add_right h 2
  unfold validate
  rw [frameBody_append, frameTrailer_append, beq_self_eq_true, Bool.and_true, decide_eq_true hmin]

/-- R98: bytes of 4 to 256 with their own CRC and the request's unit and function code are kept whole. -/
theorem acceptBytes_passing {body : List Byte} (hv : s.req.valid = true) (hmin : 2 ≤ body.length)
    (hmax : body.length ≤ 254) (hunit : body[0]? = some s.req.unit) (hfn : body[1]? = some s.req.fn) :
    ∃ t, acceptBytes (body ++ trailer (crc16 body)) s = .next t ∧ t.rxBytes = body ++ trailer (crc16 body) ∧
      t = ({ s with rxb := t.rxb, rxlen := BitVec.ofNat 9 (body.length + 2), rxok := true,
                    crc := crc16 body }).endsNormally .ok := by
  have hlength := length_append_trailer body (crc16 body)
  have hpass : acceptError s.req (body ++ trailer (crc16 body)) = none :=
    acceptError_eq_none.2 ⟨validate_append_trailer hmin,
      (List.getElem?_append_left (by omega)).trans hunit, (List.getElem?_append_left (by omega)).trans hfn⟩
  have hjudging : s.judging (body ++ trailer (crc16 body)) = s.dropResponse.withCrc (crc16 body) := by
    unfold State.judging minFrame
    rw [if_neg (by omega), frameBody_append]
  refine ⟨_, acceptBytes_eq_next.2 ⟨hv, by omega, .inr ⟨hpass, rfl⟩⟩, ?_, ?_⟩
  · rw [rxBytes_ended, rxBytes_keepResponse _ (by omega)]
  · rw [hjudging, ← hlength]
    rfl

/-- Settles O17: both formats are a body and its CRC, which ACCEPT keeps. -/
theorem responseFramesAreKept : Obligations.ResponseFramesAreKept := by
  constructor
  · intro data s body c hv hfn hdata
    have hlength : body.length = data.length + 3 := rfl
    have hkept := acceptBytes_passing (body := body) hv (by omega) (by omega) rfl (congrArg some hfn.symm)
    rwa [hlength] at hkept
  · intro reg value s body c hv hfn
    exact acceptBytes_passing (body := body) hv (by simp [body]) (by simp [body]) rfl (congrArg some hfn.symm)

end Machine

end Sys2Proof

namespace Sys2Proof.Machine

/-! ## The memory words of a register (R37, R43) -/

theorem Memory.read_writeWord_hi (m : Memory) (a : Nat) (w : Word) : (m.writeWord a w).read (2 * a) = some (hi8 w) := by
  unfold Memory.writeWord
  rw [Memory.read_write_other _ _ (by omega), Memory.read_write_same]

theorem Memory.read_writeWord_lo (m : Memory) (a : Nat) (w : Word) :
    (m.writeWord a w).read (2 * a + 1) = some (lo8 w) :=
  Memory.read_write_same _ _ _

/-- A write of a register leaves every byte of the others. -/
theorem Memory.read_writeWord_other (m : Memory) {a x : Nat} (w : Word) (hhi : x ≠ 2 * a) (hlo : x ≠ 2 * a + 1) :
    (m.writeWord a w).read x = m.read x := by
  unfold Memory.writeWord
  rw [Memory.read_write_other _ _ hlo, Memory.read_write_other _ _ hhi]

/-! ## What the controller answers (R37, R38, R64) -/

theorem length_registerData (i : Nat) (m : Memory) (start n : Nat) : (registerData i m start n).length = 2 * n := by
  induction n generalizing start with
  | zero => rfl
  | succ n ih =>
    simp only [registerData, List.length_cons, ih]
    omega

/-- R37: the data of a run of registers holds register j of the run at bytes 2j and 2j+1, high byte first. -/
theorem getElem?_registerData (i : Nat) (m : Memory) (start : Nat) {n j : Nat} (h : j < n) :
    (registerData i m start n)[2 * j]? = some (hi8 (controllerHolds i m (start + j))) ∧
      (registerData i m start n)[2 * j + 1]? = some (lo8 (controllerHolds i m (start + j))) := by
  induction n generalizing start j with
  | zero => omega
  | succ n ih =>
    cases j with
    | zero => exact ⟨rfl, rfl⟩
    | succ j =>
      obtain ⟨hhi, hlo⟩ := ih (start + 1) (Nat.lt_of_succ_lt_succ h)
      rw [Nat.add_right_comm] at hhi hlo
      exact ⟨hhi, hlo⟩

theorem readAnswer_of_lt {i : Nat} {m : Memory} {unit : Byte} {start count : Word} (h : 127 < count.toNat) :
    readAnswer i m unit start count = none :=
  if_pos h

/-- R64, R38: an answer of up to 127 registers has the one byte of a short answer as its data, or the registers. -/
theorem readAnswer_of_le {i : Nat} {m : Memory} {unit : Byte} {start count : Word} (h : count.toNat ≤ 127) :
    ∃ data, readAnswer i m unit start count = some (encodeFrame unit fnRead (readPayload data)) ∧
      (∀ b, count = 1 → Config.controllerShortByte i = some b → data = [b]) ∧
      ((count = 1 → Config.controllerShortByte i = none) → data = registerData i m start.toNat count.toNat) := by
  refine ⟨_, if_neg (Nat.not_lt.2 h), fun b hcount hshort => ?_, fun hwhole => ?_⟩
  · rw [if_pos hcount, hshort]
  · by_cases hcount : count = 1
    · rw [if_pos hcount, hwhole hcount]
    · rw [if_neg hcount]

/-! ## Frames on the wire (R25, R63, R65) -/

/-- The controller's registers at the next request, after changes of its own. -/
def State.drifted (s : State) : Memory := drift s.ctrl (Config.controllerDrift s.freeIndex)

/-- RDREQ goes out; the controller answers it if it serves it, or in another way, or not at all. -/
theorem exec_rdreq (unit : Byte) (start count crc : Word) (s : State) :
    exec (.rdreq unit start count crc) s =
      .next (s.transmitted (frameBytes unit fnRead (payload16 start count) crc) s.drifted
        (if Config.controllerServes s.freeIndex then
          (Config.controllerOddAnswer s.freeIndex).or (readAnswer s.freeIndex s.drifted unit start count)
        else Config.controllerOddAnswer s.freeIndex)) := by
  refine (sendRequest_eq_next.2 ?_ : execRdreq unit start count crc s = _)
  split <;> rfl

/-- WRREQ goes out; if the controller serves it, the register is written and the answer is an echo. -/
theorem exec_wrreq (unit : Byte) (reg value crc : Word) (s : State) :
    exec (.wrreq unit reg value crc) s =
      .next (s.transmitted (frameBytes unit fnWrite (payload16 reg value) crc)
        (if Config.controllerServes s.freeIndex then s.drifted.writeWord reg.toNat value else s.drifted)
        (if Config.controllerServes s.freeIndex then
          (Config.controllerOddAnswer s.freeIndex).or (writeAnswer unit reg value)
        else Config.controllerOddAnswer s.freeIndex)) := by
  refine (sendRequest_eq_next.2 ?_ : execWrreq unit reg value crc s = _)
  split <;> rfl

/-- Any other frame goes out; what the controller makes of it is free. -/
theorem step_other_frame {frame : List Byte} {s : State} {rest : List Transfer}
    (hp : s.pending = .transmit frame :: rest)
    (h : frame.length ≠ 8 ∨ (frame[1]? ≠ some fnRead ∧ frame[1]? ≠ some fnWrite)) :
    step s = .next ((s.withPending rest).transmitted frame s.drifted (Config.controllerOddAnswer s.freeIndex)) :=
  (step_of_pending_cons hp).trans (perform_other_frame (decodeTransmit_other h) _)

/-- Settles O43: one equation for each kind of frame, and what a served request is answered with. -/
theorem requestFramesGoOut : Obligations.RequestFramesGoOut := by
  refine ⟨fun unit start count crc s => ?_, fun unit reg value crc s => ?_, fun frame s rest hp h => ?_⟩
  · refine ⟨_, exec_rdreq unit start count crc s, rfl, rfl, fun _ => rfl, ?_⟩
    rw [State.transmitted_link, State.transmitted_ctrl]
    split
    · next h =>
      obtain ⟨hserves, hcount⟩ := h
      obtain ⟨data, hanswer, hshort, hwhole⟩ := readAnswer_of_le hcount
      refine ⟨data, ?_, hshort, fun hnone => ?_⟩
      · rw [if_pos hserves, hanswer]
        rfl
      · rw [hwhole hnone]
        exact ⟨length_registerData _ _ _ _, fun j hj => getElem?_registerData _ _ _ hj⟩
    · next h =>
      split
      · next hserves =>
        rw [readAnswer_of_lt (Nat.lt_of_not_le fun hcount => h ⟨hserves, hcount⟩), Option.or_none]
      · rfl
  · refine ⟨_, exec_wrreq unit reg value crc s, rfl, rfl, ?_⟩
    rw [State.transmitted_link, State.transmitted_ctrl]
    split
    · exact ⟨fun a => Memory.read_writeWord_other _ value, Memory.read_writeWord_hi _ _ _,
        Memory.read_writeWord_lo _ _ _, rfl⟩
    · exact ⟨fun _ _ _ => rfl, rfl, rfl⟩
  · exact ⟨_, step_other_frame hp h, rfl, rfl, fun _ => rfl⟩

end Sys2Proof.Machine

namespace Sys2Proof.Machine

/-! ## The two bytes behind a body (R87, R88) -/

/-- Any two bytes are the trailer of one word. -/
theorem pair_eq_trailer (lo hi : Byte) : [lo, hi] = trailer (be16 hi lo) := by
  rw [trailer, lo8_be16, hi8_be16]

theorem eq_trailer_of_length {d : List Byte} (h : d.length = 2) : ∃ c, d = trailer c := by
  obtain ⟨lo, hi, rfl⟩ := List.length_eq_two.1 h
  exact ⟨be16 hi lo, pair_eq_trailer lo hi⟩

theorem length_frameTrailer {b : List Byte} (h : 2 ≤ b.length) : (frameTrailer b).length = 2 := by
  unfold frameTrailer
  rw [List.length_drop]
  omega

/-- Every buffer of two bytes or more is a body with some trailer behind it. -/
theorem exists_append_trailer {b : List Byte} (h : 2 ≤ b.length) : ∃ body c, b = body ++ trailer c := by
  obtain ⟨c, hc⟩ := eq_trailer_of_length (length_frameTrailer h)
  exact ⟨frameBody b, c, by rw [← hc, frameBody_append_frameTrailer]⟩

theorem encodeFrame_eq_append (unit fn : Byte) (p : List Byte) :
    encodeFrame unit fn p = (unit :: fn :: p) ++ trailer (crc16 (unit :: fn :: p)) :=
  frameBytes_eq_append ..

/-! ## VALIDATE (R88) -/

/-- From 4 bytes on, VALIDATE is the comparison of the trailer with the CRC of the body. -/
theorem validate_append_trailer_eq {body : List Byte} (h : 2 ≤ body.length) (c : Word) :
    validate (body ++ trailer c) = decide (c = crc16 body) := by
  have hmin : minFrame ≤ (body ++ trailer c).length := by
    rw [length_append_trailer]
    exact Nat.add_le_add_right h 2
  unfold validate
  rw [frameBody_append, frameTrailer_append, decide_eq_true hmin, Bool.true_and, beq_eq_decide]
  exact decide_eq_decide.2 trailer_inj

/-- A buffer below 4 bytes is false, and the accumulator stays. -/
theorem exec_validate_of_lt {b : List Byte} (h : b.length < 4) (s : State) :
    exec (.validate b) s = .next (s.endsNormally (.bool false)) := by
  have hfalse : validate b = false := by
    unfold validate minFrame
    rw [decide_eq_false (Nat.not_le.2 h), Bool.false_and]
  change execValidate b s = _
  unfold execValidate minFrame
  rw [if_pos h, hfalse]
  rfl

/-- From 4 bytes on the CRC of the body is left in the accumulator, whatever the verdict (R92). -/
theorem exec_validate_of_le {b : List Byte} (h : 4 ≤ b.length) (s : State) :
    exec (.validate b) s =
      .next (({ s with crc := crc16 (frameBody b) }).endsNormally (.bool (validate b))) := by
  change execValidate b s = _
  unfold execValidate minFrame
  rw [if_neg (Nat.not_lt.2 h)]
  rfl

theorem exec_validate_false {b : List Byte} (h : 4 ≤ b.length) (hfalse : validate b = false) (s : State) :
    ∃ c, exec (.validate b) s = .next (({ s with crc := c }).endsNormally (.bool false)) :=
  ⟨_, hfalse ▸ exec_validate_of_le h s⟩

/-- Settles O8: the two lengths of R88, and a trailer of any two bytes. -/
theorem validateComparesTheTrailer : Obligations.ValidateComparesTheTrailer := by
  refine ⟨fun _ => rfl, fun b s h => exec_validate_of_lt h s, fun body lo hi s h => ?_⟩
  have hcompare : be16 hi lo = crc16 body ↔ lo = lo8 (crc16 body) ∧ hi = hi8 (crc16 body) := by
    rw [← trailer_inj, ← pair_eq_trailer, trailer]
    simp
  rw [pair_eq_trailer, exec_validate_of_le (by rw [length_append_trailer]; omega), frameBody_append,
    validate_append_trailer_eq h, decide_eq_decide.2 hcompare]

/-- Settles O7: CRC16 is a left fold, so one more byte is one more round of the loop. -/
theorem crc16FollowsTheBitLoop : Obligations.Crc16FollowsTheBitLoop :=
  ⟨fun _ => rfl, rfl, fun d b => crc16_append d [b], by decide +kernel, by decide +kernel, fun _ _ => rfl⟩

/-- Settles O9: ENCODE leaves in the accumulator the CRC that stands in the frame's trailer. -/
theorem validateAcceptsEveryEncodedFrame : Obligations.ValidateAcceptsEveryEncodedFrame := by
  intro unit fn p s
  refine ⟨encodeFrame unit fn p, _, rfl, rfl, length_encodeFrame unit fn p, fun s' => ?_⟩
  have hbody : 2 ≤ (unit :: fn :: p).length := Nat.le_add_left 2 p.length
  rw [exec_validate_of_le (by rw [length_encodeFrame]; omega), encodeFrame_eq_append, frameBody_append,
    validate_append_trailer hbody]
  rfl

/-! ## The residue (R91): a trailer XORs itself into the accumulator -/

theorem crcShift_zero : crcShift 0 = 0 := rfl

theorem crcShift_iterate_xor (n : Nat) (a b : Word) :
    crcShift^[n] (a ^^^ b) = crcShift^[n] a ^^^ crcShift^[n] b := by
  induction n generalizing a b with
  | zero => rfl
  | succ n ih => rw [Function.iterate_succ_apply, crcShift_xor, ih]; rfl

theorem crcShift_iterate_eq_zero {n : Nat} {c : Word} : crcShift^[n] c = 0 ↔ c = 0 := by
  have hzero : crcShift^[n] 0 = 0 := Function.iterate_fixed crcShift_zero n
  constructor
  · exact fun h => crcShift_injective.iterate n (h.trans hzero.symm)
  · rintro rfl
    exact hzero

/-- A bit that is 0 leaves the accumulator without the feedback constant. -/
theorem crcShift_shiftLeft_one {c : Word} (h : c.getLsbD 15 = false) : crcShift (c <<< 1) = c := by
  have hlow : (c <<< 1).getLsbD 0 = false := by simp
  rw [crcShift_eq, hlow, if_neg Bool.false_ne_true]
  refine BitVec.xor_zero.trans ?_
  apply BitVec.eq_of_getLsbD_eq
  intro i hi
  by_cases h15 : i = 15
  · subst h15
    rw [h, BitVec.getLsbD_ushiftRight, BitVec.getLsbD_of_ge _ _ le_rfl]
  · have : 1 + i < 16 := by omega
    simp [this, BitVec.getLsbD_eq_getElem hi]

/-- A byte in the high half comes down unchanged. -/
theorem crcShift_iterate_shiftLeft (b : Byte) {n : Nat} (h : n ≤ 8) :
    crcShift^[n] (b.setWidth 16 <<< n) = b.setWidth 16 := by
  induction n with
  | zero => exact BitVec.shiftLeft_zero _
  | succ n ih =>
    have htop : (b.setWidth 16 <<< n).getLsbD 15 = false := by
      have : b.getLsbD (15 - n) = false := BitVec.getLsbD_of_ge b _ (by omega)
      simp [this]
    rw [Function.iterate_succ_apply, BitVec.shiftLeft_add, crcShift_shiftLeft_one htop, ih (by omega)]

/-- The two bytes of a word, each XORed in at its place, are the word XORed in. -/
theorem xor_lo8_xor_hi8 (a c : Word) :
    a ^^^ (lo8 c).setWidth 16 ^^^ (hi8 c).setWidth 16 <<< 8 = a ^^^ c := by
  rw [BitVec.xor_assoc]
  congr 1
  apply BitVec.eq_of_getLsbD_eq
  intro i hi
  by_cases h : i < 8
  · simp [lo8, hi8, h, hi]
  · have : i - 8 < 8 := by omega
    have : 8 + (i - 8) = i := by omega
    simp [lo8, hi8, *]

/-- A word's trailer runs through the loop as the word XORed in, followed by 16 shifts. -/
theorem foldl_crcByte_trailer (a c : Word) : (trailer c).foldl crcByte a = crcShift^[16] (a ^^^ c) := by
  calc (trailer c).foldl crcByte a
      = crcShift^[8] (crcShift^[8] (a ^^^ (lo8 c).setWidth 16) ^^^ (hi8 c).setWidth 16) := rfl
    _ = crcShift^[8] (crcShift^[8] (a ^^^ (lo8 c).setWidth 16 ^^^ (hi8 c).setWidth 16 <<< 8)) := by
        rw [crcShift_iterate_xor 8 _ ((hi8 c).setWidth 16 <<< 8), crcShift_iterate_shiftLeft _ le_rfl]
    _ = crcShift^[16] (a ^^^ c) := by rw [xor_lo8_xor_hi8, ← Function.iterate_add_apply]

/-- The residue is 0 for the one trailer that is the CRC of the body. -/
theorem crc16_append_trailer_eq_zero {body : List Byte} {c : Word} :
    crc16 (body ++ trailer c) = 0x0000 ↔ c = crc16 body := by
  rw [crc16_append, foldl_crcByte_trailer, crcShift_iterate_eq_zero]
  exact BitVec.xor_eq_zero_iff.trans eq_comm

/-- Settles O11: by `crc16_append_trailer_eq_zero` the residue is the test of VALIDATE. -/
theorem frameResidueIsZero : Obligations.FrameResidueIsZero := by
  constructor
  · intro unit fn p
    rw [encodeFrame_eq_append]
    exact crc16_append_trailer_eq_zero.2 rfl
  · intro b h
    obtain ⟨body, c, rfl⟩ := exists_append_trailer (b := b) (by omega)
    rw [length_append_trailer] at h
    rw [validate_append_trailer_eq (by omega), decide_eq_true_iff, crc16_append_trailer_eq_zero]

/-! ## Single-bit errors (R90) -/

theorem xor_bit_ne (x : Byte) (k : Fin 8) : x ^^^ (1#8 <<< k.val) ≠ x := by
  have hbit : 1#8 <<< k.val ≠ 0 := by revert k; decide
  exact fun h => hbit (BitVec.xor_right_inj x |>.1 (h.trans BitVec.xor_zero.symm))

/-- Writing another byte at a position changes the bytes. -/
theorem set_ne_self {d : List Byte} {n : Nat} {x y : Byte} (hx : d[n]? = some x) (hy : y ≠ x) : d.set n y ≠ d := by
  obtain ⟨hn, -⟩ := List.getElem?_eq_some_iff.1 hx
  intro h
  have hsame : (d.set n y)[n]? = some x := by rw [h, hx]
  rw [List.getElem?_set_self hn] at hsame
  exact hy (Option.some.inj hsame)

/-- The loop is injective in each byte and in the accumulator, so one differing byte shows in the CRC. -/
theorem crc16_append_cons_inj {d e : List Byte} {x y : Byte} (h : crc16 (d ++ x :: e) = crc16 (d ++ y :: e)) :
    x = y := by
  rw [crc16_append, crc16_append] at h
  exact crcByte_right_injective _ (foldl_crcByte_injective e h)

/-- Another byte at one position gives another CRC. -/
theorem crc16_set_ne {d : List Byte} {n : Nat} {x y : Byte} (hx : d[n]? = some x) (hy : y ≠ x) :
    crc16 (d.set n y) ≠ crc16 d := by
  obtain ⟨hn, hxn⟩ := List.getElem?_eq_some_iff.1 hx
  have hset : d.set n y = d.take n ++ y :: d.drop (n + 1) := List.set_eq_take_cons_drop y hn
  have hself : d = d.take n ++ x :: d.drop (n + 1) := by
    rw [← hxn, List.getElem_cons_drop, List.take_append_drop]
  intro h
  refine hy (crc16_append_cons_inj (d := d.take n) (e := d.drop (n + 1)) ?_)
  rwa [← hset, ← hself]

/-- A write behind the body leaves the body and some trailer. -/
theorem exists_set_append_trailer {body : List Byte} {n : Nat} (h : body.length ≤ n) (c : Word) (y : Byte) :
    ∃ c', (body ++ trailer c).set n y = body ++ trailer c' := by
  obtain ⟨c', hc'⟩ := eq_trailer_of_length (d := (trailer c).set (n - body.length) y) List.length_set
  exact ⟨c', by rw [List.set_append_right _ _ h, hc']⟩

variable {body : List Byte} {n : Nat} {x y : Byte}

/-- Another byte in the body: the trailer stands, and the recomputed CRC is another one. -/
theorem body_error_detected (hmin : 2 ≤ body.length) (hn : n < body.length)
    (hx : (body ++ trailer (crc16 body))[n]? = some x) (hy : y ≠ x) :
    validate ((body ++ trailer (crc16 body)).set n y) = false ∧
      crc16 (frameBody ((body ++ trailer (crc16 body)).set n y)) ≠ crc16 body := by
  have hne : crc16 (body.set n y) ≠ crc16 body := crc16_set_ne ((List.getElem?_append_left hn).symm.trans hx) hy
  rw [List.set_append_left _ _ hn, validate_append_trailer_eq (by rwa [List.length_set]), frameBody_append]
  exact ⟨decide_eq_false hne.symm, hne⟩

/-- Another byte in the trailer: the recomputed CRC stands, and the trailer is another one. -/
theorem trailer_error_detected (hmin : 2 ≤ body.length) (hn : body.length ≤ n)
    (hx : (body ++ trailer (crc16 body))[n]? = some x) (hy : y ≠ x) :
    validate ((body ++ trailer (crc16 body)).set n y) = false ∧
      frameTrailer ((body ++ trailer (crc16 body)).set n y) ≠ trailer (crc16 body) ∧
      crc16 (frameBody ((body ++ trailer (crc16 body)).set n y)) = crc16 body := by
  obtain ⟨c, hc⟩ := exists_set_append_trailer hn (crc16 body) y
  have hne : c ≠ crc16 body := by
    rintro rfl
    exact set_ne_self hx hy hc
  rw [hc, validate_append_trailer_eq hmin, frameTrailer_append, frameBody_append]
  exact ⟨decide_eq_false hne, mt trailer_inj.1 hne, rfl⟩

/-- Settles O10: the flipped bit stands in the body or in the trailer, and each part has its lemma. -/
theorem singleBitFlipIsDetected : Obligations.SingleBitFlipIsDetected := by
  intro unit fn p n k x hx f g
  have hlength : 4 ≤ g.length := by
    rw [List.length_set, length_encodeFrame]
    exact Nat.le_add_right 4 _
  have hbody : (unit :: fn :: p).length = 2 + p.length := Nat.add_comm p.length 2
  have hflip := xor_bit_ne x k
  simp only [g, f, encodeFrame_eq_append, frameBody_append, frameTrailer_append, ← hbody] at hx hlength ⊢
  have hmin : 2 ≤ (unit :: fn :: p).length := hbody ▸ Nat.le_add_right 2 _
  rcases Nat.lt_or_ge n (unit :: fn :: p).length with hn | hn
  · obtain ⟨hfalse, hcrc⟩ := body_error_detected hmin hn hx hflip
    exact ⟨hfalse, fun _ => hcrc, fun hge => absurd hge (Nat.not_le.2 hn), exec_validate_false hlength hfalse⟩
  · obtain ⟨hfalse, hparts⟩ := trailer_error_detected hmin hn hx hflip
    exact ⟨hfalse, fun hlt => absurd hn (Nat.not_le.2 hlt), fun _ => hparts, exec_validate_false hlength hfalse⟩

end Sys2Proof.Machine

namespace Sys2Proof.Machine

variable {s t : State}

/-! ## Serialising and ending a request (R95 to R97, R102) -/

/-- Settles O12: ENCODE is the pure serialiser, so REQ and RXOK are not among the fields it updates. -/
theorem encodeSerialisesAndOpensNothing : Obligations.EncodeSerialisesAndOpensNothing :=
  ⟨fun _ _ _ => rfl, fun _ _ _ _ => rfl, by decide +kernel, by decide +kernel⟩

/-- Settles O13: ENC.RD opens the read request and serialises it; the frames are the four poll segments. -/
theorem encRdOpensAReadRequest : Obligations.EncRdOpensAReadRequest :=
  ⟨fun _ _ _ => rfl, fun _ _ _ _ => rfl, by decide +kernel, by decide +kernel, by decide +kernel, by decide +kernel⟩

/-- Settles O14: ENC.WR opens the write request and serialises it, the register value whole. -/
theorem encWrOpensAWriteRequest : Obligations.EncWrOpensAWriteRequest :=
  ⟨fun _ _ _ => rfl, fun _ _ _ _ => rfl, by decide +kernel, by decide +kernel⟩

theorem exec_clrreq (s : State) : exec .clrreq s = .next (s.closeRequest.ended 0x00 .none) := rfl

/-- Settles O22: with the request closed and the response dropped nothing is left to accept or to parse. -/
theorem clrreqEndsTheTransaction : Obligations.ClrreqEndsTheTransaction := by
  refine ⟨rfl, fun s => ⟨_, exec_clrreq s, rfl, exec_clrreq _, fun b => accept_refused ?_ b, parseRd_refused ?_,
    parseRd1_refused ?_, parseWr_refused ?_⟩⟩
  all_goals rfl

/-! ## ACCEPT: the four tests in their order (R98, R188) -/

section
variable {body b : List Byte} {c : Word} {e : ErrorCause}

/-- The word of two bytes is a given one exactly when they are its two bytes. -/
theorem be16_eq_iff {hi lo : Byte} {w : Word} : be16 hi lo = w ↔ hi = hi8 w ∧ lo = lo8 w := by
  constructor
  · rintro rfl
    exact ⟨(hi8_be16 hi lo).symm, (lo8_be16 hi lo).symm⟩
  · rintro ⟨rfl, rfl⟩
    exact be16_hi8_lo8 w

theorem acceptError_of_lt (r : Req) (h : b.length < 4) : acceptError r b = some .protocolShort := if_pos h

/-- From 4 bytes on the verdict reads the trailer against the CRC of the body, then the body's first two bytes. -/
theorem acceptError_append_trailer (r : Req) (h : 2 ≤ body.length) (c : Word) :
    acceptError r (body ++ trailer c) =
      if c ≠ crc16 body then some .protocolCrc
      else if body[0]? ≠ some r.unit then some .protocolUnit
      else if body[1]? ≠ some r.fn then some .protocolFn
      else none := by
  have hmin : ¬ (body ++ trailer c).length < minFrame := by
    rw [length_append_trailer, minFrame]
    omega
  unfold acceptError
  rw [if_neg hmin, validate_append_trailer_eq h, List.getElem?_append_left (by omega),
    List.getElem?_append_left (by omega)]
  simp only [decide_eq_false_iff_not]

theorem judging_of_lt (s : State) (h : b.length < 4) : s.judging b = s.dropResponse := if_pos h

theorem judging_append_trailer (s : State) (h : 2 ≤ body.length) (c : Word) :
    s.judging (body ++ trailer c) = s.dropResponse.withCrc (crc16 body) := by
  unfold State.judging minFrame
  rw [if_neg (by rw [length_append_trailer]; omega), frameBody_append]

theorem exec_accept_rejected (hv : s.req.valid = true) (hl : b.length ≤ 256) (he : acceptError s.req b = some e) :
    exec (.accept b) s = .next ((s.judging b).endsInError e.code e) :=
  acceptBytes_eq_next.2 ⟨hv, hl, .inl ⟨e, he, rfl⟩⟩

/-- Whatever the verdict, RXB behind the response is as it was. -/
theorem acceptBytes_rxb_of_le (h : acceptBytes b s = .next t) {n : Nat} (hn : n < 256) (hle : b.length ≤ n) :
    t.rxb[n] = s.rxb[n] := by
  obtain ⟨-, -, ⟨e, -, rfl⟩ | ⟨-, rfl⟩⟩ := acceptBytes_eq_next.1 h
  · simp
  · simp [getElem_storeBytes, Nat.not_lt.2 hle]

end

/-- Settles O15: a passing response is kept, and only the bytes it covers are written. -/
theorem acceptKeepsAPassingResponse : Obligations.AcceptKeepsAPassingResponse := by
  intro body s b hv hmin hmax hunit hfn
  obtain ⟨t, ht, hbytes, hstate⟩ := acceptBytes_passing hv hmin hmax hunit hfn
  rw [← length_append_trailer body (crc16 body)] at hstate
  exact ⟨t, ht, hstate, hbytes, fun _ hn hle => acceptBytes_rxb_of_le ht hn hle⟩

/-- Settles O16: below 4 bytes SHORT; from there on the verdict is `acceptError_append_trailer`, test by test. -/
theorem acceptRejectsInOrder : Obligations.AcceptRejectsInOrder := by
  intro s hv
  constructor
  · intro b hb
    rw [exec_accept_rejected hv (by omega) (acceptError_of_lt s.req hb), judging_of_lt s hb]
    rfl
  · intro body lo hi hmin hmax dropped
    have hgood : lo = lo8 (crc16 body) ∧ hi = hi8 (crc16 body) ↔ be16 hi lo = crc16 body :=
      and_comm.trans be16_eq_iff.symm
    have rejected : ∀ e, acceptError s.req (body ++ trailer (be16 hi lo)) = some e →
        exec (.accept (body ++ [lo, hi])) s = .next (dropped.endsInError e.code e) := by
      intro e he
      have hlength : (body ++ trailer (be16 hi lo)).length ≤ 256 := by
        rw [length_append_trailer]
        omega
      rw [pair_eq_trailer, exec_accept_rejected hv hlength he, judging_append_trailer s hmin]
      rfl
    rw [hgood]
    rw [acceptError_append_trailer s.req hmin] at rejected
    refine ⟨fun hcrc => ?_, fun hcrc hunit => ?_, fun hcrc hunit hfn => ?_⟩
    · exact rejected .protocolCrc (if_pos hcrc)
    · exact rejected .protocolUnit (by rw [if_neg (not_not.2 hcrc), if_pos hunit])
    · exact rejected .protocolFn (by rw [if_neg (not_not.2 hcrc), if_neg (not_not.2 hunit), if_pos hfn])

/-! ## Reading the data of a response (R99, R100) -/

/-- R99 `RXB[3 .. 3+bc-1]`: the bytes that the response's byte count declares. -/
def State.dataBytes (s : State) : List Byte := (s.rxb.toList.drop 3).take (s.rxb[2]).toNat

theorem getElem?_dataBytes {j : Nat} (h : 3 + j < 256) (hj : j < (s.rxb[2]).toNat) :
    s.dataBytes[j]? = some s.rxb[3 + j] := by
  simp [State.dataBytes, hj, h]

theorem length_dataBytes (h : (s.rxb[2]).toNat ≤ 253) : s.dataBytes.length = (s.rxb[2]).toNat := by
  simp [State.dataBytes, h]

theorem dataBytes_of_count_one (h : s.rxb[2] = 1) : s.dataBytes = [s.rxb[3]] := by
  have hcount : (s.rxb[2]).toNat = 1 := by rw [h]; rfl
  obtain ⟨x, hx⟩ := List.length_eq_one_iff.1 ((length_dataBytes (by omega)).trans hcount)
  have hx0 : s.dataBytes[0]? = some s.rxb[3] := getElem?_dataBytes (by decide) (by omega)
  rw [hx] at hx0 ⊢
  rw [Option.some.inj hx0]

theorem dataBytes_of_count_two (h : s.rxb[2] = 2) : s.dataBytes = [s.rxb[3], s.rxb[4]] := by
  have hcount : (s.rxb[2]).toNat = 2 := by rw [h]; rfl
  obtain ⟨x, y, hxy⟩ := List.length_eq_two.1 ((length_dataBytes (by omega)).trans hcount)
  have hx : s.dataBytes[0]? = some s.rxb[3] := getElem?_dataBytes (by decide) (by omega)
  have hy : s.dataBytes[1]? = some s.rxb[4] := getElem?_dataBytes (by decide) (by omega)
  rw [hxy] at hx hy ⊢
  rw [Option.some.inj hx, Option.some.inj hy]

theorem hasResponse_eq_true {fn : Byte} : s.hasResponse fn = true ↔ s.rxok = true ∧ s.req.fn = fn := by
  simp [State.hasResponse]

theorem wordOfData_eq_none {d : List Byte} (h1 : d.length ≠ 1) (h2 : d.length ≠ 2) : wordOfData d = none := by
  match d with
  | [] => rfl
  | [_] => exact absurd rfl h1
  | [_, _] => exact absurd rfl h2
  | _ :: _ :: _ :: _ => rfl

section
variable (h : s.hasResponse fnRead = true)
include h

theorem readData_of_short (hlen : s.rxlen.toNat < 5) : readData s = .error .decodeShort := by
  simp [readData, h, hlen]

theorem readData_of_miscount (hlen : 5 ≤ s.rxlen.toNat) (hcount : (s.rxb[2]).toNat ≠ s.rxlen.toNat - 5) :
    readData s = .error .decodeCount := by
  simp [readData, h, Nat.not_lt.2 hlen, hcount]

theorem readData_of_count (hlen : 5 ≤ s.rxlen.toNat) (hcount : (s.rxb[2]).toNat = s.rxlen.toNat - 5) :
    readData s = .data s.dataBytes := by
  simp [readData, State.dataBytes, h, Nat.not_lt.2 hlen, hcount]

end

theorem exec_parseRd_of_error {e : ErrorCause} (h : readData s = .error e) :
    exec .parseRd s = .next (s.endsInError e.code e) := by
  change execParseRd s = _
  simp only [execParseRd, h]
  rfl

theorem exec_parseRd_of_data {d : List Byte} (h : readData s = .data d) :
    exec .parseRd s = .next (s.endsNormally (.bytes d)) := by
  change execParseRd s = _
  simp only [execParseRd, h]
  rfl

theorem exec_parseRd1_of_error {e : ErrorCause} (h : readData s = .error e) :
    exec .parseRd1 s = .next (s.endsInError e.code e) := by
  change execParseRd1 s = _
  simp only [execParseRd1, h]
  rfl

theorem exec_parseRd1_of_word {d : List Byte} {w : Word} (h : readData s = .data d) (hw : wordOfData d = some w) :
    exec .parseRd1 s = .next (s.endsNormally (.word w)) := by
  change execParseRd1 s = _
  simp only [execParseRd1, h, hw]
  rfl

theorem exec_parseRd1_of_no_word {d : List Byte} (h : readData s = .data d) (hw : wordOfData d = none) :
    exec .parseRd1 s = .next (s.endsInError 0x33 .decodeLen1) := by
  change execParseRd1 s = _
  simp only [execParseRd1, h, hw]
  rfl

/-- Settles O18: the two tests of `readData`, and the data when both pass. -/
theorem parseRdGivesTheDataBytes : Obligations.ParseRdGivesTheDataBytes := by
  intro s hok hfn
  have hresp : s.hasResponse fnRead = true := hasResponse_eq_true.2 ⟨hok, hfn⟩
  refine ⟨fun hlen => exec_parseRd_of_error (readData_of_short hresp hlen),
    fun hlen hcount => exec_parseRd_of_error (readData_of_miscount hresp hlen hcount), fun hlen hmax hcount => ?_⟩
  exact ⟨s.dataBytes, exec_parseRd_of_data (readData_of_count hresp hlen hcount), length_dataBytes (by omega),
    fun _ => getElem?_dataBytes⟩

/-- Settles O19: one or two data bytes are a word (R38); the other lengths, and the errors of PARSE.RD, are errors. -/
theorem parseRd1GivesOneWord : Obligations.ParseRd1GivesOneWord := by
  intro s hok hfn
  have hresp : s.hasResponse fnRead = true := hasResponse_eq_true.2 ⟨hok, hfn⟩
  refine ⟨fun hlen htwo => ?_, fun hlen hone => ?_,
    fun hlen => exec_parseRd1_of_error (readData_of_short hresp hlen),
    fun hlen hcount => exec_parseRd1_of_error (readData_of_miscount hresp hlen hcount),
    fun hlen hmax hcount hone htwo => ?_⟩
  · have hdata := readData_of_count hresp (by omega) (by rw [htwo, hlen]; rfl)
    exact exec_parseRd1_of_word hdata (by rw [dataBytes_of_count_two htwo]; rfl)
  · have hdata := readData_of_count hresp (by omega) (by rw [hone, hlen]; rfl)
    exact exec_parseRd1_of_word hdata (by rw [dataBytes_of_count_one hone]; rfl)
  · have hlength : s.dataBytes.length = (s.rxb[2]).toNat := length_dataBytes (by omega)
    have hnone : wordOfData s.dataBytes = none := wordOfData_eq_none (by bv_omega) (by bv_omega)
    exact exec_parseRd1_of_no_word (readData_of_count hresp hlen hcount) hnone

/-! ## The echo of a write (R66, R101) -/

theorem exec_parseWr (h : s.hasResponse fnWrite = true) :
    exec .parseWr s = .next ((s.withEcho (echoMatches s)).ended 0x00 (.bool (echoMatches s))) :=
  if_neg (by simp [h])

theorem echoMatches_eq_true :
    echoMatches s = true ↔
      s.rxlen = 8 ∧ be16 s.rxb[2] s.rxb[3] = s.req.a ∧ be16 s.rxb[4] s.rxb[5] = s.req.b := by
  simp [echoMatches, and_assoc]

/-- Settles O20: the echo is `echoMatches`, and both its values are a normal end. -/
theorem parseWrReportsTheEcho : Obligations.ParseWrReportsTheEcho := fun s hok hfn =>
  ⟨echoMatches s, echoMatches_eq_true, exec_parseWr (hasResponse_eq_true.2 ⟨hok, hfn⟩)⟩

theorem length_rxBytes (h : s.rxlen.toNat ≤ 256) : s.rxBytes.length = s.rxlen.toNat := by
  simp [State.rxBytes, h]

theorem rxBytes_of_rxlen_eight (h : s.rxlen = 8) :
    s.rxBytes =
      [s.rxb[0], s.rxb[1], s.rxb[2], s.rxb[3], s.rxb[4], s.rxb[5], s.rxb[6], s.rxb[7]] := by
  have hlen : s.rxlen.toNat = 8 := by rw [h]; rfl
  apply List.ext_getElem
  · rw [length_rxBytes (by omega), hlen]
    rfl
  · intro i _ hi
    have : i < 8 := hi
    interval_cases i <;> simp [State.rxBytes]

/-- Four bytes are the payload of two words exactly when they read as these words (R35). -/
theorem eq_payload16_iff {ah al bh bl : Byte} {a b : Word} :
    [ah, al, bh, bl] = payload16 a b ↔ be16 ah al = a ∧ be16 bh bl = b := by
  simp [payload16, be16_eq_iff, and_assoc]

/-- A buffer with a good CRC is a frame exactly when its body is the frame's: the trailer follows from the body. -/
theorem eq_encodeFrame_iff {b : List Byte} (hv : validate b = true) {unit fn : Byte} {p : List Byte} :
    b = encodeFrame unit fn p ↔ frameBody b = unit :: fn :: p := by
  constructor
  · rintro rfl
    rw [encodeFrame_eq_append, frameBody_append]
  · intro hbody
    have htrailer : frameTrailer b = trailer (crc16 (frameBody b)) := by
      rw [validate, Bool.and_eq_true, beq_iff_eq] at hv
      exact hv.2
    rw [← frameBody_append_frameTrailer b, htrailer, hbody, encodeFrame_eq_append]

/-- Of an accepted response of 8 bytes only the two words are open: unit, function code and CRC have passed ACCEPT. -/
theorem rxBytes_eq_encodeFrame_iff (hok : s.responseOk) (hlen : s.rxlen = 8) {a b : Word} :
    s.rxBytes = encodeFrame s.req.unit s.req.fn (payload16 a b) ↔
      be16 s.rxb[2] s.rxb[3] = a ∧ be16 s.rxb[4] s.rxb[5] = b := by
  obtain ⟨-, hcrc, hunit, hfn⟩ := hok
  have hbytes := rxBytes_of_rxlen_eight hlen
  rw [hbytes] at hunit hfn
  have hbody : frameBody s.rxBytes = s.req.unit :: s.req.fn :: [s.rxb[2], s.rxb[3], s.rxb[4], s.rxb[5]] := by
    rw [hbytes, ← Option.some.inj hunit, ← Option.some.inj hfn]
    rfl
  rw [eq_encodeFrame_iff hcrc, hbody, List.cons_inj_right, List.cons_inj_right, eq_payload16_iff]

/-- A response that is the write request, byte for byte, has its 8 bytes. -/
theorem rxlen_of_rxBytes_eq_encodeFrame (hmax : s.rxlen.toNat ≤ 256) {unit fn : Byte} {a b : Word}
    (h : s.rxBytes = encodeFrame unit fn (payload16 a b)) : s.rxlen = 8 := by
  apply BitVec.eq_of_toNat_eq
  rw [← length_rxBytes hmax, h, length_encodeFrame, length_payload16]
  rfl

/-- Settles O21: the invariant says that the response passed ACCEPT, and the echo compares the rest. -/
theorem echoMeansTheRequestFrame : Obligations.EchoMeansTheRequestFrame := by
  intro s hinv hok hfn
  obtain ⟨hmax, hresponse, -⟩ := hinv
  refine ⟨_, exec_parseWr (hasResponse_eq_true.2 ⟨hok, hfn⟩), ?_⟩
  change echoMatches s = true ↔ _
  rw [echoMatches_eq_true, ← hfn]
  constructor
  · rintro ⟨hlen, hwords⟩
    exact (rxBytes_eq_encodeFrame_iff (hresponse hok) hlen).2 hwords
  · intro hframe
    have hlen := rxlen_of_rxBytes_eq_encodeFrame hmax hframe
    exact ⟨hlen, (rxBytes_eq_encodeFrame_iff (hresponse hok) hlen).1 hframe⟩

end Sys2Proof.Machine

namespace Sys2Proof.Machine

variable {s t : State}

/-! ## The decode buffer: words of registers and valid bits (R37, R46, R117) -/

/-- R37: a register has a word exactly when its two bytes have values, the high byte first. -/
theorem Memory.readWord_eq_some {m : Memory} {a : Nat} {w : Word} :
    m.readWord a = some w ↔ m.read (2 * a) = some (hi8 w) ∧ m.read (2 * a + 1) = some (lo8 w) := by
  unfold Memory.readWord
  cases m.read (2 * a) <;> cases m.read (2 * a + 1) <;> simp [be16_eq_iff]

/-- R37: in a run of bytes written from register `start` on, register `start + j` is the bytes 2j and 2j+1. -/
theorem Memory.readWord_writeBytes (m : Memory) (start : Nat) {d : List Byte} {j : Nat} {h l : Byte}
    (hh : d[2 * j]? = some h) (hl : d[2 * j + 1]? = some l) :
    (m.writeBytes (2 * start) d).readWord (start + j) = some (be16 h l) := by
  obtain ⟨hj, rfl⟩ := List.getElem?_eq_some_iff.1 hh
  obtain ⟨hj', rfl⟩ := List.getElem?_eq_some_iff.1 hl
  have hhigh : 2 * (start + j) - 2 * start = 2 * j := by omega
  have hlow : 2 * (start + j) + 1 - 2 * start = 2 * j + 1 := by omega
  rw [Memory.readWord_eq_some, Memory.read_writeBytes, Memory.read_writeBytes, dif_pos (by omega),
    dif_pos (by omega)]
  simp [hhigh, hlow]

theorem Memory.read_writeBytes_outside (m : Memory) {a n : Nat} {d : List Byte} (h : n < a ∨ a + d.length ≤ n) :
    (m.writeBytes a d).read n = m.read n := by
  rw [Memory.read_writeBytes, dif_neg (by omega)]

/-- R117: setting valid bit k sets that bit and no other. -/
theorem getLsbD_setValid (v : BitVec 4) {k : Nat} (hk : k < 4) (j : Nat) :
    (v ||| (1#4 <<< k)).getLsbD j = (decide (j = k) || v.getLsbD j) := by
  have hbit : (1#4 <<< k).getLsbD j = decide (j = k) := by
    rw [← BitVec.twoPow_eq, BitVec.getLsbD_twoPow]
    simp [hk, eq_comm]
  rw [BitVec.getLsbD_or, hbit, Bool.or_comm]

/-! ## LOADSEG (R117) and DBCLR (R116) -/

/-- R45: the four segments of the poll cycle, as LOADSEG looks them up. -/
theorem segmentOf_of_mem {k : Byte} {start count : Word}
    (h : (k.toNat, start, count) ∈
      [(0, (0x0000 : Word), (0x0078 : Word)), (1, 0x0078, 0x0078), (2, 0x00F0, 0x0078), (3, 0x0168, 0x0007)]) :
    segmentOf k = some (start, count) := by
  simp only [List.mem_cons, Prod.mk.injEq, List.not_mem_nil, or_false] at h
  unfold segmentOf
  rcases h with ⟨hk, rfl, rfl⟩ | ⟨hk, rfl, rfl⟩ | ⟨hk, rfl, rfl⟩ | ⟨hk, rfl, rfl⟩ <;> rw [hk] <;> rfl

section
variable {k : Byte} {start count : Word} (hseg : segmentOf k = some (start, count))
  (hresp : s.hasResponse fnRead = true) (ha : s.req.a = start) (hb : s.req.b = count)
include hseg hresp ha hb

/-- R117: past the refusals, an error in reading the data is LOADSEG's error. -/
theorem exec_loadseg_of_error {e : ErrorCause} (h : readData s = .error e) :
    exec (.loadseg k) s = .next (s.endsInError e.code e) := by
  change execLoadseg k s = _
  simp [execLoadseg, hseg, hresp, ha, hb, h, raiseError_def, State.ended]

theorem exec_loadseg_of_wrongLength {d : List Byte} (h : readData s = .data d) (hd : d.length ≠ 2 * count.toNat) :
    exec (.loadseg k) s = .next (s.endsInError 0x34 .decodeSegLen) := by
  change execLoadseg k s = _
  simp [execLoadseg, hseg, hresp, ha, hb, h, hd, raiseError_def, ErrorCause.code, State.ended]

theorem exec_loadseg_of_data {d : List Byte} (h : readData s = .data d) (hd : d.length = 2 * count.toNat) :
    exec (.loadseg k) s = .next ((s.loadSegment k.toNat start d).endsNormally .none) := by
  change execLoadseg k s = _
  simp [execLoadseg, hseg, hresp, ha, hb, h, hd, finish_def, State.ended]

end

/-- Settles O24: the data bytes of the response are written from the segment's first register on, and only there. -/
theorem loadsegFillsItsSegment : Obligations.LoadsegFillsItsSegment := by
  intro s k start count hmem hok hfn ha hb hlen hcount
  have hseg := segmentOf_of_mem hmem
  have hresp : s.hasResponse fnRead = true := hasResponse_eq_true.2 ⟨hok, hfn⟩
  have hmax := s.rxb[2].isLt
  have hdata : readData s = .data s.dataBytes := readData_of_count hresp (by omega) (by omega)
  obtain ⟨i, hi, hsegment⟩ := segmentOf_eq_some hseg
  have hsize : count.toNat ≤ 0x78 := by
    have hall : ∀ i : Fin 4, (segments[i]).2.toNat ≤ 0x78 := by decide
    simpa only [hsegment] using hall i
  have hlength : s.dataBytes.length = 2 * count.toNat := hcount ▸ length_dataBytes (by omega)
  refine ⟨_, exec_loadseg_of_data hseg hresp ha hb hdata hlength, rfl, fun j hj hlt => ?_, fun n hn => ?_,
    getLsbD_setValid s.dbv (hi ▸ i.isLt)⟩
  · exact Memory.readWord_writeBytes s.db start.toNat (getElem?_dataBytes (by omega) (by omega))
      (getElem?_dataBytes hj (by omega))
  · exact Memory.read_writeBytes_outside s.db (by omega)

/-- Settles O25: each error is raised on the state as it is, before the segment is written. -/
theorem loadsegErrorsWriteNothing : Obligations.LoadsegErrorsWriteNothing := by
  intro s k start count hmem hok hfn ha hb
  have hseg := segmentOf_of_mem hmem
  have hresp : s.hasResponse fnRead = true := hasResponse_eq_true.2 ⟨hok, hfn⟩
  refine ⟨fun hlen => exec_loadseg_of_error hseg hresp ha hb (readData_of_short hresp hlen),
    fun hlen hcount => exec_loadseg_of_error hseg hresp ha hb (readData_of_miscount hresp hlen hcount),
    fun hlen hmax hcount hwrong => ?_⟩
  have hlength : s.dataBytes.length = s.rxb[2].toNat := length_dataBytes (by omega)
  exact exec_loadseg_of_wrongLength hseg hresp ha hb (readData_of_count hresp hlen hcount) (hlength ▸ hwrong)

theorem exec_dbclr (s : State) : exec .dbclr s = .next (s.clearDecode.endsNormally .none) := rfl

/-- Settles O23: with no valid bit set, XWORD and FIELD are refused before they read a byte. -/
theorem dbclrMakesTheBufferUnreadable : Obligations.DbclrMakesTheBufferUnreadable := by
  intro s
  have hdbv : (s.clearDecode.endsNormally .none).dbv ≠ 0xF#4 := show 0#4 ≠ 0xF#4 by decide
  exact ⟨_, exec_dbclr s, rfl, fun a f => ⟨xword_refused hdbv a, field_refused hdbv a f⟩⟩

/-! ## XWORD (R119) -/

/-- R45, R46: the four segments cover the decode buffer. -/
theorem exists_segment_of_lt {n : Nat} (h : n < 2 * dbRegs) :
    ∃ (k : Fin 4) (i : Nat), i < 2 * (segments[k]).2.toNat ∧ n = 2 * (segments[k]).1.toNat + i := by
  have hn : n < 734 := h
  by_cases h0 : n < 240
  · exact ⟨0, n, h0, (Nat.zero_add n).symm⟩
  by_cases h1 : n < 480
  · exact ⟨1, n - 240, show n - 240 < 240 by omega, show n = 240 + (n - 240) by omega⟩
  by_cases h2 : n < 720
  · exact ⟨2, n - 480, show n - 480 < 240 by omega, show n = 480 + (n - 480) by omega⟩
  · exact ⟨3, n - 720, show n - 720 < 14 by omega, show n = 720 + (n - 720) by omega⟩

/-- R19, R119: once all four segments are loaded, every byte of the decode buffer has a value. -/
theorem State.Inv.exists_read (h : s.Inv) (hdbv : s.dbv = 0xF#4) {n : Nat} (hn : n < 2 * dbRegs) :
    ∃ b, s.db.read n = some b := by
  obtain ⟨-, -, -, -, -, -, hloaded, -⟩ := h
  obtain ⟨k, i, hi, rfl⟩ := exists_segment_of_lt hn
  have hbits : ∀ k : Fin 4, (0xF#4).getLsbD k = true := by decide
  exact Option.isSome_iff_exists.1 (hloaded k (hdbv ▸ hbits k) i hi)

theorem State.Inv.exists_readWord (h : s.Inv) (hdbv : s.dbv = 0xF#4) {a : Nat} (ha : a < dbRegs) :
    ∃ w, s.db.readWord a = some w := by
  obtain ⟨hi, hhi⟩ := h.exists_read hdbv (n := 2 * a) (by omega)
  obtain ⟨lo, hlo⟩ := h.exists_read hdbv (n := 2 * a + 1) (by omega)
  exact ⟨be16 hi lo, Memory.readWord_eq_some.2 (by simp [hhi, hlo])⟩

theorem exec_xword_of_word {a w : Word} (hdbv : s.dbv = 0xF#4) (ha : a.toNat ≤ 0x016E)
    (hw : s.db.readWord a.toNat = some w) : exec (.xword a) s = .next (s.endsNormally (.word w)) :=
  andThen_eq_next.2 ⟨w, decodeWord_eq_next.2 ⟨hdbv, ha, hw⟩, rfl⟩

/-- Settles O26: the invariant makes the valid bits truthful, and the segments cover the buffer. -/
theorem xwordReadsALoadedRegister : Obligations.XwordReadsALoadedRegister := by
  intro s a hinv hdbv ha
  obtain ⟨w, hw⟩ := hinv.exists_readWord hdbv (Nat.lt_succ_of_le ha)
  obtain ⟨hhi, hlo⟩ := Memory.readWord_eq_some.1 hw
  exact ⟨w, hi8 w, lo8 w, hhi, hlo, (be16_hi8_lo8 w).symm, exec_xword_of_word hdbv ha hw⟩

end Sys2Proof.Machine

namespace Sys2Proof.Machine

variable {s t : State}

/-! ## The hex view (R118, R120) -/

/-- Where every element of a list gives two, element n begins at index 2n. -/
theorem drop_two_mul_flatMap {α β : Type} {f : α → List β} (hf : ∀ x, (f x).length = 2) (n : Nat) (l : List α) :
    (l.flatMap f).drop (2 * n) = (l.drop n).flatMap f := by
  induction n generalizing l with
  | zero => rfl
  | succ n ih =>
    cases l with
    | nil => simp
    | cons x l =>
      rw [List.flatMap_cons, List.drop_succ_cons, ← ih, Nat.mul_succ, Nat.add_comm, ← hf x,
        List.drop_length_add_append]

theorem length_flatMap_of_length_two {α β : Type} {f : α → List β} (hf : ∀ x, (f x).length = 2) (l : List α) :
    (l.flatMap f).length = 2 * l.length := by
  simp [List.length_flatMap, hf, Nat.mul_comm]

/-- R37: the bytes of a run of words, each high byte first. -/
def wordBytes (ws : List Word) : List Byte := ws.flatMap fun w => [hi8 w, lo8 w]

theorem length_wordBytes (ws : List Word) : (wordBytes ws).length = 2 * ws.length :=
  length_flatMap_of_length_two (fun _ => rfl) ws

/-- R118: register a of a payload of words is word a. -/
theorem xwordBytes_wordBytes {ws : List Word} {a : Nat} {w : Word} (h : ws[a]? = some w) :
    xwordBytes (wordBytes ws) a = some w := by
  obtain ⟨ha, rfl⟩ := List.getElem?_eq_some_iff.1 h
  unfold xwordBytes wordBytes
  rw [drop_two_mul_flatMap fun _ => rfl, List.drop_eq_getElem_cons ha]
  exact congrArg some (be16_hi8_lo8 _)

theorem xwordBytes_eq_some {p : List Byte} {a : Nat} {w : Word} (h : xwordBytes p a = some w) :
    ∃ rest, p.drop (2 * a) = hi8 w :: lo8 w :: rest := by
  unfold xwordBytes at h
  split at h
  · next hi lo rest hdrop =>
    obtain rfl := Option.some.inj h
    exact ⟨rest, by rw [hdrop, hi8_be16, lo8_be16]⟩
  · cases h

theorem exists_xwordBytes {p : List Byte} {a : Nat} (h : 2 * a + 2 ≤ p.length) : ∃ w, xwordBytes p a = some w := by
  unfold xwordBytes
  rw [List.drop_eq_getElem_cons (by omega), List.drop_eq_getElem_cons (by omega)]
  exact ⟨_, rfl⟩

theorem length_hexOf (p : List Byte) : (hexOf p).length = 2 * p.length :=
  length_flatMap_of_length_two (fun _ => rfl) p

theorem hexDigit?_hexDigit {n : Nat} (h : n < 16) : hexDigit? (hexDigit n) = some n := by
  interval_cases n <;> decide

theorem hexDigit?_toUpper_hexDigit {n : Nat} (h : n < 16) : hexDigit? (hexDigit n).toUpper = some n := by
  interval_cases n <;> decide

/-- R118: the two functions agree, in whatever digits the payload is written, as long as each is read back. -/
theorem xwordHex_map_hexOf {p : List Byte} {a : Nat} {w : Word} (h : xwordBytes p a = some w) (digits : Char → Char)
    (hdigits : ∀ n < 16, hexDigit? (digits (hexDigit n)) = some n) :
    xwordHex ((hexOf p).map digits) a = some w.toNat := by
  obtain ⟨rest, hrest⟩ := xwordBytes_eq_some h
  have hchars : (hexOf p).drop (4 * a) =
      [hexDigit ((hi8 w).toNat / 16), hexDigit ((hi8 w).toNat % 16), hexDigit ((lo8 w).toNat / 16),
        hexDigit ((lo8 w).toNat % 16)] ++ hexOf rest := by
    rw [show 4 * a = 2 * (2 * a) by omega, hexOf, drop_two_mul_flatMap fun _ => rfl, hrest]
    rfl
  have hhi := (hi8 w).isLt
  have hlo := (lo8 w).isLt
  have hw : w.toNat = 256 * (hi8 w).toNat + (lo8 w).toNat := by rw [← toNat_be16, be16_hi8_lo8]
  unfold xwordHex
  rw [← List.map_drop, hchars]
  simp only [List.cons_append, List.nil_append, List.map_cons, hdigits _ (Nat.mod_lt _ (by decide : 0 < 16)),
    hdigits ((hi8 w).toNat / 16) (by omega), hdigits ((lo8 w).toNat / 16) (by omega)]
  exact congrArg some (by omega)

theorem xwordHex_hexOf {p : List Byte} {a : Nat} {w : Word} (h : xwordBytes p a = some w) :
    xwordHex (hexOf p) a = some w.toNat := by
  simpa using xwordHex_map_hexOf h id fun _ => hexDigit?_hexDigit

/-- Reading a whole list succeeds exactly when every element is read. -/
theorem mapM_eq_some_iff {α β : Type} {f : α → Option β} {l : List α} {bs : List β} :
    l.mapM f = some bs ↔ l.map f = bs.map some := by
  induction l generalizing bs with
  | nil => cases bs <;> simp
  | cons x l ih =>
    cases bs with
    | nil => simp [List.mapM_cons, Option.bind_eq_some_iff]
    | cons b bs => simp [List.mapM_cons, Option.bind_eq_some_iff, ih]

/-- R120: the hex view is the digits of the words of all registers, and there is one when all have a value. -/
theorem hexView_eq_some {h : List Char} :
    hexView s = some h ↔ ∃ ws, (List.range dbRegs).map s.db.readWord = ws.map some ∧ h = hexOf (wordBytes ws) := by
  unfold hexView
  simp only [Option.map_eq_some_iff, mapM_eq_some_iff]
  exact exists_congr fun _ => and_congr_right fun _ => eq_comm

/-- R120: in a state the block reaches, once all segments are loaded, there is a hex view. -/
theorem State.Inv.exists_hexView (h : s.Inv) (hdbv : s.dbv = 0xF#4) : ∃ v, hexView s = some v := by
  have hwords : (List.range dbRegs).map s.db.readWord =
      ((List.range dbRegs).map fun a => (s.db.readWord a).getD 0).map some := by
    rw [List.map_map]
    refine List.map_congr_left fun a ha => ?_
    obtain ⟨w, hw⟩ := h.exists_readWord hdbv (List.mem_range.1 ha)
    simp [hw]
  exact ⟨_, hexView_eq_some.2 ⟨_, hwords, rfl⟩⟩

/-- Settles O27: the hex view is the digits of the words that XWORD reads, and digits are read back. -/
theorem xwordIsTheFourHexCharacters : Obligations.XwordIsTheFourHexCharacters := by
  refine ⟨fun s h a hdbv hview ha => ?_, fun s hinv hdbv => hinv.exists_hexView hdbv, fun p a hp => ?_⟩
  · obtain ⟨ws, hwords, rfl⟩ := hexView_eq_some.1 hview
    have hlength : ws.length = 367 := by simpa [dbRegs] using (congrArg List.length hwords).symm
    obtain ⟨w, hw⟩ : ∃ w, ws[a.toNat]? = some w := ⟨_, List.getElem?_eq_getElem (by omega)⟩
    have hread : s.db.readWord a.toNat = some w := by
      have ha' : a.toNat < dbRegs := Nat.lt_succ_of_le ha
      simpa [hw, ha'] using congrArg (fun l => l[a.toNat]?) hwords
    exact ⟨by rw [length_hexOf, length_wordBytes, hlength], w, exec_xword_of_word hdbv ha hread,
      xwordHex_hexOf (xwordBytes_wordBytes hw), Memory.readWord_eq_some.1 hread⟩
  · obtain ⟨w, hw⟩ := exists_xwordBytes hp
    exact ⟨w, hw, xwordHex_hexOf hw, xwordHex_map_hexOf hw Char.toUpper fun _ => hexDigit?_toUpper_hexDigit⟩

end Sys2Proof.Machine

namespace Sys2Proof.Machine

variable {s t : State}

/-! ## Rounding to one decimal (R123) -/

/-- R123: whatever the tie rule, round1 gives a multiple of 1/10 at most 1/20 away. -/
theorem round1_nearest (x : Rat) : ∃ k : Int, round1 x = k / 10 ∧ |round1 x - x| ≤ 1 / 20 := by
  have hle := Int.floor_le (10 * x)
  have hlt := Int.lt_floor_add_one (10 * x)
  have hlower : 10 * x - ⌊10 * x⌋ ≤ 1 / 2 → |(⌊10 * x⌋ : Rat) / 10 - x| ≤ 1 / 20 := fun h => by
    rw [abs_le]; constructor <;> linarith
  have hupper : 1 / 2 ≤ 10 * x - ⌊10 * x⌋ → |((⌊10 * x⌋ : Rat) + 1) / 10 - x| ≤ 1 / 20 := fun h => by
    rw [abs_le]; constructor <;> linarith
  unfold round1
  dsimp only
  split
  · next h => exact ⟨⌊10 * x⌋, rfl, hlower h.le⟩
  · next h =>
    split
    · next h' => exact ⟨⌊10 * x⌋ + 1, by push_cast; rfl, hupper h'.le⟩
    · next h' =>
      split
      · exact ⟨⌊10 * x⌋ + 1, by push_cast; rfl, hupper (not_lt.1 h)⟩
      · exact ⟨⌊10 * x⌋, rfl, hlower (not_lt.1 h')⟩

/-- Rounding goes below no tenth that its argument has reached. -/
theorem tenth_le_round1 {x : Rat} {k : Int} (h : (k : Rat) / 10 ≤ x) : (k : Rat) / 10 ≤ round1 x := by
  obtain ⟨m, hm, hnear⟩ := round1_nearest x
  rw [hm, abs_le] at hnear
  have hlt : (k : Rat) < m + 1 := by linarith
  have hkm : (k : Rat) ≤ m := by exact_mod_cast Int.lt_add_one_iff.1 (by exact_mod_cast hlt)
  rw [hm]
  linarith

theorem round1_le_tenth {x : Rat} {k : Int} (h : x ≤ (k : Rat) / 10) : round1 x ≤ (k : Rat) / 10 := by
  obtain ⟨m, hm, hnear⟩ := round1_nearest x
  rw [hm, abs_le] at hnear
  have hlt : (m : Rat) < k + 1 := by linarith
  have hmk : (m : Rat) ≤ k := by exact_mod_cast Int.lt_add_one_iff.1 (by exact_mod_cast hlt)
  rw [hm]
  linarith

theorem round1_tenth (k : Int) : round1 (k / 10) = k / 10 :=
  le_antisymm (round1_le_tenth le_rfl) (tenth_le_round1 le_rfl)

/-- R123: with a factor of whole tenths the product of an integer is exact, and rounding changes nothing. -/
theorem round1_mul_tenths {f : Rat} {m : Int} (hf : f = m / 10) (k : Int) : round1 (k * f) = k * f := by
  have hprod : (k : Rat) * f = ((k * m : Int) : Rat) / 10 := by rw [hf]; push_cast; ring
  rw [hprod, round1_tenth]

/-- Settles O29: the nearest tenth of a multiple of 1/10 is itself, and 0.1 and 0.5 are whole tenths. -/
theorem round1IsANearestTenth : Obligations.Round1IsANearestTenth := by
  refine ⟨fun x => ?_, round1_tenth, fun raw => ⟨?_, ?_⟩⟩
  · obtain ⟨k, hk, hnear⟩ := round1_nearest x
    exact ⟨⟨k, hk⟩, hnear⟩
  · exact round1_mul_tenths (m := 1) (by norm_num) raw.toNat
  · exact round1_mul_tenths (m := 5) (by norm_num) raw.toNat

/-! ## SCALE (R121) and GETBIT (R127) -/

theorem exec_scale_of_nonneg {f : Rat} (hf : 0 ≤ f) (raw : Word) (s : State) :
    exec (.scale raw f) s = .next (s.endsNormally (.num (scaleNum raw f))) :=
  andThen_eq_next.2 ⟨_, scaleOrRefuse_eq_next.2 ⟨hf, rfl⟩, rfl⟩

theorem exec_scale_of_neg {f : Rat} (hf : f < 0) (raw : Word) (s : State) :
    exec (.scale raw f) s = .refused .negativeFactor :=
  andThen_eq_refused.2 (.inl (if_pos hf))

/-- R121: word 0 scales to 0 whatever the factor; only the printed form differs. -/
theorem val_scaleNum_zero_word (f : Rat) : (scaleNum 0 f).val = 0 := by
  by_cases hf : f = 0
  · subst hf
    rfl
  · have hround : round1 0 = 0 := by simpa using round1_tenth 0
    simp [scaleNum, hf, hround]

/-- Settles O28: one clause for each sign of the factor; word 0 and factor 1 follow from the exact product. -/
theorem scaleRoundsTheExactProduct : Obligations.ScaleRoundsTheExactProduct := by
  refine ⟨fun _ _ => rfl, fun raw s => exec_scale_of_nonneg le_rfl raw s, fun raw f s hf => ?_,
    fun raw f s hf => exec_scale_of_neg hf raw s, fun f s hf => ⟨(scaleNum 0 f).form, ?_⟩, fun raw s => ?_⟩
  · rw [exec_scale_of_nonneg hf.le, scaleNum_of_pos raw hf]
  · rw [exec_scale_of_nonneg hf, ← val_scaleNum_zero_word f]
  · have hexact : round1 ((raw.toNat : Rat) * 1) = raw.toNat * 1 :=
      round1_mul_tenths (m := 10) (by norm_num) raw.toNat
    rw [exec_scale_of_nonneg zero_le_one, scaleNum_of_pos raw one_pos, hexact, mul_one]

theorem exec_getbit (w : Option Word) (i : Byte) (s : State) :
    exec (.getbit w i) s = .next (s.endsNormally (.bit (getBit w i))) := rfl

theorem getBit_of_lt (w : Word) {i : Byte} (hi : 15 < i.toNat) : getBit (some w) i = false :=
  BitVec.getLsbD_of_ge w i.toNat hi

/-- R127: bit i is what a shift by i and a mask leave. -/
theorem getBit_eq_shift_mask (w : Word) (i : Byte) :
    getBit (some w) i = decide ((w >>> i.toNat) &&& 1#16 = 1#16) := by
  rw [Bool.eq_iff_iff, decide_eq_true_iff, BitVec.and_one_eq_setWidth_ofBool_getLsbD, BitVec.getLsbD_ushiftRight,
    Nat.add_zero]
  change w.getLsbD i.toNat = true ↔ _
  cases w.getLsbD i.toNat <;> decide

/-- Settles O31: the absent word and an index above 15 have no bit set; the other bits are read by shift and mask. -/
theorem getbitExtractsOneBit : Obligations.GetbitExtractsOneBit := by
  refine ⟨fun _ _ => rfl, fun i s => exec_getbit none i s, fun w i s hi => ?_, fun w i s _ => ?_,
    fun s => exec_getbit _ 4 s, fun s => exec_getbit _ 3 s⟩
  · rw [exec_getbit, getBit_of_lt w hi]
  · rw [exec_getbit, getBit_eq_shift_mask]

/-! ## The wraparounds (R125, R130) -/

theorem exec_wrap (v : Number) (s : State) :
    exec (.wrap v) s = .next (s.endsNormally (.num (wrapAbove 65280 v))) := rfl

theorem exec_wrap65k (v : Number) (s : State) :
    exec (.wrap65k v) s = .next (s.endsNormally (.num (wrapAbove 65000 v))) := rfl

/-- R125: what the generic wraparound makes of a word as an integer. -/
def wrappedWord (raw : Word) : Int := if 65280 < raw.toNat then raw.toNat - 65535 else raw.toNat

theorem wrapAbove_word (raw : Word) (form : NumForm) :
    wrapAbove 65280 ⟨(raw.toNat : Rat), form⟩ = ⟨(wrappedWord raw : Rat), form⟩ := by
  unfold wrappedWord
  split
  · next h =>
    have habove : (65280 : Rat) < raw.toNat := by exact_mod_cast h
    rw [wrapAbove_of_lt habove]
    push_cast
    rfl
  · next h =>
    have hbelow : (raw.toNat : Rat) ≤ 65280 := by exact_mod_cast not_lt.1 h
    rw [wrapAbove_of_le hbelow]
    push_cast
    rfl

theorem wrappedWord_bounds (raw : Word) : -254 ≤ wrappedWord raw ∧ wrappedWord raw ≤ 65280 := by
  unfold wrappedWord
  split <;> omega

/-- Settles O30: both sides of the threshold, and on a word the integer `wrappedWord`. -/
theorem wrapSubtractsAboveTheSentinel : Obligations.WrapSubtractsAboveTheSentinel := by
  refine ⟨fun _ => rfl, fun v s h => ?_, fun v s h => ?_, fun raw s =>
    ⟨wrappedWord raw, ?_, (wrappedWord_bounds raw).1, (wrappedWord_bounds raw).2, ?_, ?_⟩⟩
  · rw [exec_wrap, wrapAbove_of_lt h]
  · rw [exec_wrap, wrapAbove_of_le h]
  · rw [exec_wrap, wrapAbove_word]
  · unfold wrappedWord
    split <;> bv_omega
  · unfold wrappedWord
    split <;> omega

/-- R130: a number that the generic wraparound takes down from above 65280 is above 65000 too, and lands below it. -/
theorem wrapAbove_wrapAbove {v : Number} (h : v.val ≤ 65535) :
    wrapAbove 65000 (wrapAbove 65280 v) = wrapAbove 65000 v := by
  by_cases hv : 65280 < v.val
  · have hlow : (⟨v.val - 65535, v.form⟩ : Number).val ≤ 65000 := by
      change v.val - 65535 ≤ 65000
      linarith
    rw [wrapAbove_of_lt hv, wrapAbove_of_le hlow, wrapAbove_of_lt (by linarith)]
  · rw [wrapAbove_of_le (not_lt.1 hv)]

theorem word_le_max (raw : Word) : (raw.toNat : Rat) ≤ 65535 := by
  exact_mod_cast Nat.le_of_lt_succ raw.isLt

/-- Settles O34: both sides of the threshold, and on a word the generic wraparound before it changes nothing. -/
theorem wrap65kUsesItsOwnThreshold : Obligations.Wrap65kUsesItsOwnThreshold := by
  refine ⟨fun _ => rfl, fun v s h => ?_, fun v s h => ?_, fun raw s t u w hwrap hw h65k => ?_⟩
  · rw [exec_wrap65k, wrapAbove_of_lt h]
  · rw [exec_wrap65k, wrapAbove_of_le h]
  · rw [exec_wrap] at hwrap
    cases hwrap
    cases hw
    rwa [exec_wrap65k, wrapAbove_wrapAbove (word_le_max raw)] at h65k

/-! ## FIELD and the corrections of its value (R128 to R132) -/

/-- Settles O32: FIELD goes through the same three values as XWORD, SCALE and WRAP. -/
theorem fieldExtractsScalesThenWraps : Obligations.FieldExtractsScalesThenWraps := by
  intro s a f hinv hdbv ha hf
  obtain ⟨w, hw⟩ := hinv.exists_readWord hdbv (Nat.lt_succ_of_le ha)
  have hfield : exec (.field a f) s = .next (s.endsNormally (.num (wrapAbove 65280 (scaleNum w f)))) :=
    andThen_eq_next.2 ⟨w, decodeWord_eq_next.2 ⟨hdbv, ha, hw⟩,
      andThen_eq_next.2 ⟨_, scaleOrRefuse_eq_next.2 ⟨hf, rfl⟩, rfl⟩⟩
  exact ⟨w, scaleNum w f, _, _, _, exec_xword_of_word hdbv ha hw, rfl, exec_scale_of_nonneg hf w _, rfl,
    exec_wrap _ _, hfield, rfl⟩

/-- R128: what FIELD gives is the wrapped and scaled word of its register. -/
theorem field_value {a : Word} {f : Rat} {v : Number} (h : exec (.field a f) s = .next t) (hv : t.result = .num v) :
    ∃ w, s.db.readWord a.toNat = some w ∧ v = wrapAbove 65280 (scaleNum w f) := by
  obtain ⟨w, hw, hscaled⟩ := andThen_eq_next.1 h
  obtain ⟨x, hx, hfinish⟩ := andThen_eq_next.1 hscaled
  obtain ⟨-, -, hread⟩ := decodeWord_eq_next.1 hw
  obtain ⟨-, rfl⟩ := scaleOrRefuse_eq_next.1 hx
  obtain rfl := finish_eq_next.1 hfinish
  cases hv
  exact ⟨w, hread, rfl⟩

/-- R129: a word times a factor of at most 65280/65535 does not pass the sentinel threshold. -/
theorem word_mul_le_sentinel (w : Word) {f : Rat} (hpos : 0 < f) (hf : f ≤ 65280 / 65535) :
    (w.toNat : Rat) * f ≤ 65280 := by
  calc (w.toNat : Rat) * f ≤ 65535 * (65280 / 65535) := by
        gcongr
        exact word_le_max w
    _ = 65280 := by norm_num

/-- Settles O33: the rounded product stays between the tenths 0 and 65280; an unscaled word wraps as `wrappedWord`. -/
theorem smallFactorsNeverWrap : Obligations.SmallFactorsNeverWrap := by
  intro s t a f v hfield hv
  obtain ⟨w, hw, rfl⟩ := field_value hfield hv
  constructor
  · intro hpos hf
    have hlower : 0 ≤ round1 ((w.toNat : Rat) * f) := by
      simpa using tenth_le_round1 (k := 0) (x := (w.toNat : Rat) * f) (by norm_num; positivity)
    have hupper : round1 ((w.toNat : Rat) * f) ≤ 65280 := by
      have hbound := word_mul_le_sentinel w hpos hf
      linarith [round1_le_tenth (k := 652800) (x := (w.toNat : Rat) * f) (by norm_num; exact hbound)]
    rw [scaleNum_of_pos w hpos, wrapAbove_of_le hupper]
    exact ⟨w, hw, rfl, hlower, hupper⟩
  · rintro rfl
    rw [scaleNum_zero, wrapAbove_word]
    change (-254 : Rat) ≤ wrappedWord w ∧ (wrappedWord w : Rat) ≤ 65280
    exact_mod_cast wrappedWord_bounds w

theorem exec_ambfix (v : Number) (s : State) :
    exec (.ambfix v) s = .next (s.endsNormally (.num (rewrap 2 (1 / 2) v))) := rfl

theorem exec_lpfix (v : Number) (s : State) :
    exec (.lpfix v) s = .next (s.endsNormally (.num (rewrap 10 (1 / 10) v))) := rfl

/-- R131, R132: with a factor 1/n of whole tenths, a word decodes to its exact n-th, which no wraparound touches, and
re-wrapping it gives an exact n-th again. -/
theorem rewrap_field_value {n : Rat} {m : Int} (hn : 2 ≤ n) (hm : 1 / n = m / 10) (raw : Word) :
    rewrap n (1 / n) (wrapAbove 65280 (scaleNum raw (1 / n))) =
      ⟨if 65000 < raw.toNat then ((raw.toNat : Rat) - 65535) / n else (raw.toNat : Rat) / n, .oneDecimal⟩ := by
  have hpos : 0 < n := by linarith
  have hscaled : scaleNum raw (1 / n) = ⟨raw.toNat / n, .oneDecimal⟩ := by
    have hexact : round1 ((raw.toNat : Rat) * (1 / n)) = raw.toNat * (1 / n) := round1_mul_tenths hm raw.toNat
    rw [scaleNum_of_pos raw (by positivity), hexact, mul_one_div]
  have hsmall : (raw.toNat : Rat) / n ≤ 65280 := by
    rw [div_le_iff₀ hpos]
    linarith [word_le_max raw]
  have hback : (raw.toNat : Rat) / n * n = raw.toNat := div_mul_cancel₀ _ hpos.ne'
  rw [hscaled, wrapAbove_of_le hsmall]
  split
  · next h =>
    have hexact : round1 (((raw.toNat : Rat) - 65535) * (1 / n)) = (raw.toNat - 65535) * (1 / n) := by
      exact_mod_cast round1_mul_tenths hm (raw.toNat - 65535)
    have habove : (65000 : Rat) < raw.toNat / n * n := by rw [hback]; exact_mod_cast h
    rw [rewrap_of_lt habove, hback, hexact, mul_one_div]
  · next h =>
    have hbelow : (raw.toNat : Rat) / n * n ≤ 65000 := by rw [hback]; exact_mod_cast not_lt.1 h
    rw [rewrap_of_le hbelow]

/-- Settles O35: AMBFIX is `rewrap` by 2, and 1/2 is five tenths. -/
theorem ambfixRewrapsTheDoubledValue : Obligations.AmbfixRewrapsTheDoubledValue := by
  refine ⟨fun _ => rfl, fun v s h => ?_, fun v s h => ?_, fun s t u a raw v hfield hv hraw hfix => ?_⟩
  · rw [exec_ambfix, rewrap_of_lt h]
  · rw [exec_ambfix, rewrap_of_le h]
  · obtain ⟨w, hw, rfl⟩ := field_value hfield hv
    obtain rfl := Option.some.inj (hw.symm.trans hraw)
    rw [exec_ambfix, rewrap_field_value le_rfl (m := 5) (by norm_num)] at hfix
    cases hfix
    rfl

/-- Settles O36: LPFIX is `rewrap` by 10, and 1/10 is one tenth. -/
theorem lpfixRewrapsTenTimesTheValue : Obligations.LpfixRewrapsTenTimesTheValue := by
  refine ⟨fun _ => rfl, fun v s h => ?_, fun v s h => ?_, fun s t u a raw v hfield hv hraw hfix => ?_⟩
  · rw [exec_lpfix, rewrap_of_lt h]
  · rw [exec_lpfix, rewrap_of_le h]
  · obtain ⟨w, hw, rfl⟩ := field_value hfield hv
    obtain rfl := Option.some.inj (hw.symm.trans hraw)
    rw [exec_lpfix, rewrap_field_value (by norm_num) (m := 1) (by norm_num)] at hfix
    cases hfix
    rfl

end Sys2Proof.Machine

namespace Sys2Proof.Machine

/-! ## The two operations of the flag unit, bit by bit (R140, R141) -/

@[simp] theorem getBit_some (w : Word) (i : Byte) : getBit (some w) i = w.getLsbD i.toNat := rfl

/-- R9: the word 1 shifted left by i has the one bit i. -/
theorem getLsbD_bitMask (i : Byte) {n : Nat} (hn : n < 16) :
    (1#16 <<< i.toNat).getLsbD n = decide (i.toNat = n) := by
  rw [← BitVec.twoPow_eq, BitVec.getLsbD_twoPow]
  by_cases hin : i.toNat = n
  · simp [hin, hn]
  · simp [hin]

/-- R140: SETBIT makes bit i true and leaves the 15 others. -/
theorem getLsbD_setBit (w : Word) (i : Byte) {n : Nat} (hn : n < 16) :
    (setBit w i).getLsbD n = (decide (i.toNat = n) || w.getLsbD n) := by
  rw [setBit, BitVec.getLsbD_or, getLsbD_bitMask i hn, Bool.or_comm]

/-- R141: CLRBIT makes bit i false and leaves the 15 others. -/
theorem getLsbD_clrBit (w : Word) (i : Byte) {n : Nat} (hn : n < 16) :
    (clrBit w i).getLsbD n = (!decide (i.toNat = n) && w.getLsbD n) := by
  rw [clrBit, BitVec.getLsbD_and, BitVec.getLsbD_not, getLsbD_bitMask i hn, decide_eq_true hn, Bool.true_and,
    Bool.and_comm]

/-- R140: setting a bit already set changes nothing. -/
theorem setBit_of_set {w : Word} {i : Byte} (h : w.getLsbD i.toNat = true) : setBit w i = w := by
  refine BitVec.eq_of_getLsbD_eq fun n hn => ?_
  rw [getLsbD_setBit w i hn]
  by_cases hin : i.toNat = n
  · simp [← hin, h]
  · simp [hin]

/-- R141: clearing a bit already clear changes nothing. -/
theorem clrBit_of_clear {w : Word} {i : Byte} (h : w.getLsbD i.toNat = false) : clrBit w i = w := by
  refine BitVec.eq_of_getLsbD_eq fun n hn => ?_
  rw [getLsbD_clrBit w i hn]
  by_cases hin : i.toNat = n
  · simp [← hin, h]
  · simp [hin]

/-! ## The laws of the two operations (R143) -/

variable (w : Word) (i j : Byte)

/-- R143 (a). -/
theorem getBit_setBit (hj : j.toNat ≤ 15) :
    getBit (some (setBit w i)) j = if j = i then true else getBit (some w) j := by
  rw [getBit_some, getLsbD_setBit w i (Nat.lt_succ_of_le hj)]
  split
  · next h => simp [h]
  · next h => simp [BitVec.toNat_inj, Ne.symm h]

/-- R143 (b). -/
theorem getBit_clrBit (hj : j.toNat ≤ 15) :
    getBit (some (clrBit w i)) j = if j = i then false else getBit (some w) j := by
  rw [getBit_some, getLsbD_clrBit w i (Nat.lt_succ_of_le hj)]
  split
  · next h => simp [h]
  · next h => simp [BitVec.toNat_inj, Ne.symm h]

/-- R143 (c). -/
theorem setBit_setBit_same (hi : i.toNat ≤ 15) : setBit (setBit w i) i = setBit w i :=
  setBit_of_set (by simpa using getBit_setBit w i i hi)

/-- R143 (c). -/
theorem clrBit_clrBit_same (hi : i.toNat ≤ 15) : clrBit (clrBit w i) i = clrBit w i :=
  clrBit_of_clear (by simpa using getBit_clrBit w i i hi)

/-- R143 (d): two settings are two disjunctions, in either order. -/
theorem setBit_comm : setBit (setBit w i) j = setBit (setBit w j) i := by
  simp only [setBit, BitVec.or_assoc, BitVec.or_comm (1#16 <<< i.toNat)]

/-- R143 (d): two clearings are two conjunctions, in either order. -/
theorem clrBit_comm : clrBit (clrBit w i) j = clrBit (clrBit w j) i := by
  simp only [clrBit, BitVec.and_assoc, BitVec.and_comm (~~~(1#16 <<< i.toNat))]

/-- R143 (d): no bit is both the one set and the one cleared, so at each bit at most one operation acts. -/
theorem setBit_clrBit_comm (hij : i ≠ j) : setBit (clrBit w i) j = clrBit (setBit w j) i := by
  refine BitVec.eq_of_getLsbD_eq fun n hn => ?_
  rw [getLsbD_setBit _ j hn, getLsbD_clrBit w i hn, getLsbD_clrBit _ i hn, getLsbD_setBit w j hn]
  by_cases hin : i.toNat = n
  · have hjn : j.toNat ≠ n := fun h => hij (BitVec.eq_of_toNat_eq (hin.trans h.symm))
    simp [hjn]
  · simp [hin]

/-- R143 (e): bit i is clear either way, and no other bit is touched. -/
theorem clrBit_setBit_same : clrBit (setBit w i) i = clrBit w i := by
  refine BitVec.eq_of_getLsbD_eq fun n hn => ?_
  rw [getLsbD_clrBit _ i hn, getLsbD_setBit w i hn, getLsbD_clrBit w i hn]
  by_cases hin : i.toNat = n <;> simp [hin]

/-- R143 (e): bit i is set either way, and no other bit is touched. -/
theorem setBit_clrBit_same : setBit (clrBit w i) i = setBit w i := by
  refine BitVec.eq_of_getLsbD_eq fun n hn => ?_
  rw [getLsbD_setBit _ i hn, getLsbD_clrBit w i hn, getLsbD_setBit w i hn]
  by_cases hin : i.toNat = n <;> simp [hin]

/-- Settles O39: (a) and (b) read one bit back; the others are equalities of words. -/
theorem flagLaws : Obligations.FlagLaws := by
  intro w i j hi hj
  exact ⟨getBit_setBit w i j hj, getBit_clrBit w i j hj, setBit_setBit_same w i hi, clrBit_clrBit_same w i hi,
    fun hij => ⟨setBit_comm w i j, clrBit_comm w i j, setBit_clrBit_comm w i j hij⟩,
    clrBit_setBit_same w i, setBit_clrBit_same w i⟩

/-! ## SETBIT and CLRBIT as instructions (R140, R141) -/

theorem withBit_of_lt {i : Byte} (hi : 15 < i.toNat) (r : Result) (s : State) :
    withBit i r s = .refused .noSuchBit := if_pos hi

theorem withBit_of_le {i : Byte} (hi : i.toNat ≤ 15) (r : Result) (s : State) :
    withBit i r s = .next (s.endsNormally r) := if_neg (Nat.not_lt.2 hi)

theorem exec_setbit (w : Word) (i : Byte) (s : State) : exec (.setbit w i) s = withBit i (.word (setBit w i)) s := rfl

theorem exec_clrbit (w : Word) (i : Byte) (s : State) : exec (.clrbit w i) s = withBit i (.word (clrBit w i)) s := rfl

/-- Settles O37: the two sides of the index bound, the bit already set, and the bits other than i. -/
theorem setbitSetsOneBit : Obligations.SetbitSetsOneBit := by
  refine ⟨fun _ _ => rfl, fun w i s hi => ?_, fun w i s hi => ?_, fun w i s hi hset => ?_, fun w i n hn hni => ?_⟩
  · rw [exec_setbit, withBit_of_lt hi]
  · rw [exec_setbit, withBit_of_le hi, setBit]
  · rw [exec_setbit, withBit_of_le hi, setBit_of_set hset]
  · rw [getLsbD_setBit w i (Nat.lt_succ_of_le hn), decide_eq_false hni.symm, Bool.false_or]

/-- Settles O38: the two sides of the index bound, and the bit already clear. -/
theorem clrbitClearsOneBit : Obligations.ClrbitClearsOneBit := by
  refine ⟨fun _ _ => rfl, fun w i s hi => ?_, fun w i s hi => ?_, fun w i s hi hclear => ?_⟩
  · rw [exec_clrbit, withBit_of_lt hi]
  · rw [exec_clrbit, withBit_of_le hi, clrBit]
  · rw [exec_clrbit, withBit_of_le hi, clrBit_of_clear hclear]

end Sys2Proof.Machine

namespace Sys2Proof.Machine

/-! ## The frequency mode (R151) -/

/-- R151: for a bit test the absent word is the word 0. -/
theorem getBit_eq_getLsbD_getD (w : Option Word) (i : Byte) : getBit w i = (w.getD 0).getLsbD i.toNat := by
  cases w with
  | none => exact BitVec.getLsbD_zero.symm
  | some v => rfl

/-- R151: the test that is made last comes first in the chain, since it overrides the ones before it. -/
theorem number_freqMode (w40 w41 : Option Word) :
    (freqMode w40 w41).number = if (w41.getD 0).getLsbD 1 then 40 else if (w40.getD 0).getLsbD 5 then 30
      else if (w40.getD 0).getLsbD 4 then 20 else 10 := by
  simp only [freqMode, getBit_eq_getLsbD_getD, BitVec.reduceToNat, apply_ite FreqMode.number]
  rfl

theorem exec_fmode (w40 w41 : Option Word) (s : State) :
    exec (.fmode w40 w41) s = .next (s.endsNormally (.mode (freqMode w40 w41))) := rfl

/-- Settles O40: FMODE answers `freqMode`, whose number is the chain of tests. -/
theorem fmodeTakesTheLastSetBit : Obligations.FmodeTakesTheLastSetBit :=
  ⟨fun _ _ => rfl, fun w40 w41 s => ⟨freqMode w40 w41, exec_fmode w40 w41 s, number_freqMode w40 w41⟩,
    rfl, rfl, rfl, rfl⟩

/-! ## The pump and the anti-freeze flag (R152, R153) -/

theorem exec_pumpon (v : Number) (s : State) :
    exec (.pumpon v) s = .next (s.endsNormally (.bool (decide (0 < v.val)))) := rfl

theorem exec_antifrz (crank sec lvl1 : Bool) (s : State) :
    exec (.antifrz crank sec lvl1) s = .next (s.endsNormally (.bool (crank || sec || lvl1))) := rfl

/-- Settles O41: the two sides of the comparison with 0, and the disjunction of three inputs. -/
theorem pumpAndAntiFreezeFlags : Obligations.PumpAndAntiFreezeFlags := by
  refine ⟨fun _ => rfl, fun _ _ _ => rfl, fun v s hpos => ?_, fun v s hle => ?_, fun crank sec lvl1 s => ?_⟩
  · rw [exec_pumpon, decide_eq_true hpos]
  · rw [exec_pumpon, decide_eq_false (not_lt.2 hle)]
  · exact ⟨crank || sec || lvl1, exec_antifrz crank sec lvl1 s, by simp [or_assoc]⟩

/-! ## The error of a fault register (R156, R157) -/

/-- R156: a severity has level 2 or level 4. -/
theorem severityLevel_eq_two_or_four (sev : Config.Severity) : severityLevel sev = 2 ∨ severityLevel sev = 4 := by
  cases sev with
  | antiFreezeNotice => exact .inl rfl
  | hardwareFault => exact .inr rfl

section
variable {cat : Nat → List Config.CatEntry} {unknown : Nat → String}

/-- R157: the test of a catalogue entry reads the bit of the entry's own index, which a byte can hold. -/
theorem getBit_ofNat_bit (w : Word) (e : Config.CatEntry) :
    getBit (some w) (BitVec.ofNat 8 e.bit.val) = w.getLsbD e.bit.val := by
  rw [getBit_some, BitVec.toNat_ofNat, Nat.mod_eq_of_lt (by omega)]

/-- R157: the entry reported is the one whose bit is set while the bits of all entries before it are clear. -/
theorem faultText_of_first {n : Nat} {w : Word} {before after : List Config.CatEntry} {e : Config.CatEntry}
    (hcat : cat n = before ++ e :: after) (hset : w.getLsbD e.bit.val = true)
    (hclear : ∀ x ∈ before, w.getLsbD x.bit.val = false) :
    faultText cat unknown n w = (severityLevel e.sev, e.text) := by
  have hfirst : (cat n).find? (fun x => w.getLsbD x.bit.val) = some e :=
    List.find?_eq_some_iff_append.2 ⟨hset, before, after, hcat, by simpa using hclear⟩
  simp only [faultText, getBit_ofNat_bit, hfirst]

/-- R157: with no known bit set, the level is 3 and the text the unknown one. -/
theorem faultText_of_unknown {n : Nat} {w : Word} (hclear : ∀ x ∈ cat n, w.getLsbD x.bit.val = false) :
    faultText cat unknown n w = (3, unknown n) := by
  have hnone : (cat n).find? (fun x => w.getLsbD x.bit.val) = none := by simpa using hclear
  simp only [faultText, getBit_ofNat_bit, hnone]

/-! ## The loop over the fault registers (R157) -/

/-- R157: registers that are zero overwrite nothing. -/
theorem errorLoop_of_zeros {fs : List Word} (hzero : ∀ v ∈ fs, v = 0) (k : Nat) (acc : Nat × String) :
    errorLoop cat unknown k fs acc = acc := by
  induction fs generalizing k with
  | nil => rfl
  | cons v fs ih =>
    obtain ⟨rfl, hfs⟩ := List.forall_mem_cons.1 hzero
    exact ih hfs (k + 1)

/-- R157: the last non-zero register overwrites what the ones before it said, and nothing overwrites it. -/
theorem errorLoop_of_last {fs : List Word} {n : Nat} {w : Word} (hw : fs[n]? = some w) (hne : w ≠ 0)
    (hlast : ∀ m v, n < m → fs[m]? = some v → v = 0) (k : Nat) (acc : Nat × String) :
    errorLoop cat unknown k fs acc = faultText cat unknown (k + n) w := by
  induction fs generalizing k n acc with
  | nil => simp at hw
  | cons v fs ih =>
    cases n with
    | zero =>
      obtain rfl : v = w := by simpa using hw
      have hfs : ∀ u ∈ fs, u = 0 := fun u hu => by
        obtain ⟨m, hm⟩ := List.mem_iff_getElem?.1 hu
        exact hlast (m + 1) u m.succ_pos hm
      rw [errorLoop, if_neg hne, errorLoop_of_zeros hfs, Nat.add_zero]
    | succ n =>
      rw [errorLoop, ih (by simpa using hw) fun m u hm hu => hlast (m + 1) u (Nat.succ_lt_succ hm) hu,
        Nat.succ_add_eq_add_succ]

/-- R157: the register at place n of the operands is fault register n + 1. -/
theorem interpretErrors_of_last {noErr : String} {fs : List Word} {n : Nat} {w : Word} (hw : fs[n]? = some w)
    (hne : w ≠ 0) (hlast : ∀ m v, n < m → fs[m]? = some v → v = 0) :
    interpretErrors cat unknown noErr fs = faultText cat unknown (n + 1) w := by
  rw [interpretErrors, errorLoop_of_last hw hne hlast, Nat.add_comm]

end

theorem exec_errint (f1 f2 f3 f4 f5 f6 f7 : Word) (s : State) :
    exec (.errint f1 f2 f3 f4 f5 f6 f7) s =
      .next (s.endsNormally (.severity
        (interpretErrors catalogue Config.unknownText Config.noErrText [f1, f2, f3, f4, f5, f6, f7]).1
        (interpretErrors catalogue Config.unknownText Config.noErrText [f1, f2, f3, f4, f5, f6, f7]).2)) := rfl

/-- Settles O42: seven zeros, and the two cases of what the last non-zero register says. -/
theorem errintReportsTheLastNonzeroRegister : Obligations.ErrintReportsTheLastNonzeroRegister := by
  refine ⟨fun _ _ _ _ _ _ _ => rfl, fun f1 f2 f3 f4 f5 f6 f7 s => ⟨_, _, exec_errint f1 f2 f3 f4 f5 f6 f7 s, rfl⟩,
    fun n => ⟨catalogue_ascending n, fun x _ => severityLevel_eq_two_or_four x.sev⟩,
    fun cat unknown noErr => ⟨errorLoop_of_zeros (by simp) 1 (0, noErr), fun fs n w _ hw hne hlast => ?_⟩⟩
  rw [interpretErrors_of_last hw hne hlast]
  exact ⟨fun before after e hcat hset hclear => faultText_of_first hcat hset hclear, faultText_of_unknown⟩

end Sys2Proof.Machine

namespace Sys2Proof.Machine

open Sys2Proof.Config (HostParams)

/-! ## What the host adds to its records (R15, R192) -/

/-- What the host's records and the link have in `t` beyond what they had in `s`, each in its order: the frames sent,
the entries of the log, the phases gone through, the reports. -/
structure State.Added (s t : State) (frames : List (List Byte)) (log : List LogEntry) (trail : List Phase)
    (reports : List Report) : Prop where
  sent : t.link.sent = s.link.sent ++ frames
  log : t.host.log = s.host.log ++ log
  trail : t.host.trail = s.host.trail ++ trail
  reports : t.host.reports = s.host.reports ++ reports

section
variable {s t u : State} {frames frames' : List (List Byte)} {log log' : List LogEntry} {trail trail' : List Phase}
  {reports reports' : List Report}

theorem State.Added.refl (s : State) : s.Added s [] [] [] [] := by
  constructor <;> exact (List.append_nil _).symm

theorem State.Added.trans (h : s.Added t frames log trail reports) (h' : t.Added u frames' log' trail' reports') :
    s.Added u (frames ++ frames') (log ++ log') (trail ++ trail') (reports ++ reports') where
  sent := by rw [h'.sent, h.sent, List.append_assoc]
  log := by rw [h'.log, h.log, List.append_assoc]
  trail := by rw [h'.trail, h.trail, List.append_assoc]
  reports := by rw [h'.reports, h.reports, List.append_assoc]

/-- A state with the same link and the same host has the same records. -/
theorem State.Added.of_same (h : s.Added t frames log trail reports) (hlink : u.link = t.link)
    (hhost : u.host = t.host) : s.Added u frames log trail reports where
  sent := hlink ▸ h.sent
  log := hhost ▸ h.log
  trail := hhost ▸ h.trail
  reports := hhost ▸ h.reports

theorem State.Added.logged (h : s.Added t frames log trail reports) (e : LogEntry) :
    s.Added (t.logged e) frames (log ++ [e]) trail reports :=
  { h with log := by rw [← List.append_assoc, ← h.log]; rfl }

theorem State.Added.enter (h : s.Added t frames log trail reports) (x : Phase) :
    s.Added (t.enter x) frames log (trail ++ [x]) reports :=
  { h with trail := by rw [← List.append_assoc, ← h.trail]; rfl }

theorem State.Added.reported (h : s.Added t frames log trail reports) (r : Report) :
    s.Added (t.reported r) frames log trail (reports ++ [r]) :=
  { h with reports := by rw [← List.append_assoc, ← h.reports]; rfl }

end

/-! ## The attempt budget, attempt by attempt (R164) -/

section
variable {p : HostParams} {frame : List Byte} {parse : Instr} {reg : Word} {isWrite : Bool} {k : Nat}
  {s t : State} {r : TxnResult}

/-- The state in which the next attempt of a transaction is made. -/
abbrev State.counted (s : State) : State := s.setAttempts (s.host.attempts + 1)

theorem tries_zero (p : HostParams) (frame : List Byte) (parse : Instr) (reg : Word) (isWrite : Bool) (s : State) :
    tries p frame parse reg isWrite 0 s = .next (.failed, s.closeRequest.ended 0x00 .none) := rfl

theorem tries_of_success {x : Result} (h : attempt p frame parse s.counted = .next (.success x, t)) :
    tries p frame parse reg isWrite (k + 1) s = .next (.success x, t.closeRequest.ended 0x00 .none) := by
  unfold tries
  rw [h]
  rfl

theorem tries_of_failure {e : ErrorCause} (h : attempt p frame parse s.counted = .next (.failure e, t)) :
    tries p frame parse reg isWrite (k + 1) s =
      tries p frame parse reg isWrite k (t.logged (.failedAttempt reg isWrite t.host.attempts e)) := by
  conv_lhs => unfold tries
  rw [h]
  rfl

theorem tries_of_abandoned {seen : Result} (h : attempt p frame parse s.counted = .next (.abandoned seen, t)) :
    tries p frame parse reg isWrite (k + 1) s =
      .next (.failed, (t.logged (.abandoned reg isWrite t.host.attempts seen)).closeRequest.ended 0x00 .none) := by
  unfold tries
  rw [h]
  rfl

/-- Every attempt of a transaction answers when the transaction does. -/
theorem attempt_of_tries (h : tries p frame parse reg isWrite (k + 1) s = .next (r, t)) :
    ∃ v u, attempt p frame parse s.counted = .next (v, u) := by
  unfold tries at h
  obtain ⟨⟨v, u⟩, hv, -⟩ := andThen_eq_next.1 h
  exact ⟨v, u, hv⟩

end

/-! ## How much a transaction can do (R160, R164, R215) -/

/-- What the attempts of a transaction leave, whatever came of them: they are recorded in `made` with their times, `n`
of them sent the frame, and they added these entries to the log. -/
structure Tried (p : HostParams) (frame : List Byte) (s t : State) (made : List (Nat × Nat)) (n : Nat)
    (new : List LogEntry) : Prop where
  pairs : t.host.pairs = made ++ s.host.pairs
  sends : n ≤ made.length
  times : ∀ q ∈ made, q.1 ≤ q.2 ∧ q.2 ≤ q.1 + p.tTimeout
  added : s.Added t (List.replicate n frame) new [] []
  connected : s.link.connected = false → t.link.connected = false

section
variable {p : HostParams} {frame : List Byte} {s t u : State} {made made' : List (Nat × Nat)} {n n' : Nat}
  {new new' : List LogEntry}

theorem Tried.refl (p : HostParams) (frame : List Byte) (s : State) : Tried p frame s s [] 0 [] :=
  ⟨rfl, le_rfl, nofun, .refl s, id⟩

theorem Tried.trans (h : Tried p frame s t made n new) (h' : Tried p frame t u made' n' new') :
    Tried p frame s u (made' ++ made) (n + n') (new ++ new') where
  pairs := by rw [h'.pairs, h.pairs, List.append_assoc]
  sends := by rw [List.length_append, Nat.add_comm]; exact Nat.add_le_add h'.sends h.sends
  times := List.forall_mem_append.2 ⟨h'.times, h.times⟩
  added := List.replicate_add n n' frame ▸ h.added.trans h'.added
  connected := h'.connected ∘ h.connected

theorem Tried.logged (h : Tried p frame s t made n new) (e : LogEntry) :
    Tried p frame s (t.logged e) made n (new ++ [e]) :=
  { h with added := h.added.logged e }

/-- R102, R164: CLRREQ at the end touches no record. -/
theorem Tried.closed (h : Tried p frame s t made n new) :
    Tried p frame s (t.closeRequest.ended 0x00 .none) made n new :=
  ⟨h.pairs, h.sends, h.times, h.added.of_same rfl rfl, h.connected⟩

/-- R160: one attempt, or none where a reset comes in the wait for the gap. -/
theorem AttemptDone.tried {v : Verdict} (h : AttemptDone p frame s.counted t v) :
    ∃ made n, Tried p frame s t made n [] ∧ made.length ≤ 1 ∧ (v.isAbandoned = false → made.length = 1) := by
  rcases h.done with ⟨⟨d, hd, hhost⟩, hsent, hclosed⟩ | ⟨rfl, hhost, hsent, hconnected⟩
  · obtain ⟨n, hn, hsent⟩ : ∃ n ≤ 1, t.link.sent = s.link.sent ++ List.replicate n frame :=
      hsent.elim (fun h => ⟨0, Nat.zero_le 1, h.trans (List.append_nil _).symm⟩) fun h => ⟨1, le_rfl, h⟩
    refine ⟨[(gapTime p s.host, gapTime p s.host + d)], n,
      ⟨by rw [hhost]; rfl, hn, by simpa using hd, ⟨hsent, ?_, ?_, ?_⟩, fun _ => hclosed⟩, le_rfl, fun _ => rfl⟩
    all_goals rw [hhost]; exact (List.append_nil _).symm
  · refine ⟨[], 0, ⟨by rw [hhost]; rfl, le_rfl, nofun, ⟨?_, ?_, ?_, ?_⟩, hconnected.trans⟩, Nat.zero_le 1, nofun⟩
    · rw [hsent]; exact (List.append_nil _).symm
    all_goals rw [hhost]; exact (List.append_nil _).symm

end

/-- The log has no abandoned attempt of this transaction among these entries. -/
def NotAbandoned (reg : Word) (isWrite : Bool) (new : List LogEntry) : Prop :=
  ∀ k seen, LogEntry.abandoned reg isWrite k seen ∉ new

/-- R164, R206: with k attempts left at most k are made; all of them, if the transaction fails and is not abandoned; and
only an event with a reset abandons it. -/
structure Bounded (p : HostParams) (frame : List Byte) (reg : Word) (isWrite : Bool) (k : Nat) (s t : State)
    (r : TxnResult) (made : List (Nat × Nat)) (n : Nat) (new : List LogEntry) : Prop where
  tried : Tried p frame s t made n new
  atMost : made.length ≤ k
  exhausted : NotAbandoned reg isWrite new → (0 < k → 1 ≤ made.length) ∧ (r = .failed → made.length = k)
  abandoned : (∀ e ∈ s.link.script.take k, e.reset = none) → NotAbandoned reg isWrite new
  request : t.req.valid = false ∧ t.rxok = false

theorem tries_bounded {p : HostParams} {unit fn : Byte} {a b : Word} {parse : Instr} (hfn : fn = fnRead ∨ fn = fnWrite)
    (hp : isParse parse) {reg : Word} {isWrite : Bool} {k : Nat} {s t : State} {r : TxnResult}
    (h : tries p (encodeFrame unit fn (payload16 a b)) parse reg isWrite k s = .next (r, t)) :
    ∃ made n new, Bounded p (encodeFrame unit fn (payload16 a b)) reg isWrite k s t r made n new := by
  induction k generalizing s with
  | zero =>
    cases h
    exact ⟨[], 0, [], (Tried.refl p _ s).closed, le_rfl, by simp, fun _ => by simp [NotAbandoned], rfl, rfl⟩
  | succ k ih =>
    obtain ⟨v, u, hu⟩ := attempt_of_tries h
    have hdone := attempt_done hfn hp hu
    obtain ⟨made, n, htried, hle, hone⟩ := hdone.tried
    cases v with
    | success x =>
      rw [tries_of_success hu] at h
      cases h
      have hmade : made.length = 1 := hone rfl
      exact ⟨made, n, [], htried.closed, by omega, fun _ => ⟨fun _ => hmade.ge, nofun⟩, fun _ => by simp [NotAbandoned],
        rfl, rfl⟩
    | failure e =>
      rw [tries_of_failure hu] at h
      have hmade : made.length = 1 := hone rfl
      obtain ⟨made', n', new', hb⟩ := ih h
      refine ⟨_, _, _, (htried.logged _).trans hb.tried, ?_, fun hna => ?_, fun hscript => ?_, hb.request⟩
      · rw [List.length_append]
        exact Nat.add_le_add hb.atMost hle
      · have hall := hb.exhausted fun j seen hmem => hna j seen (List.mem_append_right _ hmem)
        rw [List.length_append, hmade]
        exact ⟨fun _ => Nat.le_add_left _ _, fun hr => by rw [hall.2 hr]⟩
      · have htail : (s.link.script.take (k + 1)).tail = u.link.script.take k :=
          (List.tail_take_eq_take_tail _ (k + 1)).trans (congrArg _ hdone.script.symm)
        have hrest := hb.abandoned fun e he => hscript e (List.mem_of_mem_tail (htail ▸ he))
        simpa [NotAbandoned] using hrest
    | abandoned seen =>
      rw [tries_of_abandoned hu] at h
      cases h
      refine ⟨made, n, _, (htried.logged _).closed, by omega, fun hna => ?_, fun hscript => ?_, rfl, rfl⟩
      · exact absurd (List.mem_append_right _ (List.mem_singleton.2 rfl)) (hna _ seen)
      · obtain ⟨e, rest, hs, hreset⟩ := hdone.reset rfl
        exact absurd (hscript e (by rw [show s.link.script = e :: rest from hs]; simp)) hreset

/-- R164: a transaction has two attempts. -/
theorem transaction_bounded {p : HostParams} {request parse : Instr} {unit fn : Byte} {a b : Word}
    (hreq : isRequest request unit fn a b) (hp : isParse parse) {reg : Word} {isWrite : Bool} {s t : State}
    {r : TxnResult} (h : transaction p request parse reg isWrite s = .next (r, t)) :
    ∃ made n new, Bounded p (encodeFrame unit fn (payload16 a b)) reg isWrite 2 s t r made n new := by
  obtain ⟨hfn, s0, htries, -, hlink, hhost, -⟩ := transaction_eq_tries (p := p) (s := s) hreq
  rw [htries] at h
  obtain ⟨made, n, new, htried, hmost, hall, hab, hclosed⟩ := tries_bounded hfn hp h
  have hadded : s.Added t (List.replicate n (encodeFrame unit fn (payload16 a b))) new [] [] := by
    refine ⟨hlink ▸ htried.added.sent, htried.added.log.trans ?_, htried.added.trail.trans ?_,
      htried.added.reports.trans ?_⟩ <;> rw [hhost]
  exact ⟨made, n, new,
    ⟨htried.pairs.trans (by rw [hhost]), htried.sends, htried.times, hadded, hlink ▸ htried.connected⟩, hmost, hall,
    hlink ▸ hab, hclosed⟩

theorem now_le_gapTime (p : HostParams) (h : HostState) : h.now ≤ gapTime p h := by
  unfold gapTime
  split
  · exact le_rfl
  · exact le_max_left _ _

/-- Settles O51: the attempts of a transaction by `tries_bounded`, one attempt by `attempt_done`. -/
theorem transactionsAreBounded : Obligations.TransactionsAreBounded := by
  constructor
  · intro p request parse unit fn a b reg isWrite s t r hreq hp hclosed h
    obtain ⟨made, n, new, htried, hmost, hall, hab, hvalid, hrxok⟩ := transaction_bounded hreq hp h
    refine ⟨⟨made, n, htried.pairs, hmost, htried.sends, htried.times, htried.added.sent, new, htried.added.log,
      fun hna => ?_, hab⟩, htried.connected hclosed, hvalid, hrxok⟩
    obtain ⟨hone, htwo⟩ := hall hna
    exact ⟨hone Nat.two_pos, htwo⟩
  · intro p parse unit fn a b s t v hfn hp hclosed h
    have hdone := attempt_done hfn hp h
    refine ⟨attempt_disconnected hfn hp h hclosed, hdone.script, ?_⟩
    rcases hdone.done with ⟨⟨d, hd, hhost⟩, hsent, -⟩ | ⟨hv, hnot⟩
    · refine .inl ⟨gapTime p s.host, gapTime p s.host + d, by rw [hhost], now_le_gapTime p s.host, Nat.le_add_right _ _,
        Nat.add_le_add_left hd _, by rw [hhost], hsent⟩
    · exact .inr ⟨hv, by rw [hnot.host], hnot.sent⟩

end Sys2Proof.Machine

namespace Sys2Proof.Machine

open Sys2Proof.Config (HostParams)

/-! ## A request on the link, and what follows it (R13, R160) -/

/-- Every request frame goes out, and the controller's answer depends on its registers and the number of the request. -/
theorem sendFrame_eq {fn : Byte} (hfn : fn = fnRead ∨ fn = fnWrite) (unit : Byte) (a b : Word) :
    ∃ (ctrl : Nat → Memory → Memory) (answer : Nat → Memory → Option (List Byte)), ∀ s : State,
      sendFrame (encodeFrame unit fn (payload16 a b)) s =
        .next (s.transmitted (encodeFrame unit fn (payload16 a b)) (ctrl s.freeIndex s.drifted)
          (answer s.freeIndex s.drifted)) := by
  rcases hfn with rfl | rfl
  · exact ⟨fun _ m => m,
      fun i m => if Config.controllerServes i then (Config.controllerOddAnswer i).or (readAnswer i m unit a b)
        else Config.controllerOddAnswer i,
      fun s => (perform_of_decode (Laws.RoundTrip.rdreq unit a b _ rfl) s).trans (exec_rdreq unit a b _ s)⟩
  · exact ⟨fun i m => if Config.controllerServes i then m.writeWord a.toNat b else m,
      fun i _ => if Config.controllerServes i then (Config.controllerOddAnswer i).or (writeAnswer unit a b)
        else Config.controllerOddAnswer i,
      fun s => (perform_of_decode (Laws.RoundTrip.wrreq unit a b _ rfl) s).trans (exec_wrreq unit a b _ s)⟩

section
variable {p : HostParams} {unit fn : Byte} {a b : Word} {parse : Instr} {s s0 t u : State} {e : LinkEvent}
  {rest : List LinkEvent} {err : ErrorCause}

/-- An attempt without a reset, past the gap: the frame is sent or not, and what the link does decides the rest. -/
theorem attempt_eq_respond (hfn : fn = fnRead ∨ fn = fnWrite) (hs : s.link.script = e :: rest) (hr : e.reset = none)
    (hctrl : s0.ctrl = s.ctrl) (hfree : s0.freeIndex = s.freeIndex) :
    ∃ u, attempt p (encodeFrame unit fn (payload16 a b)) parse s = respond p e parse u ∧ u.sameBlock s ∧
      u.host = { s.host with now := gapTime p s.host } ∧ u.link.script = rest ∧
      u.link.sent = s.link.sent ++ (if e.fate.sends then [encodeFrame unit fn (payload16 a b)] else []) ∧
      (e.fate = .faithful → arriving (encodeFrame unit fn (payload16 a b)) e s0 = u.link.answer) := by
  have hattempt : attempt p (encodeFrame unit fn (payload16 a b)) parse s =
      exchange p e (encodeFrame unit fn (payload16 a b)) parse
        ((s.waitGap p).withLink { s.link with script := rest }) := by
    unfold attempt
    rw [nextEvent_of_cons (s := s.waitGap p) hs]
    simp only [hr, reduceCtorEq, if_false]
    exact andThen_next_eta _
  rw [hattempt]
  unfold exchange
  cases hsends : e.fate.sends with
  | false =>
    refine ⟨(s.waitGap p).withLink { s.link with script := rest }, by simp [hr],
      ⟨rfl, rfl, rfl, rfl, rfl, rfl, rfl, rfl, rfl, rfl⟩, rfl, rfl, (List.append_nil _).symm, fun hfate => ?_⟩
    rw [hfate] at hsends
    cases hsends
  | true =>
    obtain ⟨ctrl, answer, hsend⟩ := sendFrame_eq hfn unit a b
    simp only [hr, hsend, andThen_next, reduceCtorEq, if_false]
    refine ⟨_, rfl, ⟨rfl, rfl, rfl, rfl, rfl, rfl, rfl, rfl, rfl, rfl⟩, rfl, rfl, rfl, fun hfate => ?_⟩
    have hdrift : s0.drifted = s.drifted := by rw [State.drifted, State.drifted, hctrl, hfree]
    simp only [arriving, hfate, hsend, hdrift, hfree]
    rfl

/-- R180: what a parse step gives depends on the request and the response alone. -/
theorem exec_parse_congr (hp : isParse parse) (hreq : t.req = s.req) (hrxb : t.rxb = s.rxb) (hlen : t.rxlen = s.rxlen)
    (hok : t.rxok = s.rxok) {v : State} (h : exec parse s = .next v) :
    ∃ w, exec parse t = .next w ∧ w.result = v.result := by
  have hresp : ∀ fn, t.hasResponse fn = s.hasResponse fn := fun fn => by simp [State.hasResponse, hreq, hok]
  have hdata : readData t = readData s := by simp [readData, hresp, hlen, hrxb]
  rcases hp with rfl | rfl | rfl | ⟨k, rfl⟩
  · change execParseRd s = _ at h
    change ∃ w, execParseRd t = _ ∧ _
    unfold execParseRd at h ⊢
    rw [hdata]
    split at h
    · cases h
    · cases h; exact ⟨_, rfl, rfl⟩
    · cases h; exact ⟨_, rfl, rfl⟩
  · change execParseRd1 s = _ at h
    change ∃ w, execParseRd1 t = _ ∧ _
    unfold execParseRd1 at h ⊢
    rw [hdata]
    split at h
    · cases h
    · cases h; exact ⟨_, rfl, rfl⟩
    · split at h
      · cases h; exact ⟨_, rfl, rfl⟩
      · cases h; exact ⟨_, rfl, rfl⟩
  · have hecho : echoMatches t = echoMatches s := by simp [echoMatches, hlen, hrxb, hreq]
    change execParseWr s = _ at h
    change ∃ w, execParseWr t = _ ∧ _
    unfold execParseWr at h ⊢
    rw [hresp, hecho]
    split at h
    · cases h
    · next hc => cases h; rw [if_neg hc]; exact ⟨_, rfl, rfl⟩
  · change execLoadseg k s = _ at h
    change ∃ w, execLoadseg k t = _ ∧ _
    unfold execLoadseg at h ⊢
    rw [hdata, hreq, hresp]
    split at h
    · cases h
    · split at h
      · cases h
      · next hc =>
        split at h
        · cases h
        · next hn =>
          rw [if_neg hc, if_neg hn]
          split at h
          · cases h
          · cases h; exact ⟨_, rfl, rfl⟩
          · split at h
            · next hl => cases h; exact ⟨_, if_pos hl, rfl⟩
            · next hl => cases h; exact ⟨_, if_neg hl, rfl⟩

/-- R160: the fates in which the link may bring bytes once the frame is sent. -/
def LinkFate.listens : LinkFate → Prop
  | .noConnect | .socketFailure _ => False
  | .silence | .delivers _ | .faithful => True

/-- What an attempt waits for is what the link brings. -/
theorem respond_eq_receive {frame : List Byte} (hl : e.fate.listens)
    (hanswer : e.fate = .faithful → arriving frame e s0 = u.link.answer) :
    respond p e parse u = receive p e (arriving frame e s0) parse u := by
  unfold respond
  cases hfate : e.fate with
  | noConnect | socketFailure => simp [hfate, LinkFate.listens] at hl
  | silence | delivers => simp [arriving, hfate]
  | faithful => rw [hanswer hfate]

/-- R160, D28: the ways to fail once the frame is sent: nothing came, it came late, or it was judged an error. -/
theorem failsWith_of_listens {frame : List Byte} (hl : e.fate.listens) (h : failsWith p frame parse e s0 err) :
    (arriving frame e s0 = none ∧ err = .transportTimeout) ∨
    ∃ d, arriving frame e s0 = some d ∧ ((p.tTimeout < e.elapsed ∧ err = .transportTimeout) ∨
      (e.elapsed ≤ p.tTimeout ∧ ∃ v, exec (.accept d) s0 = .next v ∧
        (v.result = .error err ∨ (v.result = .ok ∧ ∃ w, exec parse v = .next w ∧ w.result = .error err)))) := by
  unfold failsWith at h
  cases hfate : e.fate with
  | noConnect | socketFailure => simp [hfate, LinkFate.listens] at hl
  | silence | delivers | faithful =>
    simp only [hfate] at h
    cases ha : arriving frame e s0 with
    | none => exact .inl ⟨rfl, by simpa [ha] using h⟩
    | some d =>
      simp only [ha] at h
      split at h
      · next hlate => exact .inr ⟨d, rfl, .inl ⟨hlate, h⟩⟩
      · next hlate => exact .inr ⟨d, rfl, .inr ⟨Nat.not_lt.1 hlate, h⟩⟩

theorem verdictOf_of_error (h : t.result = .error err) : verdictOf t = .next (.failure err, t) := by
  unfold verdictOf
  rw [h]

theorem verdictOf_of_value (h : t.result.isError = false) : verdictOf t = .next (.success t.result, t) := by
  unfold verdictOf
  split
  · next he => simp [he, Result.isError] at h
  · rfl

/-- R98: how a state stands after ACCEPT has kept a response. -/
abbrev State.accepting (s : State) (d : List Byte) : State := ((s.judging d).keepResponse d).ended 0x00 .ok

/-- R98, R160: bytes judged an error for one state are so for every other with the same request and the same RXB. -/
theorem judge_fails {d : List Byte} {v : State} (hp : isParse parse) (hreq : u.req = s0.req) (hrxb : u.rxb = s0.rxb)
    (hv : exec (.accept d) s0 = .next v)
    (he : v.result = .error err ∨ (v.result = .ok ∧ ∃ w, exec parse v = .next w ∧ w.result = .error err)) :
    ∃ t, judge d parse none u = .next (.failure err, t) ∧ t.req = u.req := by
  obtain ⟨hvalid, hlen, ⟨e, hacc, rfl⟩ | ⟨hacc, rfl⟩⟩ := acceptBytes_eq_next.1 hv
  all_goals rw [← hreq] at hvalid hacc
  · obtain rfl : e = err := by simpa using he
    exact ⟨_, judge_rejects hvalid hlen hacc, by simp⟩
  · obtain ⟨-, w, hw, hwe⟩ := he.resolve_left (by simp)
    obtain ⟨t, ht, hte⟩ := exec_parse_congr (s := s0.accepting d) (t := u.accepting d) hp (by simp [hreq])
      (by simp [hrxb]) rfl rfl hw
    refine ⟨t, ?_, (exec_parse hp ht).2.2.trans (by simp)⟩
    rw [judge_accepts (r := none) hvalid hlen hacc nofun, ht]
    exact verdictOf_of_error (hte.trans hwe)

theorem respond_fails {frame : List Byte} (hp : isParse parse) (hr : e.reset = none) (hreq : u.req = s0.req)
    (hrxb : u.rxb = s0.rxb) (hanswer : e.fate = .faithful → arriving frame e s0 = u.link.answer)
    (h : failsWith p frame parse e s0 err) : ∃ t, respond p e parse u = .next (.failure err, t) ∧ t.req = u.req := by
  by_cases hl : e.fate.listens
  · rw [respond_eq_receive hl hanswer]
    rcases failsWith_of_listens hl h with ⟨ha, rfl⟩ | ⟨d, ha, hd⟩
    · rw [ha]
      exact ⟨_, rfl, rfl⟩
    · rw [ha]
      unfold receive inTime
      rcases hd with ⟨hlate, rfl⟩ | ⟨htime, v, hv, he⟩
      · simp only [if_pos hlate]
        exact ⟨_, rfl, rfl⟩
      · simp only [if_neg (Nat.not_lt.2 htime), hr]
        exact judge_fails hp hreq hrxb hv he
  · unfold respond
    unfold failsWith at h
    cases hfate : e.fate with
    | noConnect =>
      obtain rfl : err = .transportConnect := by simpa [hfate] using h
      exact ⟨_, rfl, rfl⟩
    | socketFailure x =>
      obtain rfl : err = if p.tTimeout < e.elapsed then .transportTimeout else .transportSocket := by
        simpa [hfate] using h
      unfold inTime
      dsimp only
      split <;> exact ⟨_, rfl, rfl⟩
    | silence | delivers | faithful => simp [hfate, LinkFate.listens] at hl

end

end Sys2Proof.Machine

namespace Sys2Proof.Machine

open Sys2Proof.Config (HostParams)

/-! ## Transactions, run attempt by attempt (R160, R164) -/

/-- From `s` to `t` the host made `j` attempts, which sent these frames and added these entries to the log; of the
link's script `rest` is left. -/
structure Ran (s t : State) (j : Nat) (frames : List (List Byte)) (log : List LogEntry) (rest : List LinkEvent) :
    Prop where
  script : t.link.script = rest
  added : s.Added t frames log [] []
  pairs : ∃ made, made.length = j ∧ t.host.pairs = made ++ s.host.pairs

section
variable {s t u : State} {j j' : Nat} {frames frames' : List (List Byte)} {log log' : List LogEntry}
  {rest rest' : List LinkEvent}

theorem Ran.trans (h : Ran s t j frames log rest) (h' : Ran t u j' frames' log' rest') :
    Ran s u (j' + j) (frames ++ frames') (log ++ log') rest' := by
  obtain ⟨made, hj, hmade⟩ := h.pairs
  obtain ⟨made', hj', hmade'⟩ := h'.pairs
  exact ⟨h'.script, h.added.trans h'.added, made' ++ made, by rw [List.length_append, hj, hj'],
    by rw [hmade', hmade, List.append_assoc]⟩

theorem Ran.of_same (h : Ran s t j frames log rest) (hlink : u.link = t.link) (hhost : u.host = t.host) :
    Ran s u j frames log rest :=
  ⟨hlink ▸ h.script, h.added.of_same hlink hhost, hhost ▸ h.pairs⟩

theorem Ran.logged (h : Ran s t j frames log rest) (e : LogEntry) : Ran s (t.logged e) j frames (log ++ [e]) rest :=
  ⟨h.script, h.added.logged e, h.pairs⟩

theorem Ran.one (h : Ran s t 1 frames log rest) : ∃ q, t.host.pairs = q :: s.host.pairs := by
  obtain ⟨made, hj, hmade⟩ := h.pairs
  obtain ⟨q, rfl⟩ := List.length_eq_one_iff.1 hj
  exact ⟨q, hmade⟩

theorem Ran.two (h : Ran s t 2 frames log rest) : ∃ q1 q2, t.host.pairs = q2 :: q1 :: s.host.pairs := by
  obtain ⟨made, hj, hmade⟩ := h.pairs
  obtain ⟨q2, q1, rfl⟩ := List.length_eq_two.1 hj
  exact ⟨q1, q2, hmade⟩

/-- What an attempt records: its start and its end. -/
theorem Ran.of_attempt (hscript : t.link.script = rest) (hsent : t.link.sent = s.link.sent ++ frames)
    (hhost : ∃ start ended, t.host = { s.counted.host with now := ended, pairs := (start, ended) :: s.host.pairs }) :
    Ran s t 1 frames [] rest := by
  obtain ⟨start, ended, hhost⟩ := hhost
  refine ⟨hscript, ⟨hsent, ?_, ?_, ?_⟩, [(start, ended)], rfl, ?_⟩
  all_goals rw [hhost]
  · exact (List.append_nil _).symm
  · exact (List.append_nil _).symm
  · exact (List.append_nil _).symm
  · rfl

end

section
variable {p : HostParams} {unit fn : Byte} {a b reg : Word} {isWrite : Bool} {request parse : Instr} {s : State}
  {d : List Byte} {n k : Nat} {e : LinkEvent} {rest : List LinkEvent} {err : ErrorCause}

/-- R164: an attempt that fails, for any cause, leaves the rest of the budget and a log entry with its number. -/
theorem tries_fails (hfn : fn = fnRead ∨ fn = fnWrite) (hp : isParse parse) (hs : s.link.script = e :: rest)
    (hr : e.reset = none) {s0 : State} (hreq : s0.req = s.req) (hrxb : s0.rxb = s.rxb) (hctrl : s0.ctrl = s.ctrl)
    (hfree : s0.freeIndex = s.freeIndex) (h : failsWith p (encodeFrame unit fn (payload16 a b)) parse e s0 err) :
    ∃ u, tries p (encodeFrame unit fn (payload16 a b)) parse reg isWrite (k + 1) s =
        tries p (encodeFrame unit fn (payload16 a b)) parse reg isWrite k u ∧
      Ran s u 1 (if e.fate.sends then [encodeFrame unit fn (payload16 a b)] else [])
        [.failedAttempt reg isWrite (s.host.attempts + 1) err] rest ∧
      u.req = s.req ∧ u.host.attempts = s.host.attempts + 1 := by
  obtain ⟨u, hu, hblock, hhost, hscript, hsent, hanswer⟩ := attempt_eq_respond (p := p) (unit := unit) (a := a)
    (b := b) (parse := parse) (s := s.counted) hfn hs hr hctrl hfree
  obtain ⟨-, hureq, hurxb, -⟩ := hblock
  obtain ⟨t, ht, htreq⟩ := respond_fails hp hr (hureq.symm.trans hreq.symm) (hurxb.symm.trans hrxb.symm) hanswer h
  obtain ⟨⟨d, hthost, htlink⟩, -⟩ := respond_next hp ht
  have hran : Ran s t 1 (if e.fate.sends then [encodeFrame unit fn (payload16 a b)] else []) [] rest := by
    refine .of_attempt (htlink ▸ hscript) (htlink ▸ hsent)
      ⟨gapTime p s.host, gapTime p s.host + min d p.tTimeout, ?_⟩
    rw [hthost, State.endAttempt, hhost]
    rfl
  have hnumber : t.host.attempts = s.host.attempts + 1 := by
    rw [hthost, State.endAttempt, hhost]
    rfl
  refine ⟨_, tries_of_failure (hu.trans ht), ?_, htreq.trans hureq.symm, hnumber⟩
  rw [hnumber]
  exact hran.logged _

/-- An attempt of a transaction in which the link delivers bytes in time judges them, the block as it was. -/
theorem attempt_judges_delivered (hfn : fn = fnRead ∨ fn = fnWrite)
    (hs : s.link.script = ⟨.delivers d, n, none⟩ :: rest) (hn : n ≤ p.tTimeout) :
    ∃ v, attempt p (encodeFrame unit fn (payload16 a b)) parse s.counted = judge d parse none v ∧ v.sameBlock s ∧
      Ran s v 1 [encodeFrame unit fn (payload16 a b)] [] rest ∧ v.host.attempts = s.host.attempts + 1 := by
  obtain ⟨v, hv, hblock, hhost, hlink⟩ := attempt_delivers (p := p) (u := unit) (a := a) (n := b) (parse := parse)
    (s := s.counted) hfn hs hn
  exact ⟨v, hv, hblock, .of_attempt (by rw [hlink]) (by rw [hlink]; rfl) ⟨_, _, hhost⟩, by rw [hhost]; rfl⟩

/-- R164: a rejected response leaves the decode buffer alone and the CRC of its body in the accumulator. -/
theorem tries_rejects (hfn : fn = fnRead ∨ fn = fnWrite) (hs : s.link.script = ⟨.delivers d, n, none⟩ :: rest)
    (hn : n ≤ p.tTimeout) (hv : s.req.valid = true) (hd : d.length ≤ 256) (he : acceptError s.req d = some err) :
    ∃ u, tries p (encodeFrame unit fn (payload16 a b)) parse reg isWrite (k + 1) s =
        tries p (encodeFrame unit fn (payload16 a b)) parse reg isWrite k u ∧
      Ran s u 1 [encodeFrame unit fn (payload16 a b)] [.failedAttempt reg isWrite (s.host.attempts + 1) err] rest ∧
      u.host.attempts = s.host.attempts + 1 ∧ u.req = s.req ∧ u.crc = (s.judging d).crc ∧ u.db = s.db ∧
      u.dbv = s.dbv := by
  obtain ⟨v, hv', ⟨hcrc, hreq, -, -, -, hdb, hdbv, -⟩, hran, hnumber⟩ := attempt_judges_delivered (p := p)
    (unit := unit) (a := a) (b := b) (parse := parse) hfn hs hn
  rw [judge_rejects (hreq ▸ hv) hd (hreq ▸ he)] at hv'
  refine ⟨_, tries_of_failure hv', ?_, ?_, ?_, ?_, ?_, ?_⟩
  · rw [State.ended_host, judging_host, hnumber]
    exact (hran.of_same (by simp) (by simp)).logged _
  · simpa [State.logged] using hnumber
  · simp [State.logged, hreq]
  · simp [State.logged, judging_crc, hcrc]
  · simp [State.logged, hdb]
  · simp [State.logged, hdbv]

/-- R164: a response that ACCEPT keeps and the parse step takes ends the transaction with that step's result. -/
theorem tries_accepts (hfn : fn = fnRead ∨ fn = fnWrite) (hp : isParse parse)
    (hs : s.link.script = ⟨.delivers d, n, none⟩ :: rest) (hn : n ≤ p.tTimeout) :
    ∃ v, v.sameBlock s ∧ ∀ u w, exec (.accept d) v = .next u → u.result = .ok → exec parse u = .next w →
      w.result.isError = false →
      tries p (encodeFrame unit fn (payload16 a b)) parse reg isWrite (k + 1) s =
        .next (.success w.result, w.closeRequest.ended 0x00 .none) ∧
      Ran s (w.closeRequest.ended 0x00 .none) 1 [encodeFrame unit fn (payload16 a b)] [] rest := by
  obtain ⟨v, hv, hblock, hran, -⟩ := attempt_judges_delivered (p := p) (unit := unit) (a := a) (b := b)
    (parse := parse) hfn hs hn
  refine ⟨v, hblock, fun u w hu hok hw hvalue => ?_⟩
  obtain ⟨hhost, hlink, -⟩ := exec_parse hp hw
  have hjudge : judge d parse none v = .next (.success w.result, w) := by
    unfold judge
    rw [hu, andThen_next, hok]
    simp only [reduceCtorEq, if_false]
    rw [hw, andThen_next, verdictOf_of_value hvalue]
  refine ⟨tries_of_success (hv.trans hjudge), hran.of_same ?_ ?_⟩
  · exact hlink.trans (exec_link hu (by simp))
  · exact hhost.trans (exec_host hu).1

/-- What the attempts leave, seen from before the transaction. -/
theorem Ran.of_transaction {s0 t : State} {j : Nat} {frames : List (List Byte)} {log : List LogEntry}
    (hlink : s0.link = s.link) (hhost : s0.host = { s.host with attempts := 0 }) (h : Ran s0 t j frames log rest) :
    Ran s t j frames log rest := by
  refine ⟨h.script, ⟨hlink ▸ h.added.sent, h.added.log.trans ?_, h.added.trail.trans ?_, h.added.reports.trans ?_⟩, ?_⟩
  · rw [hhost]
  · rw [hhost]
  · rw [hhost]
  · obtain ⟨made, hj, hmade⟩ := h.pairs
    exact ⟨made, hj, hmade.trans (by rw [hhost])⟩

theorem Result.isError_eq_false {r : Result} (h : ∀ cause, r ≠ .error cause) : r.isError = false := by
  cases r with
  | error cause => exact absurd rfl (h cause)
  | _ => rfl

/-- R98, R164: from 4 bytes on a bad CRC is rejected as such, whatever the request. -/
theorem acceptError_of_badCrc (r : Req) (hmin : 4 ≤ d.length) (hbad : validate d = false) :
    acceptError r d = some .protocolCrc := by
  unfold acceptError minFrame
  rw [if_neg (Nat.not_lt.2 hmin), if_pos hbad]

/-- Settles O52: two rejections by `tries_rejects`; a failure of any cause by `tries_fails`, then `tries_accepts`. -/
theorem retryExhaustionAfterTwoAttempts : Obligations.RetryExhaustionAfterTwoAttempts := by
  constructor
  · intro p request parse unit fn a b reg isWrite s b1 b2 n1 n2 rest hreq hp hs hn1 hn2 hmin1 hmax1 hbad1 hmin2 hmax2
      hbad2
    obtain ⟨hfn, s0, htries, hs0, hlink, hhost, -, hdb, hdbv, -⟩ := transaction_eq_tries (p := p) (s := s) hreq
    have hnumber : s0.host.attempts = 0 := by rw [hhost]
    obtain ⟨u, hu, hran, hunumber, hureq, hucrc, hudb, hudbv⟩ := tries_rejects (p := p) (unit := unit) (a := a)
      (b := b) (parse := parse) (reg := reg) (isWrite := isWrite) (k := 1) hfn (hlink ▸ hs) hn1 (by rw [hs0]) hmax1
      (acceptError_of_badCrc _ hmin1 hbad1)
    obtain ⟨t, ht, hran', -, -, htcrc, htdb, htdbv⟩ := tries_rejects (p := p) (unit := unit) (a := a) (b := b)
      (parse := parse) (reg := reg) (isWrite := isWrite) (k := 0) hfn hran.script hn2 (by rw [hureq, hs0]) hmax2
      (acceptError_of_badCrc _ hmin2 hbad2)
    have hall := ((hran.trans hran').of_transaction hlink hhost).of_same (u := t.closeRequest.ended 0x00 .none) rfl rfl
    rw [hunumber, hnumber] at hall
    refine ⟨_, ((htries parse reg isWrite).trans (hu.trans ht)).trans (tries_zero ..), hall.two, hall.added.sent,
      hall.added.log, hall.script, ?_, ?_, ?_⟩
    · rw [State.ended_crc, State.closeRequest_crc, htcrc, judging_crc, if_neg (Nat.not_lt.2 hmin2)]
    · exact htdb.trans (hudb.trans hdb)
    · exact htdbv.trans (hudbv.trans hdbv)
  · intro p request parse unit fn a b reg isWrite s e err b2 n2 rest r hreq hp hs hr hn2 frame latch hfails haccepts
      hvalue
    obtain ⟨hfn, s0, htries, hs0, hlink, hhost, hctrl, -, -, hfree, hrxb⟩ :=
      transaction_eq_tries (p := p) (s := s) hreq
    have hnumber : s0.host.attempts = 0 := by rw [hhost]
    obtain ⟨u, hu, hran, hureq, -⟩ := tries_fails (p := p) (reg := reg) (isWrite := isWrite) (k := 1) hfn hp
      (hlink ▸ hs) hr (s0 := { s with req := latch }) hs0.symm hrxb.symm hctrl.symm hfree.symm hfails
    obtain ⟨v, ⟨-, hvreq, -⟩, hend⟩ := tries_accepts (p := p) (unit := unit) (a := a) (b := b) (reg := reg)
      (isWrite := isWrite) (k := 0) hfn hp hran.script hn2
    obtain ⟨x, w, hx, hok, hw, rfl⟩ := haccepts v (hvreq.symm.trans (hureq.trans hs0))
    obtain ⟨ht, hran'⟩ := hend x w hx hok hw (Result.isError_eq_false hvalue)
    have hall := (hran.trans hran').of_transaction hlink hhost
    rw [hnumber] at hall
    exact ⟨_, (htries parse reg isWrite).trans (hu.trans ht), hall.two,
      by rw [List.append_assoc]; exact hall.added.sent, hall.added.log, hall.script⟩

end

end Sys2Proof.Machine

namespace Sys2Proof.Machine

open Sys2Proof.Config (HostParams)

variable {p : HostParams} {unit fn : Byte} {a b reg value reg' value' w : Word} {isWrite : Bool}
  {request parse : Instr} {s t v : State} {d : List Byte} {n : Nat} {rest : List LinkEvent} {r : TxnResult}

/-! ## Transactions that the first response completes (R161 to R163) -/

/-- R98, R164: a frame for the unit and the function code of the request is kept, and the parse step decides. -/
theorem transaction_accepts (hreq : isRequest request unit fn a b) (hp : isParse parse) (hd : d.length ≤ 252)
    (hs : s.link.script = ⟨.delivers (encodeFrame unit fn d), n, none⟩ :: rest) (hn : n ≤ p.tTimeout) :
    ∃ v : State, v.req = { valid := true, unit := unit, fn := fn, a := a, b := b } ∧ v.db = s.db ∧ v.dbv = s.dbv ∧
      ∀ w, exec parse (v.accepting (encodeFrame unit fn d)) = .next w → w.result.isError = false →
        transaction p request parse reg isWrite s =
          .next (.success w.result, w.closeRequest.ended 0x00 .none) ∧
        Ran s (w.closeRequest.ended 0x00 .none) 1 [encodeFrame unit fn (payload16 a b)] [] rest := by
  obtain ⟨hfn, s0, htries, hs0, hlink, hhost, -, hdb, hdbv, -⟩ := transaction_eq_tries (p := p) (s := s) hreq
  obtain ⟨v, ⟨-, hvreq, -, -, -, hvdb, hvdbv, -⟩, hend⟩ := tries_accepts (p := p) (unit := unit) (a := a) (b := b)
    (reg := reg) (isWrite := isWrite) (k := 1) hfn hp (hlink ▸ hs) hn
  have hlatch : v.req = { valid := true, unit := unit, fn := fn, a := a, b := b } := hvreq.symm.trans hs0
  have haccept : exec (.accept (encodeFrame unit fn d)) v = .next (v.accepting (encodeFrame unit fn d)) :=
    accept_encoded (by rw [hlatch]) (by rw [hlatch]) (by rw [hlatch]) hd
  refine ⟨v, hlatch, hvdb.symm.trans hdb, hvdbv.symm.trans hdbv, fun w hw hvalue => ?_⟩
  obtain ⟨ht, hran⟩ := hend _ w haccept rfl hw hvalue
  exact ⟨(htries ..).trans ht, hran.of_transaction hlink hhost⟩

theorem length_le_two_of_wordOfData (h : wordOfData d = some w) : d.length ≤ 2 := by
  by_contra hlen
  rw [wordOfData_eq_none (by omega) (by omega)] at h
  cases h

/-- R100: a kept response with one register's data parses to its word. -/
theorem parseRd1_accepting (hfn : v.req.fn = fnRead) (h : wordOfData d = some w) :
    exec .parseRd1 (v.accepting (encodeFrame unit fnRead (readPayload d))) =
      .next ((v.accepting (encodeFrame unit fnRead (readPayload d))).endsNormally (.word w)) :=
  exec_parseRd1_of_word (readData_kept hfn (by have := length_le_two_of_wordOfData h; omega)) h

theorem length_readPayload (d : List Byte) : (readPayload d).length = d.length + 1 := rfl

theorem rdSingle_delivers (h : wordOfData d = some w)
    (hs : s.link.script = ⟨.delivers (encodeFrame unit fnRead (readPayload d)), n, none⟩ :: rest)
    (hn : n ≤ p.tTimeout) :
    ∃ t, rdSingle p unit reg s = .next (.success (.word w), t) ∧
      Ran s t 1 [encodeFrame unit fnRead (payload16 reg 0x0001)] [] rest := by
  have hlen := length_le_two_of_wordOfData h
  obtain ⟨v, hv, -, -, hend⟩ := transaction_accepts (p := p) (reg := reg) (isWrite := false) (.inl ⟨rfl, rfl⟩)
    (.inr (.inl rfl)) (by rw [length_readPayload]; omega) hs hn
  obtain ⟨ht, hran⟩ := hend _ (parseRd1_accepting (by rw [hv]; rfl) h) rfl
  exact ⟨_, ht, hran⟩

theorem rdRange_delivers (hd : d.length ≤ 251)
    (hs : s.link.script = ⟨.delivers (encodeFrame unit fnRead (readPayload d)), n, none⟩ :: rest)
    (hn : n ≤ p.tTimeout) :
    ∃ t, rdRange p unit a b s = .next (.success (.bytes d), t) ∧
      Ran s t 1 [encodeFrame unit fnRead (payload16 a b)] [] rest := by
  obtain ⟨v, hv, -, -, hend⟩ := transaction_accepts (p := p) (reg := a) (isWrite := false) (.inl ⟨rfl, rfl⟩)
    (.inl rfl) (by rw [length_readPayload]; omega) hs hn
  obtain ⟨ht, hran⟩ := hend _ (exec_parseRd_of_data (readData_kept (by rw [hv]; rfl) hd)) rfl
  exact ⟨_, ht, hran⟩

/-- R161, R164: a read whose first response is rejected succeeds with the second. -/
theorem rdSingle_retries {bad : List Byte} {m : Nat} {err : ErrorCause} (h : wordOfData d = some w)
    (hbad : acceptError { valid := true, unit := unit, fn := fnRead, a := reg, b := 0x0001 } bad = some err)
    (hlen : bad.length ≤ 256) (hm : m ≤ p.tTimeout) (hn : n ≤ p.tTimeout)
    (hs : s.link.script = ⟨.delivers bad, m, none⟩ ::
      ⟨.delivers (encodeFrame unit fnRead (readPayload d)), n, none⟩ :: rest) :
    ∃ t, rdSingle p unit reg s = .next (.success (.word w), t) ∧
      Ran s t 2 [encodeFrame unit fnRead (payload16 reg 0x0001), encodeFrame unit fnRead (payload16 reg 0x0001)]
        [.failedAttempt reg false 1 err] rest := by
  obtain ⟨hfn, s0, htries, hs0, hlink, hhost, -⟩ := transaction_eq_tries (p := p) (request := .encRd unit reg 0x0001)
    (s := s) (.inl ⟨rfl, rfl⟩)
  have hnumber : s0.host.attempts = 0 := by rw [hhost]
  obtain ⟨u, hu, hran, -, hureq, -⟩ := tries_rejects (p := p) (unit := unit) (a := reg) (b := 0x0001)
    (parse := .parseRd1) (reg := reg) (isWrite := false) (k := 1) hfn (hlink ▸ hs) hm (by rw [hs0]) hlen
    (by rw [hs0]; exact hbad)
  obtain ⟨v, ⟨-, hvreq, -⟩, hend⟩ := tries_accepts (p := p) (unit := unit) (a := reg) (b := 0x0001) (reg := reg)
    (isWrite := false) (k := 0) hfn (.inr (.inl rfl)) hran.script hn
  have hlatch := hvreq.symm.trans (hureq.trans hs0)
  have hdata := length_le_two_of_wordOfData h
  obtain ⟨ht, hran'⟩ := hend _ _
    (accept_encoded (by rw [hlatch]) (by rw [hlatch]) (by rw [hlatch]; rfl) (by rw [length_readPayload]; omega)) rfl
    (parseRd1_accepting (by rw [hlatch]; rfl) h) rfl
  have hall := (hran.trans hran').of_transaction hlink hhost
  rw [hnumber] at hall
  exact ⟨_, (htries ..).trans (hu.trans ht), hall⟩

/-- Settles O54: an answer of two bytes, of one byte, a rejected answer first, and a range. -/
theorem readReturnsTheDeliveredWord : Obligations.ReadReturnsTheDeliveredWord := by
  intro p unit reg v b s n rest hn
  refine ⟨fun hs => ?_, fun hs => ?_, fun bad m err hm hlen hbad hs => ?_, fun count d hd hs => ?_⟩
  · obtain ⟨t, ht, hran⟩ := rdSingle_delivers (reg := reg) (d := [hi8 v, lo8 v]) rfl hs hn
    rw [be16_hi8_lo8] at ht
    exact ⟨t, ht, hran.script, hran.added.sent, by simpa using hran.added.log⟩
  · obtain ⟨t, ht, hran⟩ := rdSingle_delivers (reg := reg) (d := [b]) rfl hs hn
    exact ⟨t, ht, hran.script⟩
  · obtain ⟨t, ht, hran⟩ := rdSingle_retries (d := [hi8 v, lo8 v]) rfl hbad hlen hm hn hs
    rw [be16_hi8_lo8] at ht
    exact ⟨t, ht, hran.script, hran.two, hran.added.sent, hran.added.log⟩
  · obtain ⟨t, ht, hran⟩ := rdRange_delivers (a := reg) (b := count) hd hs hn
    exact ⟨t, ht, hran.script, hran.one, hran.added.sent, by simpa using hran.added.log⟩

/-! ## The echo of a write (R163, R185) -/

/-- R101: a kept response of the write format echoes the request exactly when its two words are the request's. -/
theorem echoMatches_accepting :
    echoMatches (v.accepting (encodeFrame unit fnWrite (payload16 reg' value'))) =
      decide (reg' = v.req.a ∧ value' = v.req.b) := by
  have hbyte : ∀ i (hi : i < 8), (v.accepting (encodeFrame unit fnWrite (payload16 reg' value'))).rxb[i] =
      (encodeFrame unit fnWrite (payload16 reg' value'))[i] := fun i hi =>
    getElem_kept v (encodeFrame unit fnWrite (payload16 reg' value')) i (by omega) hi
  have hreg : be16 (hi8 reg') (lo8 reg') = reg' := be16_hi8_lo8 reg'
  have hvalue : be16 (hi8 value') (lo8 value') = value' := be16_hi8_lo8 value'
  rw [Bool.eq_iff_iff, echoMatches_eq_true, decide_eq_true_iff, hbyte 2 (by decide), hbyte 3 (by decide),
    hbyte 4 (by decide), hbyte 5 (by decide)]
  simp [encodeFrame, frameBytes, payload16, hreg, hvalue]

theorem wrSingle_of_transaction (h : transaction p (.encWr unit reg value) .parseWr reg true s = .next (r, t)) :
    wrSingle p unit reg value s =
      .next (r, if r = .success (.bool false) then t.logged (.echoMismatch reg value) else t) := by
  unfold wrSingle
  rw [h, andThen_next]
  change (if r = .success (.bool false) then _ else _) = _
  split <;> rfl

/-- R163: a write response in time ends the write, the echo right or wrong; a wrong one is logged and leaves WARN. -/
theorem wrSingle_delivers
    (hs : s.link.script = ⟨.delivers (encodeFrame unit fnWrite (payload16 reg' value')), n, none⟩ :: rest)
    (hn : n ≤ p.tTimeout) :
    ∃ t, wrSingle p unit reg value s = .next (.success (.bool (decide (reg' = reg ∧ value' = value))), t) ∧
      Ran s t 1 [encodeFrame unit fnWrite (payload16 reg value)]
        (if reg' = reg ∧ value' = value then [] else [.echoMismatch reg value]) rest ∧
      t.status.warn = decide (¬ (reg' = reg ∧ value' = value)) := by
  obtain ⟨v, hv, -, -, hend⟩ := transaction_accepts (p := p) (reg := reg) (isWrite := true)
    (fn := fnWrite) (request := .encWr unit reg value) (.inr ⟨rfl, rfl⟩) (.inr (.inr (.inl rfl))) (by simp) hs hn
  have hparse := exec_parseWr (s := v.accepting (encodeFrame unit fnWrite (payload16 reg' value')))
    (hasResponse_eq_true.2 ⟨rfl, by simp [hv, fnWrite]⟩)
  have hecho := echoMatches_accepting (v := v) (unit := unit) (reg' := reg') (value' := value')
  rw [hv] at hecho
  rw [hecho] at hparse
  obtain ⟨ht, hran⟩ := hend _ hparse rfl
  refine ⟨_, wrSingle_of_transaction ht, ?_⟩
  by_cases hsame : reg' = reg ∧ value' = value
  · simpa [hsame] using hran
  · simpa [hsame, State.logged] using hran.logged (.echoMismatch reg value)

/-- Settles O55: the result is the echo, and a false one is logged. -/
theorem writeMismatchIsALoggedSuccess : Obligations.WriteMismatchIsALoggedSuccess := by
  intro p unit reg value reg' value' s n rest hs hn
  obtain ⟨t, ht, hran, hwarn⟩ := wrSingle_delivers (reg := reg) (value := value) hs hn
  exact ⟨t, ht, hran.added.sent, hran.added.log, hwarn⟩

end Sys2Proof.Machine

namespace Sys2Proof.Machine

open Sys2Proof.Config (HostParams)

variable {p : HostParams} {reg value w w' : Word} {s t u : State} {edits : List Edit} {n : Nat}

/-! ## Operations that only answer (R180) -/

/-- The two states differ in STATUS.ERR and on the result interface at most. -/
def State.OnlyAnswers (s t : State) : Prop := ∃ code r, t = s.ended code r

theorem State.OnlyAnswers.refl (s : State) : s.OnlyAnswers s := ⟨s.status.err, s.result, rfl⟩

theorem State.OnlyAnswers.ended (s : State) (code : Byte) (r : Result) : s.OnlyAnswers (s.ended code r) :=
  ⟨code, r, rfl⟩

theorem State.OnlyAnswers.trans (h : s.OnlyAnswers t) (h' : t.OnlyAnswers u) : s.OnlyAnswers u := by
  obtain ⟨_, _, rfl⟩ := h
  obtain ⟨code, r, rfl⟩ := h'
  exact ⟨code, r, rfl⟩

theorem State.OnlyAnswers.link (h : s.OnlyAnswers t) : t.link = s.link := by obtain ⟨_, _, rfl⟩ := h; rfl

theorem State.OnlyAnswers.host (h : s.OnlyAnswers t) : t.host = s.host := by obtain ⟨_, _, rfl⟩ := h; rfl

theorem State.OnlyAnswers.req (h : s.OnlyAnswers t) : t.req = s.req := by obtain ⟨_, _, rfl⟩ := h; rfl

theorem State.OnlyAnswers.db (h : s.OnlyAnswers t) : t.db = s.db := by obtain ⟨_, _, rfl⟩ := h; rfl

theorem State.OnlyAnswers.dbv (h : s.OnlyAnswers t) : t.dbv = s.dbv := by obtain ⟨_, _, rfl⟩ := h; rfl

/-! ## Edits of a packed-flags word (R166) -/

/-- The bit that an edit names. -/
def Edit.index : Edit → Byte
  | .set i => i
  | .clear i => i

/-- R140, R141: the word that an edit makes. -/
def Edit.apply (w : Word) : Edit → Word
  | .set i => setBit w i
  | .clear i => clrBit w i

/-- R166: the word that edits make of the word read, in their order. -/
def edited (edits : List Edit) (w : Word) : Word := edits.foldl Edit.apply w

/-- R166: one edit is one operation, which is refused above bit 15. -/
theorem applyEdits_cons (e : Edit) (edits : List Edit) (w : Word) (s : State) :
    applyEdits (e :: edits) w s =
      if 15 < e.index.toNat then .refused .noSuchBit
      else applyEdits edits (e.apply w) (s.ended 0x00 (.word (e.apply w))) := by
  cases e with
  | set i =>
    change andThen (andThen (withBit i (.word (setBit w i)) s) _) _ = if 15 < i.toNat then _ else _
    unfold withBit
    split <;> rfl
  | clear i =>
    change andThen (andThen (withBit i (.word (clrBit w i)) s) _) _ = if 15 < i.toNat then _ else _
    unfold withBit
    split <;> rfl

theorem applyEdits_of_legal (h : ∀ e ∈ edits, e.index.toNat ≤ 15) (w : Word) (s : State) :
    ∃ t, applyEdits edits w s = .next (edited edits w, t) ∧ s.OnlyAnswers t := by
  induction edits generalizing w s with
  | nil => exact ⟨s, rfl, .refl s⟩
  | cons e edits ih =>
    obtain ⟨he, hedits⟩ := List.forall_mem_cons.1 h
    obtain ⟨t, ht, hanswers⟩ := ih hedits (e.apply w) (s.ended 0x00 (.word (e.apply w)))
    rw [applyEdits_cons, if_neg (Nat.not_lt.2 he)]
    exact ⟨t, ht, (State.OnlyAnswers.ended s _ _).trans hanswers⟩

/-- R166: ComputeTarget answers only where every edit names a bit of the word. -/
theorem legal_of_applyEdits (h : applyEdits edits w s = .next (w', t)) : ∀ e ∈ edits, e.index.toNat ≤ 15 := by
  induction edits generalizing w s with
  | nil => exact nofun
  | cons e edits ih =>
    rw [applyEdits_cons] at h
    split at h
    · cases h
    · next he => exact List.forall_mem_cons.2 ⟨Nat.not_lt.1 he, ih h⟩

theorem edited_of_applyEdits (h : applyEdits edits w s = .next (w', t)) : w' = edited edits w ∧ s.OnlyAnswers t := by
  obtain ⟨u, hu, hanswers⟩ := applyEdits_of_legal (legal_of_applyEdits h) w s
  obtain ⟨rfl, rfl⟩ := Prod.mk.inj (Host.Outcome.next.inj (h.symm.trans hu))
  exact ⟨rfl, hanswers⟩

/-- R142: an edit leaves every bit but the one it names. -/
theorem getBit_apply_of_ne (e : Edit) {j : Byte} (hj : j.toNat ≤ 15) (hne : j ≠ e.index) :
    getBit (some (e.apply w)) j = getBit (some w) j := by
  cases e with
  | set i => exact (getBit_setBit w i j hj).trans (if_neg hne)
  | clear i => exact (getBit_clrBit w i j hj).trans (if_neg hne)

/-- R142: a bit that no edit names is as it was read. -/
theorem getBit_edited_of_unnamed {j : Byte} (hj : j.toNat ≤ 15) (hset : .set j ∉ edits) (hclear : .clear j ∉ edits) :
    getBit (some (edited edits w)) j = getBit (some w) j := by
  induction edits generalizing w with
  | nil => rfl
  | cons e edits ih =>
    rw [List.mem_cons, not_or] at hset hclear
    have hne : j ≠ e.index := by
      rintro rfl
      cases e with
      | set i => exact hset.1 rfl
      | clear i => exact hclear.1 rfl
    exact (ih hset.2 hclear.2).trans (getBit_apply_of_ne e hj hne)

/-- R166: a named bit is as its last edit says. -/
theorem getBit_edited_of_last {before after : List Edit} (e : Edit) (hj : e.index.toNat ≤ 15)
    (hset : .set e.index ∉ after) (hclear : .clear e.index ∉ after) :
    getBit (some (edited (before ++ e :: after) w)) e.index = getBit (some (e.apply (edited before w))) e.index := by
  have hsplit : edited (before ++ e :: after) w = edited after (e.apply (edited before w)) := List.foldl_append
  rw [hsplit, getBit_edited_of_unnamed hj hset hclear]

/-- R216: edits of the low byte leave the high byte. -/
theorem hi8_edited_of_low (h : ∀ e ∈ edits, e.index.toNat ≤ 7) : hi8 (edited edits w) = hi8 w := by
  induction edits generalizing w with
  | nil => rfl
  | cons e edits ih =>
    obtain ⟨he, hedits⟩ := List.forall_mem_cons.1 h
    refine (ih hedits).trans (BitVec.eq_of_getLsbD_eq fun i hi => ?_)
    have hbit : (e.apply w).getLsbD (8 + i) = w.getLsbD (8 + i) := by
      cases e with
      | set j =>
        have hne : j.toNat ≠ 8 + i := by simp only [Edit.index] at he; omega
        exact (getLsbD_setBit w j (by omega)).trans (by rw [decide_eq_false hne, Bool.false_or])
      | clear j =>
        have hne : j.toNat ≠ 8 + i := by simp only [Edit.index] at he; omega
        exact (getLsbD_clrBit w j (by omega)).trans (by rw [decide_eq_false hne, Bool.not_false, Bool.true_and])
    simp only [hi8, BitVec.getLsbD_extractLsb', hbit]

/-- R38: the high byte of a one-byte answer is zero. -/
theorem hi8_setWidth (b : Byte) : hi8 (b.setWidth 16) = 0x00 := by
  refine BitVec.eq_of_getLsbD_eq fun i hi => ?_
  simp [hi8, BitVec.getLsbD_extractLsb']

/-! ### The edits that name every bit (R142, log entry 29) -/

/-- The edit that gives bit i the value it has in a word. -/
def wholeEdit (value : Word) (i : Nat) : Edit :=
  if value.getLsbD i then .set (BitVec.ofNat 8 i) else .clear (BitVec.ofNat 8 i)

theorem wholeEdits_eq (value : Word) : wholeEdits value = (List.range 16).map (wholeEdit value) := rfl

theorem index_wholeEdit (value : Word) {i : Nat} (hi : i < 16) : (wholeEdit value i).index.toNat = i := by
  unfold wholeEdit
  split <;> simp only [Edit.index, BitVec.toNat_ofNat] <;> omega

theorem legal_wholeEdits (value : Word) : ∀ e ∈ wholeEdits value, e.index.toNat ≤ 15 := by
  rw [wholeEdits_eq]
  intro e he
  obtain ⟨i, hi, rfl⟩ := List.mem_map.1 he
  rw [index_wholeEdit value (List.mem_range.1 hi)]
  exact Nat.le_of_lt_succ (List.mem_range.1 hi)

theorem getLsbD_apply_wholeEdit (value w : Word) {i n : Nat} (hi : i < 16) (hn : n < 16) :
    ((wholeEdit value i).apply w).getLsbD n = if n = i then value.getLsbD i else w.getLsbD n := by
  have hindex : (BitVec.ofNat 8 i).toNat = i := by rw [BitVec.toNat_ofNat]; omega
  unfold wholeEdit
  split
  · next hset => simp [Edit.apply, getLsbD_setBit _ _ hn, hindex, hset, eq_comm]
  · next hclear => simp [Edit.apply, getLsbD_clrBit _ _ hn, hindex, hclear, eq_comm]

theorem edited_wholeEdits (value w : Word) : edited (wholeEdits value) w = value := by
  have hbits : ∀ k ≤ 16, ∀ n < 16, (edited ((List.range k).map (wholeEdit value)) w).getLsbD n =
      if n < k then value.getLsbD n else w.getLsbD n := by
    intro k hk n hn
    induction k with
    | zero => rfl
    | succ k ih =>
      have hlast : edited ((List.range (k + 1)).map (wholeEdit value)) w =
          (wholeEdit value k).apply (edited ((List.range k).map (wholeEdit value)) w) := by
        rw [List.range_succ, List.map_append]
        exact List.foldl_append
      rw [hlast, getLsbD_apply_wholeEdit value _ hk hn, ih (by omega)]
      by_cases hnk : n = k
      · rw [if_pos hnk, hnk, if_pos (Nat.lt_succ_self k)]
      · rw [if_neg hnk]
        exact if_congr (by omega) rfl rfl
  rw [wholeEdits_eq]
  exact BitVec.eq_of_getLsbD_eq fun n hn => (hbits 16 le_rfl n hn).trans (if_pos hn)

end Sys2Proof.Machine

namespace Sys2Proof.Machine

open Sys2Proof.Config (HostParams)

variable {p : HostParams} {c : Command} {unit fn : Byte} {reg value w w' : Word} {request parse : Instr}
  {isWrite : Bool} {s t u : State} {edits : List Edit} {plain : List (Word × Word)} {n m : Nat}
  {rest : List LinkEvent} {r : TxnResult} {x : Result}

/-! ## A write that fails (R163, R164) -/

theorem wrSingle_failed (h : wrSingle p unit reg value s = .next (.failed, t)) :
    transaction p (.encWr unit reg value) .parseWr reg true s = .next (.failed, t) := by
  obtain ⟨⟨r, u⟩, hu, h⟩ := andThen_eq_next.1 h
  simp only at h
  split at h
  · next hr => cases h; cases hr
  · cases h; exact hu

/-- R163, R164: a write to which nothing is answered fails after two attempts. -/
theorem wrSingle_silent (hs : s.link.script = ⟨.silence, n, none⟩ :: ⟨.silence, m, none⟩ :: rest) :
    ∃ t, wrSingle p unit reg value s = .next (.failed, t) ∧
      Ran s t 2 [encodeFrame unit fnWrite (payload16 reg value), encodeFrame unit fnWrite (payload16 reg value)]
        [.failedAttempt reg true 1 .transportTimeout, .failedAttempt reg true 2 .transportTimeout] rest := by
  obtain ⟨hfn, s0, htries, hs0, hlink, hhost, -⟩ := transaction_eq_tries (p := p) (fn := fnWrite)
    (request := .encWr unit reg value) (s := s) (.inr ⟨rfl, rfl⟩)
  have hnumber : s0.host.attempts = 0 := by rw [hhost]
  obtain ⟨u, hu, hran, -, hunumber⟩ := tries_fails (p := p) (unit := unit) (a := reg) (b := value)
    (parse := .parseWr) (reg := reg) (isWrite := true) (k := 1) (e := ⟨.silence, n, none⟩) (err := .transportTimeout)
    hfn (.inr (.inr (.inl rfl))) (hlink ▸ hs) rfl (s0 := s0) rfl rfl rfl rfl rfl
  obtain ⟨v, hv, hran', -⟩ := tries_fails (p := p) (unit := unit) (a := reg) (b := value)
    (parse := .parseWr) (reg := reg) (isWrite := true) (k := 0) (e := ⟨.silence, m, none⟩) (err := .transportTimeout)
    hfn (.inr (.inr (.inl rfl))) hran.script rfl (s0 := u) rfl rfl rfl rfl rfl
  have hall := ((hran.trans hran').of_transaction hlink hhost).of_same (u := v.closeRequest.ended 0x00 .none) rfl rfl
  rw [hunumber, hnumber] at hall
  exact ⟨_, wrSingle_of_transaction ((htries ..).trans (hu.trans (hv.trans (tries_zero ..)))), hall⟩

/-! ## The command machine, phase by phase (R166) -/

theorem command_of_legal (h : c.legal p = true) : command p c s = carryOut p c s := if_pos h

theorem writeAll_of_success (h : wrSingle p p.unit reg value s = .next (.success x, t)) :
    writeAll p c ((reg, value) :: plain) s = writeAll p c plain t := by
  conv_lhs => unfold writeAll
  rw [h]
  rfl

theorem writeAll_of_failed (h : wrSingle p p.unit reg value s = .next (.failed, t)) :
    writeAll p c ((reg, value) :: plain) s = commandFails c reg true t := by
  unfold writeAll
  rw [h]
  rfl

theorem carryOut_of_plain (h : c.packed = none) : carryOut p c s = writeAll p c c.plain (s.enter .write) := by
  unfold carryOut
  rw [h]

theorem carryOut_of_read_failed (hc : c.packed = some (reg, edits))
    (h : rdSingle p p.unit reg (s.enter .readCurrent) = .next (.failed, t)) :
    carryOut p c s = commandFails c reg false t := by
  unfold carryOut
  simp only [hc, h, andThen_next]

theorem carryOut_of_edited {t1 t2 t3 : State} (hc : c.packed = some (reg, edits))
    (hread : rdSingle p p.unit reg (s.enter .readCurrent) = .next (.success (.word w), t1))
    (htest : alreadySet c.skipIf w (t1.enter .computeTarget) = .next (false, t2))
    (hedits : applyEdits edits w t2 = .next (w', t3)) :
    carryOut p c s = writeAll p c ((reg, w') :: c.plain) (t3.enter .write) := by
  unfold carryOut
  simp only [hc, hread, htest, hedits, andThen_next, Bool.false_eq_true, if_false]

/-- R167, N2: the test of the bit only answers. -/
theorem alreadySet_onlyAnswers {i : Option Byte} {b : Bool} (h : alreadySet i w s = .next (b, t)) :
    s.OnlyAnswers t := by
  cases i with
  | none => cases h; exact .refl s
  | some i => cases h; exact .ended s _ _

theorem alreadySet_of_clear {i : Option Byte} (h : ∀ j, i = some j → getBit (some w) j = false) :
    ∃ t, alreadySet i w s = .next (false, t) ∧ s.OnlyAnswers t := by
  cases i with
  | none => exact ⟨s, rfl, .refl s⟩
  | some j =>
    refine ⟨s.ended 0x00 (.bit (getBit (some w) j)), ?_, .ended s _ _⟩
    change Host.Outcome.next (decide (Result.bit (getBit (some w) j) = .bit true), _) = _
    rw [h j rfl]
    rfl

/-! ### Commands that the link answers -/

/-- R166: with the word read delivered in time, the command comes to its writes. -/
theorem carryOut_reads {d : List Byte} (hc : c.packed = some (reg, edits))
    (hs : s.link.script = ⟨.delivers (encodeFrame p.unit fnRead (readPayload d)), n, none⟩ :: rest)
    (hn : n ≤ p.tTimeout) (hw : wordOfData d = some w) (hskip : ∀ i, c.skipIf = some i → getBit (some w) i = false)
    (hlegal : ∀ e ∈ edits, e.index.toNat ≤ 15) :
    ∃ t, carryOut p c s = writeAll p c ((reg, edited edits w) :: c.plain) t ∧ t.link.script = rest ∧
      s.Added t [encodeFrame p.unit fnRead (payload16 reg 0x0001)] [] [.readCurrent, .computeTarget, .write] [] := by
  obtain ⟨t1, hread, hran⟩ := rdSingle_delivers (p := p) (reg := reg) (s := s.enter .readCurrent) hw hs hn
  obtain ⟨t2, htest, h2⟩ := alreadySet_of_clear (s := t1.enter .computeTarget) hskip
  obtain ⟨t3, hedits, h3⟩ := applyEdits_of_legal hlegal w t2
  have hanswers := h2.trans h3
  have hread' : s.Added t1 _ _ _ _ := ((State.Added.refl s).enter .readCurrent).trans hran.added
  exact ⟨_, carryOut_of_edited hc hread htest hedits, (congrArg Link.script hanswers.link).trans hran.script,
    ((hread'.enter .computeTarget).of_same hanswers.link hanswers.host).enter .write⟩

/-- R166: a write that is echoed in time is done. -/
theorem writeAll_echoed
    (hs : s.link.script = ⟨.delivers (encodeFrame p.unit fnWrite (payload16 reg value)), n, none⟩ :: rest)
    (hn : n ≤ p.tTimeout) :
    ∃ t, writeAll p c ((reg, value) :: plain) s = writeAll p c plain t ∧ t.link.script = rest ∧
      s.Added t [encodeFrame p.unit fnWrite (payload16 reg value)] [] [] [] := by
  obtain ⟨t, ht, hran, -⟩ := wrSingle_delivers (reg := reg) (value := value) hs hn
  exact ⟨t, writeAll_of_success ht, hran.script, by simpa using hran.added⟩

theorem writeAll_nil (p : HostParams) (c : Command) (s : State) :
    writeAll p c [] s = .next (true, (s.reported (.acknowledged c)).enter .idle) := rfl

/-! ## CMD.RMW and writes without a read (R166, R142, R144) -/

theorem rmwCommand_legal (h : isPacked p reg = true) (edits : List Edit) : (rmwCommand reg edits).legal p = true := by
  simp [Command.legal, rmwCommand, h]

theorem writeCommand_of_unpacked (h : isPacked p reg = false) (value : Word) :
    writeCommand p reg value = { packed := none, plain := [(reg, value)], skipIf := none } :=
  if_neg (by simp [h])

theorem writeCommand_of_packed (h : isPacked p reg = true) (value : Word) :
    writeCommand p reg value = rmwCommand reg (wholeEdits value) :=
  if_pos h

/-- R144: a value for a register that is not packed comes to its write at once. -/
theorem command_writeCommand (h : isPacked p reg = false) (value : Word) (s : State) :
    command p (writeCommand p reg value) s =
      writeAll p (writeCommand p reg value) [(reg, value)] (s.enter .write) := by
  rw [writeCommand_of_unpacked h, command_of_legal (by simp [Command.legal, h])]
  exact carryOut_of_plain rfl

theorem command_of_illegal (h : c.legal p = false) : command p c s = turnAway c s :=
  if_neg (by simp [h])

/-- R64, R38: an answer of two bytes or of one, as the data of a response. -/
theorem exists_data_of_answer {answer : List Byte}
    (h : answer = [2, hi8 w, lo8 w] ∨ ∃ b : Byte, answer = [1, b] ∧ w = b.setWidth 16) :
    ∃ d, answer = readPayload d ∧ wordOfData d = some w := by
  rcases h with rfl | ⟨b, rfl, rfl⟩
  · exact ⟨[hi8 w, lo8 w], rfl, congrArg some (be16_hi8_lo8 w)⟩
  · exact ⟨[b], rfl, rfl⟩

/-- R216: the word of a one-byte answer has a high byte of zero. -/
theorem hi8_of_short_answer {answer : List Byte} {b : Byte} (hb : answer = [1, b])
    (h : answer = [2, hi8 w, lo8 w] ∨ ∃ b : Byte, answer = [1, b] ∧ w = b.setWidth 16) : hi8 w = 0x00 := by
  rcases h with rfl | ⟨b', rfl, rfl⟩
  · cases hb
  · exact hi8_setWidth b'

/-- R142: what edits make of the word read, bit by bit. -/
theorem applyEdits_bits (h : ∀ e ∈ edits, ∃ i : Byte, i.toNat ≤ 15 ∧ (e = .set i ∨ e = .clear i)) (w : Word)
    (s : State) :
    ∃ w' t, applyEdits edits w s = .next (w', t) ∧ t.req = s.req ∧ t.link = s.link ∧
      (∀ j : Byte, j.toNat ≤ 15 → .set j ∉ edits → .clear j ∉ edits → getBit (some w') j = getBit (some w) j) ∧
      (∀ (before after : List Edit) (j : Byte), .set j ∉ after → .clear j ∉ after →
        (edits = before ++ .set j :: after → getBit (some w') j = true) ∧
        (edits = before ++ .clear j :: after → getBit (some w') j = false)) := by
  have hlegal : ∀ e ∈ edits, e.index.toNat ≤ 15 := by
    intro e he
    obtain ⟨i, hi, rfl | rfl⟩ := h e he <;> exact hi
  obtain ⟨t, ht, hanswers⟩ := applyEdits_of_legal hlegal w s
  refine ⟨_, t, ht, hanswers.req, hanswers.link, fun j hj => getBit_edited_of_unnamed hj,
    fun before after j hset hclear => ⟨?_, ?_⟩⟩
  · rintro rfl
    have hj : j.toNat ≤ 15 := hlegal (.set j) (by simp)
    exact (getBit_edited_of_last (.set j) hj hset hclear).trans ((getBit_setBit _ j j hj).trans (if_pos rfl))
  · rintro rfl
    have hj : j.toNat ≤ 15 := hlegal (.clear j) (by simp)
    exact (getBit_edited_of_last (.clear j) hj hset hclear).trans ((getBit_clrBit _ j j hj).trans (if_pos rfl))

/-- R166: read, edit, one write: the command is acknowledged. -/
theorem rmwCommand_delivers {d : List Byte} (hpacked : isPacked p reg = true) (hn : n ≤ p.tTimeout)
    (hm : m ≤ p.tTimeout) (hw : wordOfData d = some w) (hlegal : ∀ e ∈ edits, e.index.toNat ≤ 15)
    (hs : s.link.script = ⟨.delivers (encodeFrame p.unit fnRead (readPayload d)), n, none⟩ ::
      ⟨.delivers (encodeFrame p.unit fnWrite (payload16 reg (edited edits w))), m, none⟩ :: rest) :
    ∃ t, command p (rmwCommand reg edits) s = .next (true, t) ∧ t.link.script = rest ∧
      s.Added t [encodeFrame p.unit fnRead (payload16 reg 0x0001),
        encodeFrame p.unit fnWrite (payload16 reg (edited edits w))] [] [.readCurrent, .computeTarget, .write, .idle]
        [.acknowledged (rmwCommand reg edits)] := by
  obtain ⟨t1, h1, hs1, hadd1⟩ := carryOut_reads (p := p) (c := rmwCommand reg edits) rfl hs hn hw nofun hlegal
  obtain ⟨t2, h2, hs2, hadd2⟩ := writeAll_echoed (p := p) (c := rmwCommand reg edits) (plain := []) hs1 hm
  exact ⟨_, (command_of_legal (rmwCommand_legal hpacked edits)).trans (h1.trans (h2.trans (writeAll_nil ..))), hs2,
    ((hadd1.trans hadd2).reported _).enter .idle⟩

/-- R166, R214: how a state stands after a command failed at a register. -/
abbrev State.commandFailed (s : State) (c : Command) (reg : Word) (isWrite : Bool) : State :=
  ((s.logged (.failedCommand reg isWrite)).reported (.commandFailed c)).enter .idle

theorem State.Added.commandFailed {frames : List (List Byte)} {log : List LogEntry} {trail : List Phase}
    (h : s.Added t frames log trail []) (c : Command) (reg : Word) (isWrite : Bool) :
    s.Added (t.commandFailed c reg isWrite) frames (log ++ [.failedCommand reg isWrite]) (trail ++ [.idle])
      [.commandFailed c] :=
  ((h.logged _).reported _).enter .idle

/-- R166: a failed read ends the command: no more than the two attempts of that read were made. -/
theorem command_of_read_failed (hlegal : c.legal p = true) (hc : c.packed = some (reg, edits))
    (h : rdSingle p p.unit reg (s.enter .readCurrent) = .next (.failed, t)) :
    command p c s = .next (false, t.commandFailed c reg false) ∧ ∃ n ≤ 2, ∃ log,
      s.Added t (List.replicate n (encodeFrame p.unit fnRead (payload16 reg 0x0001))) log [.readCurrent] [] := by
  obtain ⟨made, n, new, htried, hmost, -⟩ := transaction_bounded (.inl ⟨rfl, rfl⟩) (.inr (.inl rfl)) h
  exact ⟨(command_of_legal hlegal).trans (carryOut_of_read_failed hc h), n, htried.sends.trans hmost, new,
    ((State.Added.refl s).enter .readCurrent).trans htried.added⟩

theorem rdSingle_added (h : rdSingle p unit reg s = .next (r, t)) : ∃ frames log, s.Added t frames log [] [] := by
  obtain ⟨made, n, new, htried, -⟩ := transaction_bounded (.inl ⟨rfl, rfl⟩) (.inr (.inl rfl)) h
  exact ⟨_, _, htried.added⟩

theorem wrSingle_failed_added (h : wrSingle p unit reg value s = .next (.failed, t)) :
    ∃ frames log, s.Added t frames log [] [] := by
  obtain ⟨made, n, new, htried, -⟩ := transaction_bounded (.inr ⟨rfl, rfl⟩) (.inr (.inr (.inl rfl)))
    (wrSingle_failed h)
  exact ⟨_, _, htried.added⟩

/-- R166, R214: a failed write of the packed register ends the command, and nothing more is sent. -/
theorem command_of_write_failed {t1 t2 t3 t4 : State} (hlegal : c.legal p = true)
    (hc : c.packed = some (reg, edits))
    (hread : rdSingle p p.unit reg (s.enter .readCurrent) = .next (.success (.word w), t1))
    (htest : alreadySet c.skipIf w (t1.enter .computeTarget) = .next (false, t2))
    (hedits : applyEdits edits w t2 = .next (w', t3))
    (hwrite : wrSingle p p.unit reg w' (t3.enter .write) = .next (.failed, t4)) :
    command p c s = .next (false, t4.commandFailed c reg true) ∧ ∃ frames log,
      s.Added t4 frames log [.readCurrent, .computeTarget, .write] [] := by
  obtain ⟨_, _, hadd1⟩ := rdSingle_added hread
  have hanswers := (alreadySet_onlyAnswers htest).trans (edited_of_applyEdits hedits).2
  obtain ⟨_, _, hadd2⟩ := wrSingle_failed_added hwrite
  have hwrites := ((((State.Added.refl s).enter .readCurrent).trans hadd1).enter .computeTarget).of_same
    hanswers.link hanswers.host
  have hrun := (carryOut_of_edited hc hread htest hedits).trans (writeAll_of_failed hwrite)
  exact ⟨(command_of_legal hlegal).trans hrun, _, _, (hwrites.enter .write).trans hadd2⟩

/-- Settles O57: a lemma for each clause. -/
theorem editsKeepUnnamedBits : Obligations.EditsKeepUnnamedBits := by
  refine ⟨fun edits w s h => applyEdits_bits h w s, ?_, ?_, ?_, ?_, ?_, ?_, ?_⟩
  · intro p reg w w' answer edits s u n1 n2 rest hpacked hedits hn1 hn2 hanswer hs
    obtain ⟨d, rfl, hw⟩ := exists_data_of_answer hanswer
    obtain ⟨rfl, -⟩ := edited_of_applyEdits hedits
    obtain ⟨t, ht, hscript, hadd⟩ := rmwCommand_delivers hpacked hn1 hn2 hw (legal_of_applyEdits hedits) hs
    refine ⟨t, ht, hscript, hadd.sent, hadd.trail, hadd.reports, by simpa using hadd.log, ?_⟩
    rintro ⟨b, hb⟩ hlow
    refine (hi8_edited_of_low fun e he => ?_).trans (hi8_of_short_answer hb hanswer)
    obtain ⟨i, hi, rfl | rfl⟩ := hlow e he <;> exact hi
  · intro p c reg edits s t1 hlegal hc _ hread
    obtain ⟨hrun, n, hn, log, hadd⟩ := command_of_read_failed hlegal hc hread
    have hall := hadd.commandFailed c reg false
    exact ⟨_, n, hrun, rfl, hn, hall.sent, rfl, hall.reports, rfl, hall.trail⟩
  · intro p c reg w w' edits s t1 t2 t3 t4 hlegal hc hread htest hedits hwrite
    obtain ⟨hrun, frames, log, hadd⟩ := command_of_write_failed hlegal hc hread htest hedits hwrite
    have hall := hadd.commandFailed c reg true
    exact ⟨_, hrun, rfl, rfl, hall.reports, rfl, hall.trail⟩
  · intro p reg value s t1 hpacked hwrite
    obtain ⟨frames, log, hadd⟩ := wrSingle_failed_added hwrite
    have hall := (((State.Added.refl s).enter .write).trans hadd).commandFailed (writeCommand p reg value) reg true
    exact ⟨_, (command_writeCommand hpacked value s).trans (writeAll_of_failed hwrite), rfl, rfl, hall.reports, rfl,
      hall.trail⟩
  · intro p reg value w s hpacked
    obtain ⟨t, ht, -⟩ := applyEdits_of_legal (edits := wholeEdits value) (legal_wholeEdits value) w s
    rw [edited_wholeEdits] at ht
    exact ⟨writeCommand_of_packed hpacked value, t, ht⟩
  · intro p reg value s n rest hpacked hn hs
    obtain ⟨t, ht, hscript, hadd⟩ := writeAll_echoed (p := p) (c := writeCommand p reg value) (plain := [])
      (s := s.enter .write) hs hn
    have hall := ((((State.Added.refl s).enter .write).trans hadd).reported
      (.acknowledged (writeCommand p reg value))).enter .idle
    exact ⟨_, (command_writeCommand hpacked value s).trans (ht.trans (writeAll_nil ..)), hscript, hall.sent,
      hall.trail, hall.reports, by simpa using hall.log⟩
  · intro p reg edits s hpacked
    exact ⟨_, command_of_illegal (by simp [Command.legal, rmwCommand, hpacked]), rfl, rfl, rfl⟩

/-! ## The Heating command (R167) -/

theorem heatingCommand_legal (p : HostParams) : (heatingCommand p).legal p = true := by
  simp [Command.legal, heatingCommand, isPacked, packedNamed, addrUnitState, addrOperationMode, addrPowerfulSilent,
    addrHoliday]

/-- Settles O58: the read and the first write (`carryOut_reads`, `writeAll_echoed`), then both ends of the second. -/
theorem heatingIssuesTwoWrites : Obligations.HeatingIssuesTwoWrites := by
  intro p w s n1 n2 rest hclear hn1 hn2 hs sent
  have hskip : ∀ i, (heatingCommand p).skipIf = some i → getBit (some w) i = false := by
    intro i hi
    simp only [heatingCommand] at hi
    split at hi
    · cases hi; exact hclear
    · cases hi
  obtain ⟨t1, h1, hs1, hadd1⟩ := carryOut_reads (p := p) (c := heatingCommand p) (d := [hi8 w, lo8 w]) rfl hs hn1 rfl
    (by rwa [be16_hi8_lo8]) (by simp [Edit.index, bitUnitState])
  rw [be16_hi8_lo8] at h1
  obtain ⟨t2, h2, hs2, hadd2⟩ := writeAll_echoed (p := p) (c := heatingCommand p) (plain := (heatingCommand p).plain)
    (reg := addrUnitState) (value := edited [.set bitUnitState] w) hs1 hn2
  have hrun : command p (heatingCommand p) s =
      writeAll p (heatingCommand p) [(addrOperationMode, modeHeating)] t2 :=
    (command_of_legal (heatingCommand_legal p)).trans (h1.trans h2)
  have hadd := hadd1.trans hadd2
  constructor
  · intro n3 rest' hn3 hrest
    obtain ⟨t3, h3, hs3, hadd3⟩ := writeAll_echoed (p := p) (c := heatingCommand p) (plain := [])
      (reg := addrOperationMode) (value := modeHeating) (hs2.trans hrest) hn3
    have hall := (((hadd.trans hadd3).reported (.acknowledged (heatingCommand p))).enter .idle)
    exact ⟨_, hrun.trans (h3.trans (writeAll_nil ..)), hs3, hall.sent, hall.trail, hall.reports,
      by simpa using hall.log⟩
  · intro n3 n4 rest' hrest
    obtain ⟨t3, h3, hran⟩ := wrSingle_silent (p := p) (unit := p.unit) (reg := addrOperationMode)
      (value := modeHeating) (hs2.trans hrest)
    have hall := ((((hadd.trans hran.added).logged (.failedCommand addrOperationMode true)).reported
      (.commandFailed (heatingCommand p))).enter .idle)
    exact ⟨_, hrun.trans (writeAll_of_failed h3), hran.script, by rw [List.append_assoc]; exact hall.sent, hall.trail,
      hall.reports, hall.log⟩

end Sys2Proof.Machine

namespace Sys2Proof.Machine

open Sys2Proof.Config (HostParams)

variable {p : HostParams} {s t u : State} {v : Verdict}

/-! ## What an attempt leaves in the block (R160, R206) -/

/-- The ends of an attempt, as the block sees them: PWFC was reset; nothing reached the block; or bytes were judged. -/
inductive AttemptEnd (parse : Instr) (s : State) : Verdict → State → Prop where
  | reset (seen : Result) (u : State) : AttemptEnd parse s (.abandoned seen) u.resetEvent
  | unanswered (cause : ErrorCause) {t : State} (h : t.sameBlock s) : AttemptEnd parse s (.failure cause) t
  | judged (d : List Byte) {u t : State} {v : Verdict} (h : u.sameBlock s)
      (hj : judge d parse none u = .next (v, t)) : AttemptEnd parse s v t

section
variable {parse : Instr} {e : LinkEvent}

theorem judge_end {d : List Byte} {reset : Option ResetPoint} (hb : u.sameBlock s)
    (h : judge d parse reset u = .next (v, t)) : AttemptEnd parse s v t := by
  by_cases hreset : reset = some .accepted
  · obtain ⟨w, hw, h⟩ := andThen_eq_next.1 h
    split at h
    · next he =>
      cases h
      refine .judged d hb ?_
      unfold judge
      rw [hw, andThen_next, he]
    · rw [if_pos hreset] at h
      cases h
      exact .reset _ w
  · refine .judged d hb ?_
    unfold judge at h ⊢
    simpa only [hreset, reduceCtorEq, if_false] using h

theorem linkFails_end {cause : ErrorCause} {k : Nat} (hb : u.sameBlock s)
    (h : linkFails p cause k u = .next (v, t)) : AttemptEnd parse s v t := by
  cases h
  exact .unanswered cause hb

theorem inTime_end {f : State → HostOut Verdict} (hb : u.sameBlock s) (h : inTime p e f u = .next (v, t))
    (hf : f u = .next (v, t) → AttemptEnd parse s v t) : AttemptEnd parse s v t := by
  unfold inTime at h
  split at h
  · exact linkFails_end hb h
  · exact hf h

theorem receive_end {d : Option (List Byte)} (hb : u.sameBlock s) (h : receive p e d parse u = .next (v, t)) :
    AttemptEnd parse s v t := by
  unfold receive at h
  split at h
  · exact linkFails_end hb h
  · exact inTime_end hb h (judge_end hb)

theorem respond_end (hb : u.sameBlock s) (h : respond p e parse u = .next (v, t)) : AttemptEnd parse s v t := by
  unfold respond at h
  split at h
  · exact linkFails_end hb h
  · exact inTime_end hb h (linkFails_end hb)
  · exact receive_end hb h
  · exact receive_end hb h
  · exact receive_end hb h

theorem exchange_end {unit fn : Byte} {a b : Word} (hfn : fn = fnRead ∨ fn = fnWrite) (hb : u.sameBlock s)
    (h : exchange p e (encodeFrame unit fn (payload16 a b)) parse u = .next (v, t)) : AttemptEnd parse s v t := by
  obtain ⟨ctrl, answer, hsend⟩ := sendFrame_eq hfn unit a b
  unfold exchange at h
  split at h
  · cases h
    exact .reset _ _
  · split at h
    · exact respond_end hb h
    · rw [hsend, andThen_next] at h
      split at h
      · cases h
        exact .reset _ _
      · exact respond_end (u := State.transmitted _ _ _ _) hb h

theorem attempt_end {unit fn : Byte} {a b : Word} (hfn : fn = fnRead ∨ fn = fnWrite)
    (h : attempt p (encodeFrame unit fn (payload16 a b)) parse s = .next (v, t)) : AttemptEnd parse s v t := by
  have hblock : (s.waitGap p).nextEvent.2.sameBlock s := by
    unfold State.nextEvent
    split <;> exact ⟨rfl, rfl, rfl, rfl, rfl, rfl, rfl, rfl, rfl, rfl⟩
  unfold attempt at h
  simp only at h
  split at h
  · cases h
    exact .reset _ _
  · obtain ⟨⟨v', u⟩, hu, h⟩ := andThen_eq_next.1 h
    have hend := exchange_end hfn hblock hu
    simp only at h
    split at h
    · cases h
      exact .reset _ _
    · cases h
      exact hend

end

end Sys2Proof.Machine

namespace Sys2Proof.Machine

open Sys2Proof.Config (HostParams)

variable {p : HostParams} {s t u : State} {v : Verdict} {r : TxnResult}

/-! ## Which segments a poll has loaded (R165, R213) -/

/-- R117: LOADSEG loads its segment and sets its valid bit, or ends in an error and writes nothing. -/
theorem exec_loadseg_dbv {k : Byte} (h : exec (.loadseg k) s = .next t) :
    (t.result = .none ∧ t.dbv = s.dbv ||| (1#4 <<< k.toNat)) ∨ ((∃ e, t.result = .error e) ∧ t.dbv = s.dbv) := by
  change execLoadseg k s = _ at h
  unfold execLoadseg at h
  split at h
  · cases h
  · split at h
    · cases h
    · split at h
      · cases h
      · split at h
        · cases h
        · cases h
          exact .inr ⟨⟨_, rfl⟩, rfl⟩
        · split at h
          · cases h
            exact .inr ⟨⟨_, rfl⟩, rfl⟩
          · cases h
            exact .inl ⟨rfl, rfl⟩

theorem judge_loadseg {d : List Byte} {k : Byte} (h : judge d (.loadseg k) none s = .next (v, t)) :
    (∃ x, v = .success x ∧ t.dbv = s.dbv ||| (1#4 <<< k.toNat)) ∨ (∃ e, v = .failure e ∧ t.dbv = s.dbv) := by
  obtain ⟨u, hu, h⟩ := andThen_eq_next.1 h
  obtain ⟨-, hdbv⟩ := exec_decodeBuffer hu nofun nofun
  split at h
  · cases h
    exact .inr ⟨_, rfl, hdbv⟩
  · obtain ⟨w, hw, h⟩ := andThen_eq_next.1 h
    rw [← hdbv]
    rcases exec_loadseg_dbv hw with ⟨hnone, hw⟩ | ⟨⟨e, he⟩, hw⟩
    · rw [verdictOf_of_value (by rw [hnone]; rfl)] at h
      cases h
      exact .inl ⟨_, rfl, hw⟩
    · rw [verdictOf_of_error he] at h
      cases h
      exact .inr ⟨_, rfl, hw⟩

/-- R206, R213: how the read of segment k leaves the valid bits: a success has set its bit, a failure has set none,
unless a reset cleared them all. -/
def SegmentEnd (k : Byte) (before : BitVec 4) (r : TxnResult) (after : BitVec 4) : Prop :=
  (∃ x, r = .success x ∧ after = before ||| (1#4 <<< k.toNat)) ∨ (r = .failed ∧ (after = before ∨ after = 0#4))

theorem tries_loadseg {unit fn : Byte} {a b reg : Word} {k : Byte} {isWrite : Bool} {j : Nat}
    (hfn : fn = fnRead ∨ fn = fnWrite)
    (h : tries p (encodeFrame unit fn (payload16 a b)) (.loadseg k) reg isWrite j s = .next (r, t)) :
    SegmentEnd k s.dbv r t.dbv := by
  induction j generalizing s with
  | zero =>
    cases h
    exact .inr ⟨rfl, .inl rfl⟩
  | succ j ih =>
    obtain ⟨v, u, hu⟩ := attempt_of_tries h
    have again : ∀ cause, v = .failure cause → u.dbv = s.dbv → SegmentEnd k s.dbv r t.dbv := fun cause hv hdbv => by
      rw [hv] at hu
      rw [tries_of_failure hu] at h
      rw [← hdbv]
      exact (ih h :)
    cases attempt_end hfn hu with
    | reset seen w =>
      rw [tries_of_abandoned hu] at h
      cases h
      exact .inr ⟨rfl, .inr rfl⟩
    | unanswered cause hb =>
      obtain ⟨-, -, -, -, -, -, hdbv, -⟩ := hb
      exact again cause rfl hdbv.symm
    | judged d hb hj =>
      obtain ⟨-, -, -, -, -, -, hdbv, -⟩ := hb
      rcases judge_loadseg hj with ⟨x, rfl, hu'⟩ | ⟨cause, hv, hu'⟩
      · rw [tries_of_success hu] at h
        cases h
        exact .inl ⟨x, rfl, hu'.trans (by rw [← hdbv]; rfl)⟩
      · exact again cause hv (hu'.trans hdbv.symm)

theorem transaction_loadseg {unit : Byte} {a b reg : Word} {k : Byte} {isWrite : Bool}
    (h : transaction p (.encRd unit a b) (.loadseg k) reg isWrite s = .next (r, t)) :
    SegmentEnd k s.dbv r t.dbv := by
  obtain ⟨hfn, s0, htries, -, -, -, -, -, hdbv, -⟩ := transaction_eq_tries (p := p) (fn := fnRead)
    (request := .encRd unit a b) (s := s) (.inl ⟨rfl, rfl⟩)
  rw [htries] at h
  rw [← hdbv]
  exact tries_loadseg hfn h

theorem readSegments_of_success {k : Nat} {start count : Word} {l : List (Word × Word)} {x : Result}
    (h : transaction p (.encRd p.unit start count) (.loadseg (BitVec.ofNat 8 k)) start false s =
      .next (.success x, t)) : readSegments p k ((start, count) :: l) s = readSegments p (k + 1) l t := by
  conv_lhs => unfold readSegments
  rw [h]
  rfl

theorem readSegments_of_failed {k : Nat} {start count : Word} {l : List (Word × Word)}
    (h : transaction p (.encRd p.unit start count) (.loadseg (BitVec.ofNat 8 k)) start false s = .next (.failed, t)) :
    readSegments p k ((start, count) :: l) s = .next (false, t) := by
  unfold readSegments
  rw [h]
  rfl

/-- Every read of a poll answers when the poll does. -/
theorem transaction_of_readSegments {k : Nat} {start count : Word} {l : List (Word × Word)} {c : Bool}
    (h : readSegments p k ((start, count) :: l) s = .next (c, t)) :
    ∃ r u, transaction p (.encRd p.unit start count) (.loadseg (BitVec.ofNat 8 k)) start false s = .next (r, u) := by
  unfold readSegments at h
  obtain ⟨⟨r, u⟩, hu, -⟩ := andThen_eq_next.1 h
  exact ⟨r, u, hu⟩

theorem segmentRead_added {unit : Byte} {a b reg : Word} {k : Byte} {isWrite : Bool}
    (h : transaction p (.encRd unit a b) (.loadseg k) reg isWrite s = .next (r, t)) :
    ∃ frames log, s.Added t frames log [] [] := by
  obtain ⟨made, n, new, htried, -⟩ := transaction_bounded (.inl ⟨rfl, rfl⟩) (.inr (.inr (.inr ⟨k, rfl⟩))) h
  exact ⟨_, _, htried.added⟩

/-- R213: reading the segments from number k on, with those before it loaded, ends complete with all four loaded, or
incomplete with one not loaded. -/
theorem readSegments_complete {l : List (Word × Word)} {k : Nat} {c : Bool} (hk : k + l.length = 4)
    (hdbv : ∀ j < 4, s.dbv.getLsbD j = decide (j < k)) (h : readSegments p k l s = .next (c, t)) :
    c = decide (t.dbv = 0xF#4) ∧ ∃ frames log, s.Added t frames log [] [] := by
  induction l generalizing k s with
  | nil =>
    cases h
    have hk4 : k = 4 := hk
    have hfull : t.dbv = 0xF#4 := BitVec.eq_of_getLsbD_eq fun j hj => by
      rw [hdbv j hj, decide_eq_true (by omega)]
      interval_cases j <;> rfl
    exact ⟨(decide_eq_true hfull).symm, [], [], .refl t⟩
  | cons seg l ih =>
    obtain ⟨start, count⟩ := seg
    rw [List.length_cons] at hk
    obtain ⟨r, u, hu⟩ := transaction_of_readSegments h
    obtain ⟨frames, log, hadd⟩ := segmentRead_added hu
    have hk4 : k < 4 := by omega
    have hindex : (BitVec.ofNat 8 k).toNat = k := by rw [BitVec.toNat_ofNat]; omega
    rcases transaction_loadseg hu with ⟨x, rfl, hbit⟩ | ⟨rfl, hbit⟩
    · rw [readSegments_of_success hu] at h
      obtain ⟨hc, frames', log', hadd'⟩ := ih (by omega) (fun j hj => by
        rw [hbit, hindex, getLsbD_setValid _ hk4, hdbv j hj, ← Bool.decide_or]
        exact decide_eq_decide.2 (by omega)) h
      exact ⟨hc, _, _, hadd.trans hadd'⟩
    · rw [readSegments_of_failed hu] at h
      cases h
      have hclear : t.dbv.getLsbD k = false := by
        rcases hbit with hbit | hbit
        · rw [hbit, hdbv k hk4, decide_eq_false (lt_irrefl k)]
        · rw [hbit, BitVec.getLsbD_zero]
      have hset : (0xF#4).getLsbD k = true := by interval_cases k <;> rfl
      refine ⟨(decide_eq_false fun hfull => ?_).symm, frames, log, hadd⟩
      rw [hfull, hset] at hclear
      cases hclear

end Sys2Proof.Machine

namespace Sys2Proof.Machine

open Sys2Proof.Config (HostParams FieldSpec)

variable {p : HostParams} {s t u : State} {r : Result}

/-! ## Decoding touches nothing but the answer (R165 `Decoding`) -/

/-- The operations of which decoding is made: what they do is an answer (R20, R25). -/
def decodes : Instr → Bool
  | .xword _ | .wrap _ | .getbit _ _ | .field _ _ | .wrap65k _ | .ambfix _ | .lpfix _ => true
  | .fmode _ _ | .pumpon _ | .antifrz _ _ _ | .errint _ _ _ _ _ _ _ => true
  | _ => false

theorem acceptedBytes_of_decodes {i : Instr} (hi : decodes i = true) : acceptedBytes i = none :=
  acceptedBytes_eq_none (by rintro _ rfl; cases hi) (by rintro _ _ _ rfl; cases hi) (by rintro _ _ _ _ rfl; cases hi)

theorem exec_onlyAnswers {i : Instr} (hi : decodes i = true) (h : exec i s = .next t) : s.OnlyAnswers t := by
  cases exec_effect h with
  | value => exact .ended s _ _
  | decodeError => exact .ended s _ _
  | crc _ _ _ hc => rcases hc with rfl | ⟨b, rfl⟩ <;> cases hi
  | encode _ _ _ he => subst he; cases hi
  | request _ _ _ hq => rcases hq with ⟨_, _, _, rfl⟩ | ⟨_, _, _, rfl⟩ <;> cases hi
  | rejected _ _ ha => cases (acceptedBytes_of_decodes hi).symm.trans ha
  | accepted _ ha => cases (acceptedBytes_of_decodes hi).symm.trans ha
  | echo he => subst he; cases hi
  | close hc => subst hc; cases hi
  | clear hc => subst hc; cases hi
  | load _ _ _ _ hl => subst hl; cases hi
  | sent _ _ _ hs => rcases hs with ⟨_, _, _, _, rfl, -⟩ | ⟨_, _, _, _, rfl, -⟩ <;> cases hi

theorem run_onlyAnswers {i : Instr} (hi : decodes i = true) (h : run i s = .next (r, t)) : s.OnlyAnswers t := by
  obtain ⟨u, hu, h⟩ := andThen_eq_next.1 h
  cases h
  exact exec_onlyAnswers hi hu

theorem onField_onlyAnswers {a : Word} {f : Rat} {next : Number → Instr} (hnext : ∀ v, decodes (next v) = true)
    (h : onField a f next s = .next (r, t)) : s.OnlyAnswers t := by
  obtain ⟨⟨r1, u⟩, hu, h⟩ := andThen_eq_next.1 h
  have hfield := run_onlyAnswers rfl hu
  simp only at h
  split at h
  · exact hfield.trans (run_onlyAnswers (hnext _) h)
  · cases h
    exact hfield

theorem extractWords_onlyAnswers {l ws : List Word} (h : extractWords l s = .next (ws, t)) : s.OnlyAnswers t := by
  induction l generalizing s ws with
  | nil =>
    cases h
    exact .refl t
  | cons a l ih =>
    obtain ⟨⟨r1, u⟩, hu, h⟩ := andThen_eq_next.1 h
    have hword := run_onlyAnswers rfl hu
    simp only at h
    split at h
    · obtain ⟨⟨ws', v⟩, hv, h⟩ := andThen_eq_next.1 h
      cases h
      exact hword.trans (ih hv)
    · cases h
      exact hword

theorem decodeField_onlyAnswers {f : FieldSpec} (h : decodeField p f s = .next (r, t)) : s.OnlyAnswers t := by
  cases f with
  | number a f => exact run_onlyAnswers rfl h
  | suctionOrCoil | ambient | lowPressure | pumpOn => exact onField_onlyAnswers (fun _ => rfl) h
  | flag a i =>
    obtain ⟨⟨r1, u⟩, hu, h⟩ := andThen_eq_next.1 h
    have hword := run_onlyAnswers rfl hu
    simp only at h
    split at h
    · exact hword.trans (run_onlyAnswers rfl h)
    · cases h
      exact hword
  | frequencyMode | antiFreeze =>
    obtain ⟨⟨ws, u⟩, hu, h⟩ := andThen_eq_next.1 h
    exact (extractWords_onlyAnswers hu).trans (run_onlyAnswers rfl h)
  | errors a1 a2 a3 a4 a5 a6 a7 =>
    obtain ⟨⟨ws, u⟩, hu, h⟩ := andThen_eq_next.1 h
    have hwords := extractWords_onlyAnswers hu
    simp only at h
    split at h
    · exact hwords.trans (run_onlyAnswers rfl h)
    · cases h
      exact hwords

/-- R165: the sample has the names of the register map in their order, and decoding touches nothing but the answer. -/
theorem decodeSample_names {l : List (String × FieldSpec)} {values : List (String × Result)}
    (h : decodeSample p l s = .next (values, t)) : values.map Prod.fst = l.map Prod.fst ∧ s.OnlyAnswers t := by
  induction l generalizing s values with
  | nil =>
    cases h
    exact ⟨rfl, .refl t⟩
  | cons x l ih =>
    obtain ⟨⟨r, u⟩, hu, h⟩ := andThen_eq_next.1 h
    obtain ⟨⟨vs, v⟩, hv, h⟩ := andThen_eq_next.1 h
    cases h
    obtain ⟨hnames, hrest⟩ := ih hv
    exact ⟨congrArg (x.1 :: ·) hnames, (decodeField_onlyAnswers hu).trans hrest⟩

/-! ## The values of a sample (R119, R127 to R133, R151 to R157) -/

/-- R46, R119: all four segments are loaded, and the registers of the decode buffer hold these words. -/
structure State.Holds (s : State) (word : Word → Word) : Prop where
  loaded : s.dbv = 0xF#4
  words : ∀ a : Word, a.toNat ≤ 0x016E → s.db.readWord a.toNat = some (word a)

theorem State.OnlyAnswers.holds {word : Word → Word} (h : s.OnlyAnswers t) (hs : s.Holds word) : t.Holds word :=
  ⟨h.dbv.trans hs.loaded, fun a ha => h.db ▸ hs.words a ha⟩

section
variable {word : Word → Word} {a : Word} {f : Rat} (hs : s.Holds word)
include hs

theorem run_xword (ha : a.toNat ≤ 0x016E) :
    run (.xword a) s = .next (.word (word a), s.endsNormally (.word (word a))) := by
  unfold run
  rw [exec_xword_of_word hs.loaded ha (hs.words a ha)]
  rfl

theorem run_field (ha : a.toNat ≤ 0x016E) (hf : 0 ≤ f) :
    run (.field a f) s = .next (.num (wrapAbove 65280 (scaleNum (word a) f)),
      s.endsNormally (.num (wrapAbove 65280 (scaleNum (word a) f)))) := by
  have hfield : exec (.field a f) s = .next (s.endsNormally (.num (wrapAbove 65280 (scaleNum (word a) f)))) :=
    andThen_eq_next.2 ⟨word a, decodeWord_eq_next.2 ⟨hs.loaded, ha, hs.words a ha⟩,
      andThen_eq_next.2 ⟨_, scaleOrRefuse_eq_next.2 ⟨hf, rfl⟩, rfl⟩⟩
  unfold run
  rw [hfield]
  rfl

theorem onField_value (ha : a.toNat ≤ 0x016E) (hf : 0 ≤ f) (next : Number → Instr) :
    onField a f next s = run (next (wrapAbove 65280 (scaleNum (word a) f)))
      (s.endsNormally (.num (wrapAbove 65280 (scaleNum (word a) f)))) := by
  unfold onField
  rw [run_field hs ha hf]
  rfl

end

theorem extractWords_words {word : Word → Word} {l : List Word} (hs : s.Holds word)
    (hl : ∀ a ∈ l, a.toNat ≤ 0x016E) : ∃ t, extractWords l s = .next (l.map word, t) := by
  induction l generalizing s with
  | nil => exact ⟨s, rfl⟩
  | cons a l ih =>
    obtain ⟨ha, hl⟩ := List.forall_mem_cons.1 hl
    obtain ⟨t, ht⟩ := ih ((State.OnlyAnswers.ended s 0x00 (.word (word a))).holds hs) hl
    refine ⟨t, ?_⟩
    unfold extractWords
    rw [run_xword hs ha]
    simp only [andThen_next]
    exact andThen_eq_next.2 ⟨_, ht, rfl⟩

/-- R131, R132: a field with a factor 1/n of whole tenths, as its operations wrap it, in terms of the word. -/
theorem rewrap_word {n : Rat} {m : Int} (hn : 2 ≤ n) (hm : 1 / n = m / 10) (raw : Word) :
    rewrap n (1 / n) (wrapAbove 65280 (scaleNum raw (1 / n))) =
      ⟨if (65000 : Rat) < (raw.toNat : Rat) then ((raw.toNat : Rat) - 65535) / n else (raw.toNat : Rat) / n,
        .oneDecimal⟩ := by
  rw [rewrap_field_value hn hm]
  norm_cast

/-- R165 `Decoding`: a field whose registers hold words has the value that its operations give for them. -/
theorem decodeField_value {word : Word → Word} {f : FieldSpec} (hs : s.Holds word) (hf : legalField f = true) :
    ∃ t, decodeField p f s = .next (fieldValue p word f, t) := by
  cases f with
  | number a f =>
    simp only [legalField, Bool.and_eq_true, decide_eq_true_eq] at hf
    exact ⟨_, run_field hs hf.1 hf.2⟩
  | suctionOrCoil a f =>
    simp only [legalField, Bool.and_eq_true, decide_eq_true_eq] at hf
    exact ⟨_, onField_value hs hf.1 hf.2 .wrap65k⟩
  | pumpOn a f =>
    simp only [legalField, Bool.and_eq_true, decide_eq_true_eq] at hf
    exact ⟨_, onField_value hs hf.1 hf.2 .pumpon⟩
  | ambient a =>
    simp only [legalField, decide_eq_true_eq] at hf
    have hvalue : fieldValue p word (.ambient a) =
        .num (rewrap 2 (1 / 2) (wrapAbove 65280 (scaleNum (word a) (1 / 2)))) :=
      congrArg Result.num (rewrap_word le_rfl (m := 5) (by norm_num) (word a)).symm
    rw [hvalue]
    exact ⟨_, onField_value hs hf (by norm_num [factorAmbient]) .ambfix⟩
  | lowPressure a =>
    simp only [legalField, decide_eq_true_eq] at hf
    have hvalue : fieldValue p word (.lowPressure a) =
        .num (rewrap 10 (1 / 10) (wrapAbove 65280 (scaleNum (word a) (1 / 10)))) :=
      congrArg Result.num (rewrap_word (by norm_num) (m := 1) (by norm_num) (word a)).symm
    rw [hvalue]
    exact ⟨_, onField_value hs hf (by norm_num [factorLowPressure]) .lpfix⟩
  | flag a i =>
    simp only [legalField, decide_eq_true_eq] at hf
    refine ⟨_, andThen_eq_next.2 ⟨_, run_xword hs hf, rfl⟩⟩
  | frequencyMode =>
    obtain ⟨t, ht⟩ := extractWords_words (l := [addrPowerfulSilent, addrHoliday]) hs
      (by simp [addrPowerfulSilent, addrHoliday])
    exact ⟨_, andThen_eq_next.2 ⟨_, ht, rfl⟩⟩
  | antiFreeze addresses =>
    simp only [legalField, List.all_eq_true, decide_eq_true_eq] at hf
    obtain ⟨t, ht⟩ := extractWords_words hs hf
    exact ⟨_, andThen_eq_next.2 ⟨_, ht, rfl⟩⟩
  | errors a1 a2 a3 a4 a5 a6 a7 =>
    simp only [legalField, List.all_eq_true, decide_eq_true_eq] at hf
    obtain ⟨t, ht⟩ := extractWords_words hs hf
    exact ⟨_, andThen_eq_next.2 ⟨_, ht, rfl⟩⟩

/-- R165: the sample of a register map whose fields are legal. -/
theorem decodeSample_values {word : Word → Word} {l : List (String × FieldSpec)} (hs : s.Holds word)
    (hl : ∀ f ∈ l, legalField f.2 = true) :
    ∃ t, decodeSample p l s = .next (l.map fun x => (x.1, fieldValue p word x.2), t) := by
  induction l generalizing s with
  | nil => exact ⟨s, rfl⟩
  | cons x l ih =>
    obtain ⟨hx, hl⟩ := List.forall_mem_cons.1 hl
    obtain ⟨u, hu⟩ := decodeField_value (p := p) hs hx
    obtain ⟨t, ht⟩ := ih ((decodeField_onlyAnswers hu).holds hs) hl
    exact ⟨t, andThen_eq_next.2 ⟨_, hu, andThen_eq_next.2 ⟨_, ht, rfl⟩⟩⟩

end Sys2Proof.Machine

namespace Sys2Proof.Machine

open Sys2Proof.Config (HostParams FieldSpec)

variable {p : HostParams} {s t u : State} {values : List (String × Result)} {d : List Byte} {n : Nat}
  {rest : List LinkEvent}

/-! ## The poll machine, phase by phase (R165) -/

/-- R165: the state in which a poll begins to read: `Reading`, and no segment loaded. -/
abbrev State.polling (s : State) : State := (s.enter .reading).clearDecode.endsNormally .none

/-- R165: how a poll ends with a sample. -/
abbrev State.published (s : State) (p : HostParams) (values : List (String × Result)) : State :=
  (((s.enter .publishing).reported (.sample values)).schedule p.tPoll).enter .idle

/-- R165, R213: how a poll ends without one. -/
abbrev State.pollFailed (s : State) (p : HostParams) : State :=
  (((s.enter .failed).reported .pollFailed).schedule p.tPollRetry).enter .idle

theorem poll_of_complete (hread : readSegments p 0 segments s.polling = .next (true, t))
    (hsample : decodeSample p (registerMap p) (t.enter .decoding) = .next (values, u)) :
    poll p s = .next (u.published p values) := by
  unfold poll
  rw [exec_dbclr, andThen_next, hread]
  simp only [andThen_next, if_true, hsample]

/-- Everything a poll can do when it answers. -/
theorem poll_next (h : poll p s = .next t) :
    (∃ u v values, readSegments p 0 segments s.polling = .next (true, u) ∧
      decodeSample p (registerMap p) (u.enter .decoding) = .next (values, v) ∧ t = v.published p values) ∨
    (∃ u, readSegments p 0 segments s.polling = .next (false, u) ∧ t = u.pollFailed p) := by
  unfold poll at h
  rw [exec_dbclr, andThen_next] at h
  obtain ⟨⟨complete, u⟩, hu, h⟩ := andThen_eq_next.1 h
  cases complete with
  | true =>
    obtain ⟨⟨values, v⟩, hv, h⟩ := andThen_eq_next.1 h
    cases h
    exact .inl ⟨u, v, values, hu, hv, rfl⟩
  | false =>
    cases h
    exact .inr ⟨u, hu, rfl⟩

theorem polling_added (s : State) : s.Added s.polling [] [] [.reading] [] :=
  ((State.Added.refl s).enter .reading).of_same rfl rfl

theorem State.Added.schedule {frames : List (List Byte)} {log : List LogEntry} {trail : List Phase}
    {reports : List Report} (h : s.Added t frames log trail reports) (delay : Nat) :
    s.Added (t.schedule delay) frames log trail reports :=
  ⟨h.sent, h.log, h.trail, h.reports⟩

theorem State.Added.published {frames : List (List Byte)} {log : List LogEntry} {trail : List Phase}
    {reports : List Report} (h : s.Added t frames log trail reports) (p : HostParams)
    (values : List (String × Result)) :
    s.Added (t.published p values) frames log (trail ++ [.publishing] ++ [.idle]) (reports ++ [.sample values]) :=
  (((h.enter .publishing).reported (.sample values)).schedule p.tPoll).enter .idle

theorem State.Added.pollFailed {frames : List (List Byte)} {log : List LogEntry} {trail : List Phase}
    {reports : List Report} (h : s.Added t frames log trail reports) (p : HostParams) :
    s.Added (t.pollFailed p) frames log (trail ++ [.failed] ++ [.idle]) (reports ++ [.pollFailed]) :=
  (((h.enter .failed).reported .pollFailed).schedule p.tPollRetry).enter .idle

/-- R213: the reads of a poll end complete exactly when all four segments are loaded. -/
theorem polling_complete {c : Bool} (h : readSegments p 0 segments s.polling = .next (c, t)) :
    c = decide (t.dbv = 0xF#4) ∧ ∃ frames log, s.Added t frames log [.reading] [] := by
  obtain ⟨hc, frames, log, hadd⟩ := readSegments_complete rfl (fun j _ => BitVec.getLsbD_zero) h
  exact ⟨hc, frames, log, (polling_added s).trans hadd⟩

/-- R165, R213: the two ways of a poll, and what each hands over. -/
theorem poll_trail (h : poll p s = .next t) :
    t.host.phase = .idle ∧
    ((t.host.trail = s.host.trail ++ [.reading, .decoding, .publishing, .idle] ∧ t.dbv = 0b1111 ∧
      t.host.nextTick = t.host.now + p.tPoll ∧
      ∃ values, t.host.reports = s.host.reports ++ [.sample values] ∧
        values.map Prod.fst = (registerMap p).map Prod.fst) ∨
     (t.host.trail = s.host.trail ++ [.reading, .failed, .idle] ∧ t.dbv ≠ 0b1111 ∧
      t.host.nextTick = t.host.now + p.tPollRetry ∧ t.host.reports = s.host.reports ++ [.pollFailed])) := by
  rcases poll_next h with ⟨u, v, values, hread, hsample, rfl⟩ | ⟨u, hread, rfl⟩
  · obtain ⟨hfull, frames, log, hadd⟩ := polling_complete hread
    obtain ⟨hnames, hanswers⟩ := decodeSample_names hsample
    have hall := ((hadd.enter .decoding).of_same hanswers.link hanswers.host).published p values
    exact ⟨rfl, .inl ⟨hall.trail, hanswers.dbv.trans (of_decide_eq_true hfull.symm), rfl, values, hall.reports, hnames⟩⟩
  · obtain ⟨hfull, frames, log, hadd⟩ := polling_complete hread
    have hall := hadd.pollFailed p
    exact ⟨rfl, .inr ⟨hall.trail, of_decide_eq_false hfull.symm, rfl, hall.reports⟩⟩

/-! ## Four segments delivered (R46, R117) -/

theorem Memory.writeBytes_append (m : Memory) (a : Nat) (d e : List Byte) :
    m.writeBytes a (d ++ e) = (m.writeBytes a d).writeBytes (a + d.length) e := by
  induction d generalizing m a with
  | nil => rfl
  | cons b d ih =>
    rw [List.cons_append, Memory.writeBytes, Memory.writeBytes, ih, List.length_cons, Nat.add_right_comm, Nat.add_assoc]

/-- R37, R118: of bytes written from register 0 on, each register reads as the payload does. -/
theorem readWord_writeBytes_zero (m : Memory) {a : Nat} (h : 2 * a + 2 ≤ d.length) :
    (m.writeBytes 0 d).readWord a = xwordBytes d a := by
  obtain ⟨w, hw⟩ := exists_xwordBytes h
  obtain ⟨rest, hdrop⟩ := xwordBytes_eq_some hw
  have hbyte : ∀ i, d[2 * a + i]? = (hi8 w :: lo8 w :: rest)[i]? := fun i => by rw [← List.getElem?_drop, hdrop]
  have hread := Memory.readWord_writeBytes m 0 (hbyte 0) (hbyte 1)
  rw [Nat.zero_add, be16_hi8_lo8] at hread
  exact hread.trans hw.symm

/-- R117, R165: the data of a segment delivered in time are written to the decode buffer, its valid bit set. -/
theorem segment_delivers {k : Byte} {start count : Word} (hseg : segmentOf k = some (start, count))
    (hd : d.length = 2 * count.toNat) (hmax : count.toNat ≤ 0x78)
    (hs : s.link.script = ⟨.delivers (encodeFrame p.unit fnRead (readPayload d)), n, none⟩ :: rest)
    (hn : n ≤ p.tTimeout) :
    ∃ t, transaction p (.encRd p.unit start count) (.loadseg k) start false s = .next (.success .none, t) ∧
      Ran s t 1 [encodeFrame p.unit fnRead (payload16 start count)] [] rest ∧
      t.db = s.db.writeBytes (2 * start.toNat) d ∧ t.dbv = s.dbv ||| (1#4 <<< k.toNat) := by
  obtain ⟨v, hv, hdb, hdbv, hend⟩ := transaction_accepts (p := p) (fn := fnRead)
    (request := .encRd p.unit start count) (parse := .loadseg k) (reg := start) (isWrite := false) (.inl ⟨rfl, rfl⟩)
    (.inr (.inr (.inr ⟨k, rfl⟩))) (by rw [length_readPayload]; omega) hs hn
  have hload := exec_loadseg_of_data (s := v.accepting (encodeFrame p.unit fnRead (readPayload d))) hseg
    (hasResponse_eq_true.2 ⟨rfl, by simp [hv]⟩) (by simp [hv]) (by simp [hv])
    (readData_kept (by rw [hv]) (by omega)) hd
  obtain ⟨ht, hran⟩ := hend _ hload rfl
  exact ⟨_, ht, hran, by simp [hdb], by simp [hdbv]⟩

/-- R45, R46: the four segments delivered in time leave their data joined in the decode buffer. -/
theorem readSegments_delivers {d0 d1 d2 d3 : List Byte} {n0 n1 n2 n3 : Nat} (hd0 : d0.length = 240)
    (hd1 : d1.length = 240) (hd2 : d2.length = 240) (hd3 : d3.length = 14) (hn0 : n0 ≤ p.tTimeout)
    (hn1 : n1 ≤ p.tTimeout) (hn2 : n2 ≤ p.tTimeout) (hn3 : n3 ≤ p.tTimeout)
    (hs : s.link.script = ⟨.delivers (encodeFrame p.unit fnRead (readPayload d0)), n0, none⟩ ::
      ⟨.delivers (encodeFrame p.unit fnRead (readPayload d1)), n1, none⟩ ::
      ⟨.delivers (encodeFrame p.unit fnRead (readPayload d2)), n2, none⟩ ::
      ⟨.delivers (encodeFrame p.unit fnRead (readPayload d3)), n3, none⟩ :: rest) (hdbv : s.dbv = 0#4) :
    ∃ t, readSegments p 0 segments s = .next (true, t) ∧
      Ran s t 4 [encodeFrame p.unit fnRead (payload16 0x0000 0x0078),
        encodeFrame p.unit fnRead (payload16 0x0078 0x0078), encodeFrame p.unit fnRead (payload16 0x00F0 0x0078),
        encodeFrame p.unit fnRead (payload16 0x0168 0x0007)] [] rest ∧
      t.db = s.db.writeBytes 0 (d0 ++ d1 ++ d2 ++ d3) ∧ t.dbv = 0xF#4 := by
  obtain ⟨t0, h0, hran0, hdb0, hdbv0⟩ := segment_delivers (k := 0) rfl hd0 (by decide) hs hn0
  obtain ⟨t1, h1, hran1, hdb1, hdbv1⟩ := segment_delivers (k := 1) rfl hd1 (by decide) hran0.script hn1
  obtain ⟨t2, h2, hran2, hdb2, hdbv2⟩ := segment_delivers (k := 2) rfl hd2 (by decide) hran1.script hn2
  obtain ⟨t3, h3, hran3, hdb3, hdbv3⟩ := segment_delivers (k := 3) rfl hd3 (by decide) hran2.script hn3
  refine ⟨t3, ?_, ((hran0.trans hran1).trans hran2).trans hran3, ?_, ?_⟩
  · calc readSegments p 0 segments s = readSegments p 1 (segments.drop 1) t0 := readSegments_of_success h0
      _ = readSegments p 2 (segments.drop 2) t1 := readSegments_of_success h1
      _ = readSegments p 3 (segments.drop 3) t2 := readSegments_of_success h2
      _ = readSegments p 4 (segments.drop 4) t3 := readSegments_of_success h3
      _ = .next (true, t3) := rfl
  · rw [hdb3, hdb2, hdb1, hdb0, Memory.writeBytes_append, Memory.writeBytes_append, Memory.writeBytes_append]
    simp only [List.length_append, hd0, hd1, hd2]
    rfl
  · rw [hdbv3, hdbv2, hdbv1, hdbv0, hdbv]
    rfl

/-- R121, R128: with a factor of 0.1 a word decodes to its exact tenth, which does not wrap. -/
theorem field_of_tenth (w : Word) :
    wrapAbove 65280 (scaleNum w (1 / 10)) = ⟨(w.toNat : Rat) / 10, .oneDecimal⟩ := by
  have hexact : round1 ((w.toNat : Rat) * (1 / 10)) = w.toNat * (1 / 10) :=
    round1_mul_tenths (m := 1) (by norm_num) w.toNat
  have hword := word_le_max w
  rw [scaleNum_of_pos w (by norm_num), hexact, mul_one_div, wrapAbove_of_le]
  change (w.toNat : Rat) / 10 ≤ 65280
  linarith

/-- R165, log entry 18: the two entries of the register map that the spec prints are legal. -/
theorem registerMap_legal (h : ∀ f ∈ p.otherFields, legalField f.2 = true) :
    ∀ f ∈ registerMap p, legalField f.2 = true := by
  refine List.forall_mem_cons.2 ⟨?_, List.forall_mem_cons.2 ⟨rfl, h⟩⟩
  simp [legalField, addrWaterOutlet, factorWaterOutlet]

/-- The word of each register in the data of four segments joined. -/
def joinedWord (d : List Byte) (a : Word) : Word := (xwordBytes d a.toNat).getD 0

theorem holds_joinedWord (hlen : d.length = 734) (hdbv : s.dbv = 0xF#4) {m : Memory} (hdb : s.db = m.writeBytes 0 d) :
    s.Holds (joinedWord d) := by
  refine ⟨hdbv, fun a ha => ?_⟩
  obtain ⟨w, hw⟩ := exists_xwordBytes (p := d) (a := a.toNat) (by omega)
  rw [hdb, readWord_writeBytes_zero m (by omega), joinedWord, hw]
  rfl

/-- Settles O56: every poll by `poll_trail`; the four segments by `readSegments_delivers` and `decodeSample_values`. -/
theorem pollFollowsItsStateMachine : Obligations.PollFollowsItsStateMachine := by
  refine ⟨fun p s t h => poll_trail h, ?_⟩
  intro p s d0 d1 d2 d3 n0 n1 n2 n3 rest hfields hd0 hd1 hd2 hd3 hn0 hn1 hn2 hn3 hs
  obtain ⟨t, hread, hran, hdb, hdbv⟩ := readSegments_delivers (s := s.polling) hd0 hd1 hd2 hd3 hn0 hn1 hn2 hn3 hs rfl
  have hlen : (d0 ++ d1 ++ d2 ++ d3).length = 734 := by simp only [List.length_append, hd0, hd1, hd2, hd3]
  have hholds : (t.enter .decoding).Holds (joinedWord (d0 ++ d1 ++ d2 ++ d3)) := holds_joinedWord hlen hdbv hdb
  obtain ⟨u, hu⟩ := decodeSample_values (p := p) hholds (registerMap_legal hfields)
  obtain ⟨-, hanswers⟩ := decodeSample_names hu
  have hwords := (hanswers.holds hholds).words
  have hall := ((((polling_added s).trans hran.added).enter .decoding).of_same hanswers.link hanswers.host).published p
    ((registerMap p).map fun x => (x.1, fieldValue p (joinedWord (d0 ++ d1 ++ d2 ++ d3)) x.2))
  refine ⟨_, _, joinedWord (d0 ++ d1 ++ d2 ++ d3) 0x0012, poll_of_complete hread hu, hall.trail, hall.reports,
    (congrArg Link.script hanswers.link).trans hran.script, by simpa using hall.log, hall.sent, fun a ha => ?_,
    hwords 0x0012 (by decide), ?_, ⟨joinedWord (d0 ++ d1 ++ d2 ++ d3) 0x0040, joinedWord (d0 ++ d1 ++ d2 ++ d3) 0x0041,
      _, hwords 0x0040 (by decide), hwords 0x0041 (by decide), rfl, number_freqMode (some _) (some _)⟩, rfl⟩
  · have hjoined : u.db = Memory.writeBytes [] 0 (d0 ++ d1 ++ d2 ++ d3) := hanswers.db.trans hdb
    exact (congrArg (Memory.readWord · a) hjoined).trans (readWord_writeBytes_zero [] (by omega))
  · exact congrArg (fun x => some ("water outlet temperature", Result.num x)) (field_of_tenth _)

end Sys2Proof.Machine

namespace Sys2Proof.Machine

variable {s : State}

/-! ## How an operation ends (R180, R181) -/

/-- R98: ACCEPT rejects with a protocol error only. -/
theorem acceptError_eq_some {q : Req} {b : List Byte} {e : ErrorCause} (h : acceptError q b = some e) :
    e = .protocolShort ∨ e = .protocolCrc ∨ e = .protocolUnit ∨ e = .protocolFn := by
  unfold acceptError at h
  split at h; · cases h; simp
  split at h; · cases h; simp
  split at h; · cases h; simp
  split at h; · cases h; simp
  cases h

theorem Result.ne_error {r : Result} (h : r.isError = false) (e : ErrorCause) : r ≠ .error e := by
  rintro rfl
  cases h

/-- Settles O45: an effect ends the operation in a protocol or decode error or with a value, or it sends a frame. -/
theorem statusErrTellsHowTheOperationEnded : Obligations.StatusErrTellsHowTheOperationEnded := by
  intro i s t h
  cases exec_effect h with
  | decodeError e _ he => exact .inl ⟨e, rfl, rfl, by rcases he with rfl | rfl | rfl | rfl <;> decide⟩
  | rejected b e _ _ _ he =>
    exact .inl ⟨e, rfl, rfl, by rcases acceptError_eq_some he with rfl | rfl | rfl | rfl <;> decide⟩
  | sent f m x hi =>
    refine .inr (.inr ⟨?_, rfl, rfl⟩)
    rcases hi with ⟨u, a, n, c, rfl, -⟩ | ⟨u, a, v, c, rfl, -⟩
    · exact ⟨u, a, n, c, .inl rfl⟩
    · exact ⟨u, a, v, c, .inr rfl⟩
  | value r hr => exact .inr (.inl ⟨rfl, Result.ne_error hr⟩)
  | crc d r hr => exact .inr (.inl ⟨rfl, Result.ne_error hr⟩)
  | _ => exact .inr (.inl ⟨rfl, Result.ne_error rfl⟩)

/-! ## What refuses a shared operation (R186) -/

theorem hasResponse_eq_false {fn : Byte} : s.hasResponse fn = false ↔ s.rxok = false ∨ s.req.fn ≠ fn := by
  rw [← Bool.not_eq_true, hasResponse_eq_true, not_and_or, Bool.not_eq_true]

theorem segmentOf_eq_none {k : Byte} : segmentOf k = none ↔ 3 < k.toNat := List.getElem?_eq_none_iff

section
variable {r : Refusal}

/-- A sequence that ends in a value is refused where its first part is. -/
theorem andThen_finish_eq_refused {α : Type} {o : Host.Outcome α Fault Refusal} {x : α → Result} :
    (andThen o fun a => finish (x a) s) = .refused r ↔ o = .refused r := by
  simp [andThen_eq_refused]

theorem scaleOrRefuse_eq_refused {raw : Word} {f : Rat} :
    scaleOrRefuse raw f = .refused r ↔ f < 0 ∧ r = .negativeFactor := by
  unfold scaleOrRefuse
  split <;> simp [*, eq_comm (a := r)]

theorem withBit_eq_refused {i : Byte} {x : Result} : withBit i x s = .refused r ↔ 15 < i.toNat ∧ r = .noSuchBit := by
  unfold withBit
  split <;> simp [*, eq_comm (a := r)]

/-! ## What refuses an instruction that reads the response (R186 (c), (f) to (h)) -/

theorem exec_parseRd_eq_refused : exec .parseRd s = .refused r ↔ readData s = .refused r := by
  change execParseRd s = _ ↔ _
  unfold execParseRd
  cases readData s <;> simp

theorem exec_parseRd1_eq_refused : exec .parseRd1 s = .refused r ↔ readData s = .refused r := by
  change execParseRd1 s = _ ↔ _
  unfold execParseRd1
  cases readData s with
  | data d => cases hw : wordOfData d <;> simp [hw]
  | _ => simp

theorem exec_parseWr_eq_refused :
    exec .parseWr s = .refused r ↔ s.hasResponse fnWrite = false ∧ r = .noAcceptedWrite := by
  change execParseWr s = _ ↔ _
  unfold execParseWr
  split <;> simp [*, eq_comm (a := r)]

/-- Past its own three tests LOADSEG has a response to read, so that reading it refuses nothing. -/
theorem exec_loadseg_eq_refused {k : Byte} :
    exec (.loadseg k) s = .refused r ↔
      (segmentOf k = none ∧ r = .noSuchSegment) ∨
      (segmentOf k ≠ none ∧ s.hasResponse fnRead = false ∧ r = .noAcceptedRead) ∨
      (segmentOf k ≠ none ∧ s.hasResponse fnRead = true ∧ segmentOf k ≠ some (s.req.a, s.req.b) ∧
        r = .notThisSegment) := by
  change execLoadseg k s = _ ↔ _
  unfold execLoadseg
  cases segmentOf k with
  | none => simp [eq_comm (a := r)]
  | some seg =>
    obtain ⟨start, count⟩ := seg
    cases hresp : s.hasResponse fnRead with
    | false => simp [eq_comm (a := r)]
    | true =>
      by_cases hreq : s.req.a = start ∧ s.req.b = count
      · obtain ⟨rfl, rfl⟩ := hreq
        cases hd : readData s with
        | refused q => cases hresp.symm.trans (readData_eq_refused.1 hd).1
        | error e => simp
        | data d => by_cases hl : d.length = 2 * s.req.b.toNat <;> simp [hl]
      · simp [hreq, eq_comm (a := r), eq_comm (b := s.req.a), eq_comm (b := s.req.b), ← not_and_or]

/-! ## The closed list, instruction by instruction (R186) -/

/-- R64: a read response of n data bytes is n + 5 bytes long. -/
theorem length_readResponse (unit : Byte) (data : List Byte) (crc : Word) :
    (frameBytes unit fnRead (readPayload data) crc).length = data.length + 5 := by
  rw [length_frameBytes, length_readPayload]
  omega

theorem exec_loadseg_refusedFor {k : Byte} : exec (.loadseg k) s = .refused r ↔ RefusedFor s (.loadseg k) r := by
  have hsome : segmentOf k ≠ none ↔ k.toNat ≤ 3 := segmentOf_eq_none.not.trans Nat.not_lt
  rw [exec_loadseg_eq_refused, hsome, segmentOf_eq_none, hasResponse_eq_false, hasResponse_eq_true, and_assoc]
  rfl

/-- R128: FIELD is refused as XWORD is, or with a word at hand as SCALE is. -/
theorem exec_field_refusedFor {a : Word} {f : Rat} :
    exec (.field a f) s = .refused r ↔ RefusedFor s (.field a f) r := by
  have hscale : (∃ w, decodeWord s a = .next w ∧
      (andThen (scaleOrRefuse w f) fun v => finish (.num (wrapAbove tSent v)) s) = .refused r) ↔
      s.dbv = 0xF ∧ (s.db.readWord a.toNat).isSome = true ∧ a.toNat ≤ 0x016E ∧ f < 0 ∧ r = .negativeFactor := by
    simp only [decodeWord_eq_next, andThen_finish_eq_refused, scaleOrRefuse_eq_refused, Option.isSome_iff_exists]
    constructor
    · rintro ⟨w, ⟨hdbv, ha, hw⟩, hf⟩
      exact ⟨hdbv, ⟨w, hw⟩, ha, hf⟩
    · rintro ⟨hdbv, ⟨w, hw⟩, ha, hf⟩
      exact ⟨w, ⟨hdbv, ha, hw⟩, hf⟩
  refine andThen_eq_refused.trans ?_
  rw [decodeWord_eq_refused, hscale, or_assoc]
  rfl

theorem exec_eq_refused (i : Instr) : exec i s = .refused r ↔ RefusedFor s i r := by
  cases i with
  | accept b => exact acceptBytes_eq_refused
  | rdrsp unit data crc =>
    refine acceptBytes_eq_refused.trans ?_
    rw [length_readResponse, show 256 < data.length + 5 ↔ 251 < data.length by omega]
    rfl
  | wrrsp unit reg value crc =>
    refine acceptBytes_eq_refused.trans (or_iff_left ?_)
    rintro ⟨-, hlong, -⟩
    simp at hlong
  | parseRd => rw [exec_parseRd_eq_refused, readData_eq_refused, hasResponse_eq_false]; rfl
  | parseRd1 => rw [exec_parseRd1_eq_refused, readData_eq_refused, hasResponse_eq_false]; rfl
  | parseWr => rw [exec_parseWr_eq_refused, hasResponse_eq_false]; rfl
  | loadseg k => exact exec_loadseg_refusedFor
  | xword a => exact andThen_finish_eq_refused.trans decodeWord_eq_refused
  | scale raw f => exact andThen_finish_eq_refused.trans scaleOrRefuse_eq_refused
  | field a f => exact exec_field_refusedFor
  | setbit w n => exact withBit_eq_refused
  | clrbit w n => exact withBit_eq_refused
  | rdreq unit start count crc => rw [exec_rdreq]; exact iff_of_false nofun id
  | wrreq unit reg value crc => rw [exec_wrreq]; exact iff_of_false nofun id
  | _ => exact iff_of_false finish_ne_refused id
end

/-! ## The one fault (R27) -/

section
variable {r : Fault}

/-- A sequence that ends in a value faults where its first part does. -/
theorem andThen_finish_eq_fault {α : Type} {o : Host.Outcome α Fault Refusal} {x : α → Result} :
    (andThen o fun a => finish (x a) s) = .fault r ↔ o = .fault r := by
  simp [andThen_eq_fault]

theorem scaleOrRefuse_ne_fault {raw : Word} {f : Rat} : scaleOrRefuse raw f ≠ .fault r := by
  unfold scaleOrRefuse
  split <;> simp

theorem withBit_ne_fault {i : Byte} {x : Result} : withBit i x s ≠ .fault r := by
  unfold withBit
  split <;> simp

theorem exec_parseRd_ne_fault : exec .parseRd s ≠ .fault r := by
  change execParseRd s ≠ _
  unfold execParseRd
  split <;> simp

theorem exec_parseRd1_ne_fault : exec .parseRd1 s ≠ .fault r := by
  change execParseRd1 s ≠ _
  unfold execParseRd1
  split
  · simp
  · simp
  · split <;> simp

theorem exec_parseWr_ne_fault : exec .parseWr s ≠ .fault r := by
  change execParseWr s ≠ _
  unfold execParseWr
  split <;> simp

theorem exec_loadseg_ne_fault {k : Byte} : exec (.loadseg k) s ≠ .fault r := by
  change execLoadseg k s ≠ _
  unfold execLoadseg
  split; · simp
  split; · simp
  split; · simp
  split
  · simp
  · simp
  · split <;> simp

/-- R27: only the read of a word that has no value faults. -/
theorem decodeWord_eq_fault {a : Word} :
    decodeWord s a = .fault r ↔ s.dbv = 0xF#4 ∧ a.toNat ≤ 0x016E ∧ s.db.readWord a.toNat = none := by
  unfold decodeWord
  by_cases hd : s.dbv = 0xF#4
  · by_cases ha : 0x016E < a.toNat
    · simp [hd, ha]
    · cases r
      cases hw : s.db.readWord a.toNat <;> simp [hd, ha, Nat.not_lt.1 ha]
  · simp [hd]

/-- R19, R27: under the invariant every word that XWORD may read has a value. -/
theorem State.Inv.decodeWord_ne_fault (h : s.Inv) {a : Word} : decodeWord s a ≠ .fault r := by
  intro hfault
  obtain ⟨hdbv, ha, hnone⟩ := decodeWord_eq_fault.1 hfault
  obtain ⟨w, hw⟩ := h.exists_readWord hdbv (Nat.lt_succ_of_le ha)
  cases hnone.symm.trans hw

/-- A fault of an instruction is a fault of a read of the decode buffer. -/
theorem decodeWord_of_exec_fault {i : Instr} (h : exec i s = .fault r) : ∃ a, decodeWord s a = .fault r := by
  cases i with
  | xword a => exact ⟨a, andThen_finish_eq_fault.1 h⟩
  | field a f =>
    obtain hword | ⟨w, -, hscaled⟩ := andThen_eq_fault.1 h
    · exact ⟨a, hword⟩
    · exact absurd (andThen_finish_eq_fault.1 hscaled) scaleOrRefuse_ne_fault
  | scale raw f => exact absurd (andThen_finish_eq_fault.1 h) scaleOrRefuse_ne_fault
  | accept b => exact absurd h acceptBytes_ne_fault
  | rdrsp unit data crc => exact absurd h acceptBytes_ne_fault
  | wrrsp unit reg value crc => exact absurd h acceptBytes_ne_fault
  | parseRd => exact absurd h exec_parseRd_ne_fault
  | parseRd1 => exact absurd h exec_parseRd1_ne_fault
  | parseWr => exact absurd h exec_parseWr_ne_fault
  | loadseg k => exact absurd h exec_loadseg_ne_fault
  | setbit w n => exact absurd h withBit_ne_fault
  | clrbit w n => exact absurd h withBit_ne_fault
  | rdreq unit start count crc => cases (exec_rdreq unit start count crc s).symm.trans h
  | wrreq unit reg value crc => cases (exec_wrreq unit reg value crc s).symm.trans h
  | _ => exact absurd h finish_ne_fault
end

/-- Settles O44: the closed list by `exec_eq_refused`; a fault is a read that the invariant excludes. -/
theorem refusalsAreTheClosedList : Obligations.RefusalsAreTheClosedList := by
  refine ⟨fun i s r => exec_eq_refused i, fun i s r hinv hfault => ?_⟩
  obtain ⟨a, ha⟩ := decodeWord_of_exec_fault hfault
  exact hinv.decodeWord_ne_fault ha

end Sys2Proof.Machine

namespace Sys2Proof.Machine

open Sys2Proof.Config (HostParams)

/-! ## The gap between attempts (R211, R212) -/

section
variable {p : HostParams} {gap : Nat} {h h' : HostState} {s t : State}

/-- The gap rule looks at the attempts and the clock alone, and a later clock keeps it. -/
theorem HostState.Gapped.later (hg : h.Gapped gap) (hpairs : h'.pairs = h.pairs) (hnow : h.now ≤ h'.now) :
    h'.Gapped gap := by
  obtain ⟨hrule, hpast⟩ := hg
  exact ⟨hpairs ▸ hrule, fun q hq => (hpast q (hpairs ▸ hq)).trans hnow⟩

/-- R211: the wait lasts until T_GAP after the end of the newest attempt. -/
theorem end_add_gap_le_gapTime {q : Nat × Nat} (hq : h.pairs.head? = some q) : q.2 + p.tGap ≤ gapTime p h := by
  obtain ⟨older, hpairs⟩ := List.head?_eq_some_iff.1 hq
  unfold gapTime
  rw [hpairs]
  exact le_max_right _ _

/-- R211: an attempt that starts when the wait is over keeps the gap rule, whatever time it takes. -/
theorem HostState.Gapped.attempted (hg : h.Gapped p.tGap) (d : Nat) :
    HostState.Gapped { h with
      now := gapTime p h + d
      pairs := (gapTime p h, gapTime p h + d) :: h.pairs } p.tGap := by
  obtain ⟨hrule, -⟩ := hg
  refine ⟨⟨Nat.le_add_right _ _, fun _ => end_add_gap_le_gapTime, hrule⟩, fun q hq => ?_⟩
  cases hq
  exact le_rfl

/-- R206, R211: an attempt is recorded after the gap, or, where a reset keeps it from starting, only time has passed. -/
theorem AttemptDone.gapped {frame : List Byte} {v : Verdict} (hdone : AttemptDone p frame s t v)
    (hg : s.host.Gapped p.tGap) : t.host.Gapped p.tGap := by
  rcases hdone.done with ⟨⟨d, -, hhost⟩, -, -⟩ | ⟨-, hhost, -, -⟩
  · exact hhost ▸ hg.attempted d
  · exact hhost ▸ hg.later rfl (now_le_gapTime p s.host)

theorem gapped_hostClosed (p : HostParams) : HostClosed p fun s => s.host.Gapped p.tGap where
  operation := fun _ hx hg => (exec_host hx).1 ▸ hg
  attempt := fun hfn hp hx hg => (attempt_done hfn hp hx).gapped hg
  attempts := fun _ _ hg => hg
  logged := fun _ _ hg => hg
  reported := fun _ _ hg => hg
  enter := fun _ _ hg => hg
  schedule := fun _ _ hg => hg
  later := fun hle hg => hg.later rfl hle
  reset := fun hg => hg

end

/-- Settles O59: the induction over the host's run (`HostClosed.events`), for the gap rule. -/
theorem hostKeepsTheGapRule : Obligations.HostKeepsTheGapRule :=
  fun p _ _ _ hg hrun => (gapped_hostClosed p).events hrun hg

end Sys2Proof.Machine

namespace Sys2Proof.Machine

open Sys2Proof.Config (HostParams)

/-! ## An attempt in which PWFC is reset (R206, R192) -/

section
variable {p : HostParams} {unit fn : Byte} {a b : Word} {parse : Instr} {s s0 asked t u w : State} {e : LinkEvent}
  {q : ResetPoint} {rest : List LinkEvent} {frame d : List Byte} {v : Verdict} {seen : Result}

/-- The state of an attempt when the wait for the gap is over and the link's event is known. -/
def State.pastGap (s : State) (p : HostParams) (rest : List LinkEvent) : State :=
  (s.waitGap p).withLink { s.link with script := rest }

/-- R206: an attempt is its exchange, unless PWFC is reset before it or at its end. -/
theorem attempt_of_cons (hs : s.link.script = e :: rest) :
    attempt p frame parse s =
      if e.reset = some .waiting then abandon .none (s.pastGap p rest)
      else andThen (exchange p e frame parse (s.pastGap p rest)) fun (v, s) =>
        if e.reset = some .ended then abandon v.given s else .next (v, s) := by
  unfold attempt
  rw [nextEvent_of_cons (s := s.waitGap p) hs]
  rfl

/-- R160: with no reset before ACCEPT an exchange is the response to the frame, sent or not; what the controller
answers is what arrives in every state with its registers and the number of the request. -/
theorem exchange_eq_respond (hfn : fn = fnRead ∨ fn = fnWrite) (hopening : e.reset ≠ some .opening)
    (hawaiting : e.reset ≠ some .awaiting) (hctrl : s0.ctrl = s.ctrl) (hfree : s0.freeIndex = s.freeIndex) :
    ∃ u, exchange p e (encodeFrame unit fn (payload16 a b)) parse s = respond p e parse u ∧
      u.req = s.req ∧ u.rxb = s.rxb ∧
      (e.fate = .faithful → arriving (encodeFrame unit fn (payload16 a b)) e s0 = u.link.answer) := by
  unfold exchange
  rw [if_neg hopening]
  cases hsends : e.fate.sends with
  | false =>
    refine ⟨s, if_pos rfl, rfl, rfl, fun hfate => ?_⟩
    rw [hfate] at hsends
    cases hsends
  | true =>
    obtain ⟨ctrl, answer, hsend⟩ := sendFrame_eq hfn unit a b
    simp only [hsend, andThen_next, if_neg hawaiting, Bool.true_eq_false, if_false]
    refine ⟨_, rfl, rfl, rfl, fun hfate => ?_⟩
    have hdrift : s0.drifted = s.drifted := by rw [State.drifted, State.drifted, hctrl, hfree]
    simp only [arriving, hfate, hsend, hdrift, hfree]
    rfl

/-! ### What is left of it in the records -/

/-- R25, R206: the frame is sent when no reset comes before and the link lets it. -/
theorem exchange_sent (hfn : fn = fnRead ∨ fn = fnWrite) (hp : isParse parse)
    (h : exchange p e (encodeFrame unit fn (payload16 a b)) parse s = .next (v, t)) :
    t.link.sent = s.link.sent ++
      (if e.reset = some .opening ∨ e.fate.sends = false then [] else [encodeFrame unit fn (payload16 a b)]) := by
  unfold exchange at h
  split at h
  · next hopening =>
    cases h
    rw [if_pos (.inl hopening)]
    exact (List.append_nil _).symm
  · next hopening =>
    split at h
    · next hsends =>
      obtain ⟨⟨k, -, hlink⟩, -⟩ := respond_next hp h
      rw [if_pos (.inr hsends), hlink]
      exact (List.append_nil _).symm
    · next hsends =>
      obtain ⟨u, hsend, -, -, hlink⟩ := sendFrame_request (u := unit) (a := a) (n := b) hfn s.connect
      have hsent : u.link.sent = s.link.sent ++ [encodeFrame unit fn (payload16 a b)] := by rw [hlink]; rfl
      rw [hsend, andThen_next] at h
      rw [if_neg (not_or.2 ⟨hopening, hsends⟩)]
      split at h
      · cases h
        exact hsent
      · obtain ⟨⟨k, -, hlink⟩, -⟩ := respond_next hp h
        exact hlink ▸ hsent

/-- What an attempt with a reset at `q` leaves in the records of the host and on the link (R206, R211, R215). -/
structure ResetRecords (frame : List Byte) (e : LinkEvent) (q : ResetPoint) (rest : List LinkEvent) (s t : State) :
    Prop where
  sent : t.link.sent = s.link.sent ++ (if q = .waiting ∨ q = .opening ∨ e.fate.sends = false then [] else [frame])
  script : t.link.script = rest
  connected : t.link.connected = false
  log : t.host.log = s.host.log
  attempts : t.host.attempts = s.host.attempts
  pairs : if q = .waiting then t.host.pairs = s.host.pairs
    else ∃ start ended, t.host.pairs = (start, ended) :: s.host.pairs ∧ ended ≤ t.host.now

theorem attempt_resetRecords (hfn : fn = fnRead ∨ fn = fnWrite) (hp : isParse parse)
    (hs : s.link.script = e :: rest) (hclosed : s.link.connected = false) (hr : e.reset = some q)
    (h : attempt p (encodeFrame unit fn (payload16 a b)) parse s = .next (v, t)) :
    ResetRecords (encodeFrame unit fn (payload16 a b)) e q rest s t := by
  rw [attempt_of_cons hs] at h
  simp only [hr, Option.some.injEq] at h
  split at h
  · next hwaiting =>
    cases h
    exact ⟨by rw [if_pos (.inl hwaiting)]; exact (List.append_nil _).symm, rfl, hclosed, rfl, rfl,
      by rw [if_pos hwaiting]; rfl⟩
  · next hwaiting =>
    obtain ⟨⟨v', u⟩, hu, h⟩ := andThen_eq_next.1 h
    obtain ⟨⟨⟨k, -, hhost⟩, -, hconnected⟩, hscript, -⟩ :=
      exchange_attempted (s := s) (s1 := s.pastGap p rest) hfn hp rfl rfl hu
    have hsent := exchange_sent hfn hp hu
    simp only [hr, Option.some.injEq] at hsent
    have hsame : t.link = u.link ∧ t.host = u.host := by
      simp only at h
      split at h <;> cases h <;> exact ⟨rfl, rfl⟩
    obtain ⟨hlink, hhost'⟩ := hsame
    rw [hhost] at hhost'
    refine ⟨?_, hlink ▸ hscript, hlink ▸ hconnected, by rw [hhost'], by rw [hhost'], ?_⟩
    · rw [hlink, hsent]
      simp only [hwaiting, false_or]
      rfl
    · rw [if_neg hwaiting, hhost']
      exact ⟨_, _, rfl, le_rfl⟩

/-! ### A reset on the way -/

/-- R206: a reset that the attempt reaches before its end. `asked` is the state with the request in its latch. -/
def ReachesReset (p : HostParams) (frame : List Byte) (e : LinkEvent) (s asked : State) (q : ResetPoint) : Prop :=
  q = .waiting ∨ q = .opening ∨ (q = .awaiting ∧ e.fate.sends = true) ∨
    (q = .accepted ∧ e.elapsed ≤ p.tTimeout ∧
      ∃ d u, arriving frame e s = some d ∧ exec (.accept d) asked = .next u ∧ u.result = .ok)

theorem listens_of_arriving (h : arriving frame e s = some d) : e.fate.listens := by
  unfold arriving at h
  cases hfate : e.fate with
  | noConnect | socketFailure => simp [hfate] at h
  | silence | delivers | faithful => trivial

/-- R160: bytes that arrive in time are judged when the attempt has ended. -/
theorem respond_eq_judge (hanswer : e.fate = .faithful → arriving frame e s0 = u.link.answer)
    (harrives : arriving frame e s0 = some d) (htime : e.elapsed ≤ p.tTimeout) :
    respond p e parse u = judge d parse e.reset (u.endAttempt p e.elapsed) := by
  rw [respond_eq_receive (listens_of_arriving harrives) hanswer, harrives]
  exact if_neg (Nat.not_lt.2 htime)

/-- R206: a reset between ACCEPT and the parse step abandons the attempt before it has given anything. -/
theorem judge_reset (hreq : u.req = asked.req) (hw : exec (.accept d) asked = .next w) (hok : w.result = .ok) :
    judge d parse (some .accepted) u = abandon .none (u.accepting d) := by
  obtain ⟨hvalid, hlen, ⟨err, -, rfl⟩ | ⟨hacc, -⟩⟩ := acceptBytes_eq_next.1 hw
  · cases hok
  · rw [← hreq] at hvalid hacc
    have : exec (.accept d) u = .next (u.accepting d) := acceptBytes_eq_next.2 ⟨hvalid, hlen, .inr ⟨hacc, rfl⟩⟩
    unfold judge
    rw [this]
    rfl

/-- R206: at each point on the way the reset abandons the attempt with nothing given. -/
theorem attempt_of_reachesReset (hfn : fn = fnRead ∨ fn = fnWrite) (hs : s.link.script = e :: rest)
    (hr : e.reset = some q) (hctrl : s0.ctrl = s.ctrl) (hfree : s0.freeIndex = s.freeIndex)
    (hreq : s.req = asked.req) (h : ReachesReset p (encodeFrame unit fn (payload16 a b)) e s0 asked q) :
    ∃ u : State, attempt p (encodeFrame unit fn (payload16 a b)) parse s = .next (.abandoned .none, u.resetEvent) := by
  rw [attempt_of_cons hs, hr]
  rcases h with rfl | rfl | ⟨rfl, hsends⟩ | ⟨rfl, htime, d, x, harrives, hx, hok⟩
  · exact ⟨_, rfl⟩
  · unfold exchange
    rw [hr]
    exact ⟨_, rfl⟩
  · obtain ⟨u, hsend, -⟩ := sendFrame_request (u := unit) (a := a) (n := b) hfn (s.pastGap p rest).connect
    unfold exchange
    simp only [hr, hsends, hsend]
    exact ⟨_, rfl⟩
  · obtain ⟨u, hu, hureq, -, hanswer⟩ := exchange_eq_respond (p := p) (unit := unit) (a := a) (b := b)
      (parse := parse) (s := s.pastGap p rest) (e := e) (s0 := s0) hfn (by simp [hr]) (by simp [hr]) hctrl hfree
    rw [hu, respond_eq_judge hanswer harrives htime, hr,
      judge_reset (u := u.endAttempt p e.elapsed) (hureq.trans hreq) hx hok]
    exact ⟨_, rfl⟩

/-! ### A reset at the end -/

/-- R160, R192: what an attempt with this event has given at its end: the error of the connection, the time-out, of
ACCEPT or the parse step, or the result. `asked` is the state with the request in its latch. -/
structure GivesAtEnd (p : HostParams) (frame : List Byte) (parse : Instr) (e : LinkEvent) (s asked : State)
    (seen : Result) : Prop where
  noConnect : e.fate = .noConnect → seen = .error .transportConnect
  socketFailure : ∀ sent, e.fate = .socketFailure sent →
    seen = .error (if p.tTimeout < e.elapsed then .transportTimeout else .transportSocket)
  unanswered : e.fate.sends = true → arriving frame e s = none → (∀ sent, e.fate ≠ .socketFailure sent) →
    seen = .error .transportTimeout
  late : ∀ d, arriving frame e s = some d → p.tTimeout < e.elapsed → seen = .error .transportTimeout
  judged : ∀ d u, arriving frame e s = some d → e.elapsed ≤ p.tTimeout → exec (.accept d) asked = .next u →
    (∀ err, u.result = .error err → seen = .error err) ∧
    (u.result = .ok → ∀ v, exec parse u = .next v → seen = v.result)

theorem verdictOf_given (h : verdictOf s = .next (v, t)) : v.given = s.result := by
  unfold verdictOf at h
  split at h
  · next he => cases h; exact he.symm
  · cases h; rfl

/-- R98, R160: judged bytes give ACCEPT's error or what the parse step gives, the same in every state with the request
and RXB. -/
theorem judge_given {reset : Option ResetPoint} (hp : isParse parse) (hreq : u.req = asked.req)
    (hrxb : u.rxb = asked.rxb) (hreset : reset ≠ some .accepted) (hw : exec (.accept d) asked = .next w)
    (h : judge d parse reset u = .next (v, t)) :
    (∀ err, w.result = .error err → v.given = .error err) ∧
    (w.result = .ok → ∀ x, exec parse w = .next x → v.given = x.result) := by
  obtain ⟨hvalid, hlen, ⟨e, hacc, rfl⟩ | ⟨hacc, rfl⟩⟩ := acceptBytes_eq_next.1 hw
  all_goals rw [← hreq] at hvalid hacc
  · rw [judge_rejects hvalid hlen hacc] at h
    cases h
    exact ⟨fun _ herr => herr, nofun⟩
  · rw [judge_accepts hvalid hlen hacc hreset] at h
    obtain ⟨_, hy, h⟩ := andThen_eq_next.1 h
    refine ⟨nofun, fun _ x hx => ?_⟩
    obtain ⟨_, hz, hresult⟩ := exec_parse_congr (s := asked.accepting d) (t := u.accepting d) hp (by simp [hreq])
      (by simp [hrxb]) rfl rfl hx
    cases hy.symm.trans hz
    exact (verdictOf_given h).trans hresult

/-- R160, R181: fate by fate; what arrives is judged, or comes too late. -/
theorem respond_givesAtEnd (hp : isParse parse) (hr : e.reset ≠ some .accepted)
    (hanswer : e.fate = .faithful → arriving frame e s0 = u.link.answer) (hreq : u.req = asked.req)
    (hrxb : u.rxb = asked.rxb) (h : respond p e parse u = .next (v, t)) :
    GivesAtEnd p frame parse e s0 asked v.given := by
  by_cases hl : e.fate.listens
  · refine ⟨fun hfate => by simp [hfate, LinkFate.listens] at hl,
      fun _ hfate => by simp [hfate, LinkFate.listens] at hl,
      fun _ hnone _ => ?_, fun d hd hlate => ?_, fun d x hd htime hx => ?_⟩
    · rw [respond_eq_receive hl hanswer, hnone] at h
      cases h
      rfl
    · rw [respond_eq_receive hl hanswer, hd] at h
      cases (if_pos hlate).symm.trans h
      rfl
    · rw [respond_eq_judge hanswer hd htime] at h
      exact judge_given (u := u.endAttempt p e.elapsed) hp hreq hrxb hr hx h
  · have hnone : ∀ d, arriving frame e s0 ≠ some d := fun d hd => hl (listens_of_arriving hd)
    unfold respond at h
    cases hfate : e.fate with
    | noConnect =>
      rw [hfate] at h
      cases h
      exact ⟨fun _ => rfl, by simp [hfate], by simp [hfate, LinkFate.sends], fun d hd => absurd hd (hnone d),
        fun d _ hd => absurd hd (hnone d)⟩
    | socketFailure x =>
      have hgiven : v.given = .error (if p.tTimeout < e.elapsed then .transportTimeout else .transportSocket) := by
        simp only [hfate, inTime] at h
        split at h
        · next hlate => cases h; rw [if_pos hlate]; rfl
        · next hlate => cases h; rw [if_neg hlate]; rfl
      exact ⟨by simp [hfate], fun _ _ => hgiven, fun _ _ hsocket => absurd hfate (hsocket x),
        fun d hd => absurd hd (hnone d), fun d _ hd => absurd hd (hnone d)⟩
    | silence | delivers | faithful => simp [hfate, LinkFate.listens] at hl

theorem attempt_reset_at_end (hfn : fn = fnRead ∨ fn = fnWrite) (hp : isParse parse) (hs : s.link.script = e :: rest)
    (hr : e.reset = some .ended) (hctrl : s0.ctrl = s.ctrl) (hfree : s0.freeIndex = s.freeIndex)
    (hreq : s.req = asked.req) (hrxb : s.rxb = asked.rxb)
    (h : attempt p (encodeFrame unit fn (payload16 a b)) parse s = .next (v, t)) :
    ∃ (seen : Result) (u : State), v = .abandoned seen ∧ t = u.resetEvent ∧
      GivesAtEnd p (encodeFrame unit fn (payload16 a b)) parse e s0 asked seen := by
  rw [attempt_of_cons hs, if_neg (by simp [hr])] at h
  obtain ⟨⟨v', u⟩, hu, h⟩ := andThen_eq_next.1 h
  cases (if_pos hr).symm.trans h
  obtain ⟨x, hx, hxreq, hxrxb, hanswer⟩ := exchange_eq_respond (p := p) (unit := unit) (a := a) (b := b)
    (parse := parse) (s := s.pastGap p rest) (e := e) (s0 := s0) hfn (by simp [hr]) (by simp [hr]) hctrl hfree
  rw [hx] at hu
  exact ⟨_, _, rfl, rfl, respond_givesAtEnd hp (by simp [hr]) hanswer (hxreq.trans hreq) (hxrxb.trans hrxb) hu⟩

/-- R206, R192: either way the attempt is abandoned, the block reset, and what it had given is known. -/
theorem attempt_abandoned (hfn : fn = fnRead ∨ fn = fnWrite) (hp : isParse parse) (hs : s.link.script = e :: rest)
    (hr : e.reset = some q) (hctrl : s0.ctrl = s.ctrl) (hfree : s0.freeIndex = s.freeIndex)
    (hreq : s.req = asked.req) (hrxb : s.rxb = asked.rxb)
    (hq : ReachesReset p (encodeFrame unit fn (payload16 a b)) e s0 asked q ∨ q = .ended)
    (h : attempt p (encodeFrame unit fn (payload16 a b)) parse s = .next (v, t)) :
    ∃ (seen : Result) (u : State), v = .abandoned seen ∧ t = u.resetEvent ∧ (q ≠ .ended → seen = .none) ∧
      (q = .ended → GivesAtEnd p (encodeFrame unit fn (payload16 a b)) parse e s0 asked seen) := by
  by_cases hended : q = .ended
  · obtain ⟨seen, u, hv, ht, hgives⟩ := attempt_reset_at_end hfn hp hs (hended ▸ hr) hctrl hfree hreq hrxb h
    exact ⟨seen, u, hv, ht, fun hne => absurd hended hne, fun _ => hgives⟩
  · obtain ⟨u, hu⟩ := attempt_of_reachesReset (parse := parse) hfn hs hr hctrl hfree hreq (hq.resolve_right hended)
    cases hu.symm.trans h
    exact ⟨.none, u, rfl, rfl, fun _ => rfl, fun he => absurd he hended⟩

end

/-- Settles O53: the attempt by `attempt_abandoned`, its records by `attempt_resetRecords`. -/
theorem resetAbandonsATransaction : Obligations.ResetAbandonsATransaction := by
  intro p request parse unit fn a b reg isWrite s e q rest hreq hp hclosed hs hr frame asked reached
  obtain ⟨hfn, s0, htries, hs0, hlink, hhost, hctrl, -, -, hfree, hrxb⟩ := transaction_eq_tries (p := p) (s := s) hreq
  have hlink1 : s0.counted.link = s.link := hlink
  have hhost1 : s0.counted.host = { s.host with attempts := 1 } := by
    rw [State.counted, State.setAttempts, State.withHost_host, hhost]
  have hscript : s0.counted.link.script = e :: rest := hlink1 ▸ hs
  constructor
  · intro hreached
    obtain ⟨u, hu⟩ := attempt_of_reachesReset (parse := parse) (s := s0.counted) (s0 := s) (asked := asked) hfn hscript
      hr hctrl.symm hfree.symm hs0 hreached
    exact ⟨_, (htries parse reg isWrite).trans (tries_of_abandoned hu)⟩
  · intro r t h hq
    rw [htries] at h
    obtain ⟨v, u, hu⟩ := attempt_of_tries h
    obtain ⟨hsent, hrest, hconnected, hlog, hnumber, hpairs⟩ :=
      attempt_resetRecords hfn hp hscript (hlink1 ▸ hclosed) hr hu
    rw [hlink1] at hsent
    rw [hhost1] at hlog hnumber hpairs
    obtain ⟨seen, x, rfl, rfl, hnone, hgives⟩ := attempt_abandoned (s0 := s) (asked := asked) hfn hp hscript hr
      hctrl.symm hfree.symm hs0 hrxb hq hu
    rw [tries_of_abandoned hu, hnumber] at h
    cases h
    refine ⟨rfl, hsent, hrest, hconnected, rfl, rfl, rfl, rfl, rfl,
      ⟨seen, congrArg (· ++ [_]) hlog, hnone, fun he => ?_⟩, hpairs⟩
    obtain ⟨hnoConnect, hsocket, hunanswered, hlate, hjudged⟩ := hgives he
    exact ⟨hnoConnect, hsocket, hunanswered, hlate, hjudged⟩

end Sys2Proof.Machine
